-- ==== Sys2Proof/Word.lean ====
section
/-!
DEFINITION. The value domains of 00_scope.md rules R6 and R9.
-/

namespace Sys2Proof

/-- A *word*: registers, pc, cycle, positions, addresses and log values (R6, R9). Its addition wraps
modulo 2^64 (R9). -/
abbrev Word := BitVec 64

abbrev Byte := BitVec 8

/-- A raw instruction word (R80). -/
abbrev InstrWord := BitVec 32

/-- A 5-bit register index, 0 to 31 (R6, R21). -/
abbrev RegIdx := Fin 32

end Sys2Proof
end

