-- ==== Sys2Proof/Config.lean ====
section
/-!
DEFINITION. What one instantiation of the block fixes and the spec leaves open (00_scope.md rule R7,
92_eei_decisions.md "Open parameters in one place"): the slot positions, the policy for reading
register 0, and which slots the backing store also answers for as memory words.
-/

namespace Sys2Proof

/-- The 35 non-memory state cells, each named in the log by its position (00_scope.md glossary, R7). -/
inductive Slot where
  | cycle
  | halt
  | pc
  | x (i : RegIdx)
deriving DecidableEq, Repr

/-- `X0_READ_POLICY` (92_eei_decisions.md D10): a read of register 0 yields the log entry's value, or
zero whatever the entry holds. -/
inductive X0ReadPolicy where
  | log
  | zero
deriving DecidableEq, Repr

/-- The parameters of one machine. They are carried in State (log entry 2), so a statement over all
states is a statement over all parameters. `mapped` lists the slots whose position the backing store
also answers for as a memory word (10_state.md R32; log entry 4). -/
structure Config where
  posCycle : Word
  posHalt : Word
  posPc : Word
  posX : Vector Word 32
  x0Read : X0ReadPolicy
  mapped : List Slot
deriving DecidableEq, Repr

/-- The `POS_*` position of a slot (R7). -/
def Config.position (c : Config) : Slot → Word
  | .cycle => c.posCycle
  | .halt => c.posHalt
  | .pc => c.posPc
  | .x i => c.posX[i]

/-- All 35 slots. -/
def Slot.all : List Slot := [.cycle, .halt, .pc] ++ (List.finRange 32).map .x

/-- Well-formedness of the slot parameters: the 35 positions are pairwise distinct (10_state.md R33). -/
abbrev Config.distinct (c : Config) : Prop := (Slot.all.map c.position).Nodup

/-- The slot positions of the machine that State.reset describes: open parameters (D2), so an
uninterpreted constant. Any placement of 35 pairwise distinct positions is the image of 0 to 34 under
some permutation of the words, so taking a permutation assumes R33 and nothing more.
DESIGN CHOICE, safe; log entry 1. -/
opaque Config.slotPlacement : Equiv.Perm Word

/-- The configuration State.reset carries: open slot positions, the spec's default policy for register
0 (D10), no slot mapped into memory (DESIGN CHOICE, unsafe; log entry 4). -/
def Config.atReset : Config where
  posCycle := Config.slotPlacement 0#64
  posHalt := Config.slotPlacement 1#64
  posPc := Config.slotPlacement 2#64
  posX := Vector.ofFn fun i => Config.slotPlacement (BitVec.ofNat 64 (3 + i.val))
  x0Read := .log
  mapped := []

end Sys2Proof
end

