-- ==== Sys2Proof/Machine/State.lean ====
section
/-!
DEFINITION. The state of one Step machine as plain data: the backing store's cells (10_state.md R20 item 1),
the Step-local state (item 2) and the three ports (00_scope.md R3), with the reasons a step can stop
and the state after reset.
-/

namespace Sys2Proof.Machine

/-! ### The access log (10_state.md R34) -/

inductive AccessKind where
  | read
  | write
deriving DecidableEq, Repr

structure Access where
  position : Word
  value : Word
  kind : AccessKind
deriving DecidableEq, Repr

abbrev AccessLog := List Access

/-! ### Step results (00_scope.md R14, 60_exceptions.md R240, R242) -/

/-- What a facade call expected of the log: `expected.value` is present for a write, absent for a read
(R242). -/
inductive Expected where
  | read (position : Word)
  | write (position value : Word)
deriving DecidableEq, Repr

/-- The seven error kinds E1 to E7 with the information R240 and R242 record. -/
inductive StepError where
  /-- E1: a facade call needs an entry and the log is used up. -/
  | accessExhausted (index : Nat) (expected : Expected)
  /-- E2: the entry at the cursor is of the other kind. -/
  | accessKindMismatch (index : Nat) (expected : Expected) (actual : Access)
  /-- E3: the entry's position is not the one being touched. -/
  | accessAddressMismatch (index : Nat) (expected : Expected) (actual : Access)
  /-- E4: a write entry whose value is not the word the block computed. -/
  | writeValueMismatch (index : Nat) (expected : Expected) (actual : Access)
  /-- E5: `width` in bits, `address` the full unaligned byte address (R52). -/
  | misalignedAccess (width : Nat) (address : Word)
  /-- E6: entries were left over at a successful end (R222). -/
  | endOfLogInvariantViolation (cursor length : Nat)
  /-- E7: the fetched word fits no row of the opcode table (R218). -/
  | unsupportedInstruction (bits : InstrWord) (pc : Word)
deriving DecidableEq, Repr

inductive StepResult where
  | ok (cycle : Word) (halted : Bool)
  | error (e : StepError)
deriving DecidableEq, Repr

/-! ### The ports -/

/-- The nine operations of the backing-store provider port (00_scope.md R3 item 2). -/
inductive ProviderOp where
  | readCycle
  | readHaltFlag
  | readPc
  | readWord (address : Word)
  | readRegister (index : RegIdx)
  | writeCycle (value : Word)
  | writePc (value : Word)
  | writeWord (address value : Word)
  | writeRegister (index : RegIdx) (value : Word)
deriving DecidableEq, Repr

/-- Who fills the Step request port. `honest`: every Step is given its own footprint, the honest log of
45_step_controller.md R224 (70_reset_and_hazards.md R272 item 5), which is recorded as the Step runs.
`claims`: the logs of the Steps still to be requested, the next one first (R3 item 1); each is
verified entry by entry. Log entries 8 and 10. -/
inductive Caller where
  | honest
  | claims (pending : List AccessLog)
deriving DecidableEq, Repr

/-! ### The state -/

/-- Memory as byte cells, addresses strictly rising, no cell that equals what an unlisted address reads
as (Machine/Memory.lean: `Memory.wf`). -/
abbrev Memory := List Host.Cell

structure State where
  /-- The open parameters of this machine; no step changes them (log entry 2). -/
  cfg : Config
  /-- Backing store: the general registers x[0] .. x[31] (R21). -/
  regs : Vector Word 32
  /-- Backing store: the program counter slot (R24). -/
  pc : Word
  /-- Backing store: the cycle counter slot (R28). -/
  cycle : Word
  /-- Backing store: the halt flag's word, true when not zero (R29). -/
  halt : Word
  /-- Backing store: memory (R31). -/
  mem : Memory
  /-- Step request port (R3 item 1). -/
  caller : Caller
  /-- Step-local: the access log of this Step (R34); under an honest caller, the part recorded so far. -/
  log : AccessLog
  /-- Step-local: the index of the next unconsumed entry (R35). -/
  cursor : Nat
  /-- Step-local: the pc this Step read, the `pc` of every instruction rule (R13, R213). -/
  stepPc : Word
  /-- Provider port: the operations this Step has issued, oldest first (R130). -/
  trace : List ProviderOp
  /-- Step result port (R14); `none` while the Step is in progress. -/
  result : Option StepResult
deriving DecidableEq, Repr

/-! ### Stops -/

/-- Reasons the model stops. The errors of 60_exceptions.md are not among them: they end a Step, not the
machine, and are next states (log entry 7). -/
inductive Fault where
  /-- Raised by `step` alone: the caller has no further Step request, so there is no Step to take
  (00_scope.md R3 item 1). Safe: nothing happens without a request. Log entry 8. -/
  | noRequest
deriving DecidableEq, Repr

inductive Refusal where
  /-- Raised by `exec` for an instruction without a meaning, by its mnemonic. Safe. No arm raises it:
  all 15 instructions are modelled. -/
  | notModelled (mnemonic : String)
deriving DecidableEq, Repr

/-! ### Reset -/

/-- The launch state. The spec gives the block no reset (70_reset_and_hazards.md R270) and states only
x[0] = 0 and the cursor (10_state.md R37); every other value is the model's (log entries 1, 3 to 6,
8, 9, 11). -/
def State.reset : State where
  cfg := Config.atReset
  regs := Vector.replicate 32 0#64
  pc := 0#64
  cycle := 0#64
  halt := 0#64
  mem := []
  caller := .honest
  log := []
  cursor := 0
  stepPc := 0#64
  trace := []
  result := none

end Sys2Proof.Machine
end

