-- ==== Sys2Proof/Machine/Flags.lean ====
section
/-!
DEFINITION. UARCH-STEP has no flags (10_state.md R27). What another machine reads from flags is the condition
of a branch here: a comparison of two whole 64-bit words (43_branches.md R177).
-/

namespace Sys2Proof.Machine

def condEq (a b : Word) : Bool := a == b
def condNe (a b : Word) : Bool := a != b
def condLt (a b : Word) : Bool := decide (a.toInt < b.toInt)
def condGe (a b : Word) : Bool := decide (a.toInt ≥ b.toInt)
def condLtu (a b : Word) : Bool := decide (a.toNat < b.toNat)
def condGeu (a b : Word) : Bool := decide (a.toNat ≥ b.toNat)

end Sys2Proof.Machine
end

