-- ==== Sys2Proof/WellFormed.lean ====
section
/-!
DEFINITION. Which instructions have an encoding: the ranges 30_encoding.md gives each immediate. Register
indices are in range by their type. The ranges are read on the signed value, apart from the decoder's
bit fields, so that the two can be held against each other.
-/

namespace Sys2Proof

/-- Multiples of 4096 in −2^31 .. 2^31 − 4096 (R84). -/
def wfImmU (imm : Word) : Bool :=
  decide (-2147483648 ≤ imm.toInt) && decide (imm.toInt ≤ 2147479552) && decide (imm.toInt % 4096 = 0)

/-- Even numbers in −2^20 .. 2^20 − 2 (R85). -/
def wfImmJ (imm : Word) : Bool :=
  decide (-1048576 ≤ imm.toInt) && decide (imm.toInt ≤ 1048574) && decide (imm.toInt % 2 = 0)

/-- −2048 .. 2047 (R83). -/
def wfImmI (imm : Word) : Bool :=
  decide (-2048 ≤ imm.toInt) && decide (imm.toInt ≤ 2047)

/-- Even numbers in −4096 .. 4094 (R86). -/
def wfImmB (imm : Word) : Bool :=
  decide (-4096 ≤ imm.toInt) && decide (imm.toInt ≤ 4094) && decide (imm.toInt % 2 = 0)

def Instr.wellFormed : Instr → Bool
  | .lui _ imm => wfImmU imm
  | .auipc _ imm => wfImmU imm
  | .jal _ imm => wfImmJ imm
  | .jalr _ _ imm => wfImmI imm
  | .beq _ _ imm => wfImmB imm
  | .bne _ _ imm => wfImmB imm
  | .blt _ _ imm => wfImmB imm
  | .bge _ _ imm => wfImmB imm
  | .bltu _ _ imm => wfImmB imm
  | .bgeu _ _ imm => wfImmB imm
  | .lb _ _ imm => wfImmI imm
  | .lh _ _ imm => wfImmI imm
  | .lw _ _ imm => wfImmI imm
  | .lbu _ _ imm => wfImmI imm
  | .lhu _ _ imm => wfImmI imm

end Sys2Proof
end

