-- ==== Sys2Proof/Decode.lean ====
section
/-!
DEFINITION. The Instruction Decoder (30_encoding.md): bit fields, immediates, `decode`, and after them the
encoders of rule R99. All are pure and total on every word (R87). The opcode and funct3 places and
values and the B- and S-immediate places are the spec's own, from general knowledge (D16, D17;
PRESUMED, log entry 12).
-/

namespace Sys2Proof

/-- `sext_N(v)`: the low `n` bits of `v`, bit n−1 copied upwards to 64 bits (00_scope.md R10). -/
def sext (n : Nat) {w : Nat} (v : BitVec w) : Word := (v.setWidth n).signExtend 64

/-- `zext_N(v)`: the low `n` bits of `v`, zeros above (00_scope.md R10). -/
def zext (n : Nat) {w : Nat} (v : BitVec w) : Word := (v.setWidth n).setWidth 64

/-! ### Fields (30_encoding.md R81) -/

def opcodeOf (bits : InstrWord) : BitVec 7 := bits.extractLsb' 0 7
def funct3Of (bits : InstrWord) : BitVec 3 := bits.extractLsb' 12 3
def rdOf (bits : InstrWord) : RegIdx := (bits.extractLsb' 7 5).toFin
def rs1Of (bits : InstrWord) : RegIdx := (bits.extractLsb' 15 5).toFin
def rs2Of (bits : InstrWord) : RegIdx := (bits.extractLsb' 20 5).toFin

/-! ### Immediates (30_encoding.md R83 to R90) -/

/-- R83. -/
def immI (bits : InstrWord) : Word := sext 12 (bits.extractLsb' 20 12)

/-- R84. -/
def immU (bits : InstrWord) : Word := sext 32 (bits.extractLsb' 12 20 ++ 0#12)

/-- R85. -/
def immJ (bits : InstrWord) : Word :=
  sext 21 (bits.extractLsb' 31 1 ++ bits.extractLsb' 12 8 ++ bits.extractLsb' 20 1
    ++ bits.extractLsb' 21 10 ++ 0#1)

/-- R86. -/
def immB (bits : InstrWord) : Word :=
  sext 13 (bits.extractLsb' 31 1 ++ bits.extractLsb' 7 1 ++ bits.extractLsb' 25 6
    ++ bits.extractLsb' 8 4 ++ 0#1)

/-- R88; a decoder helper that no admitted instruction uses. -/
def immS (bits : InstrWord) : Word := sext 12 (bits.extractLsb' 25 7 ++ bits.extractLsb' 7 5)

/-- R89; a decoder helper that no admitted instruction uses. -/
def shamt5 (bits : InstrWord) : BitVec 5 := bits.extractLsb' 20 5

/-- R90; a decoder helper that no admitted instruction uses. -/
def shamt6 (bits : InstrWord) : BitVec 6 := bits.extractLsb' 20 6

/-! ### decode (30_encoding.md R93) -/

/-- Why the decoder gives no instruction. -/
inductive DecodeReject where
  /-- The word fits no row of the opcode table (R94). -/
  | unsupported
  /-- Fewer than the four bytes of an instruction word were given (R80, R96). -/
  | truncated
deriving DecidableEq, Repr

/-- R93, from a 32-bit instruction word. Every word that fits no row is `unsupported` (R94). -/
def decode (bits : InstrWord) : Except DecodeReject Instr :=
  match (opcodeOf bits).toNat with
  | 0x37 => .ok (.lui (rdOf bits) (immU bits))
  | 0x17 => .ok (.auipc (rdOf bits) (immU bits))
  | 0x6F => .ok (.jal (rdOf bits) (immJ bits))
  | 0x67 =>
    match (funct3Of bits).toNat with
    | 0 => .ok (.jalr (rdOf bits) (rs1Of bits) (immI bits))
    | _ => .error .unsupported
  | 0x63 =>
    match (funct3Of bits).toNat with
    | 0 => .ok (.beq (rs1Of bits) (rs2Of bits) (immB bits))
    | 1 => .ok (.bne (rs1Of bits) (rs2Of bits) (immB bits))
    | 4 => .ok (.blt (rs1Of bits) (rs2Of bits) (immB bits))
    | 5 => .ok (.bge (rs1Of bits) (rs2Of bits) (immB bits))
    | 6 => .ok (.bltu (rs1Of bits) (rs2Of bits) (immB bits))
    | 7 => .ok (.bgeu (rs1Of bits) (rs2Of bits) (immB bits))
    | _ => .error .unsupported
  | 0x03 =>
    match (funct3Of bits).toNat with
    | 0 => .ok (.lb (rdOf bits) (rs1Of bits) (immI bits))
    | 1 => .ok (.lh (rdOf bits) (rs1Of bits) (immI bits))
    | 2 => .ok (.lw (rdOf bits) (rs1Of bits) (immI bits))
    | 4 => .ok (.lbu (rdOf bits) (rs1Of bits) (immI bits))
    | 5 => .ok (.lhu (rdOf bits) (rs1Of bits) (immI bits))
    | _ => .error .unsupported
  | _ => .error .unsupported

/-- The instruction at the head of a byte sequence, lowest address first, with the bytes after it:
bit 0 is bit 0 of the first byte, bit 31 is bit 7 of the fourth (R80). -/
def decodeBytes : List Byte → Except DecodeReject (Instr × List Byte)
  | b0 :: b1 :: b2 :: b3 :: rest =>
    match decode (b3 ++ b2 ++ b1 ++ b0) with
    | .ok i => .ok (i, rest)
    | .error e => .error e
  | _ => .error .truncated

/-! ### Encoders (30_encoding.md R99) -/

def regBits (r : RegIdx) : BitVec 5 := BitVec.ofFin r

def encU (op : BitVec 7) (rd : RegIdx) (f : BitVec 20) : InstrWord := f ++ regBits rd ++ op

def encJ (rd : RegIdx) (o : Word) : InstrWord :=
  o.extractLsb' 20 1 ++ o.extractLsb' 1 10 ++ o.extractLsb' 11 1 ++ o.extractLsb' 12 8
    ++ regBits rd ++ 0x6F#7

def encI (op : BitVec 7) (f3 : BitVec 3) (rd rs1 : RegIdx) (imm : Word) : InstrWord :=
  imm.extractLsb' 0 12 ++ regBits rs1 ++ f3 ++ regBits rd ++ op

def encB (f3 : BitVec 3) (rs1 rs2 : RegIdx) (o : Word) : InstrWord :=
  o.extractLsb' 12 1 ++ o.extractLsb' 5 6 ++ regBits rs2 ++ regBits rs1 ++ f3
    ++ o.extractLsb' 1 4 ++ o.extractLsb' 11 1 ++ 0x63#7

/-- The word of an instruction, by the encoder of its format and the values of R91 and R92. -/
def encode : Instr → InstrWord
  | .lui rd imm => encU 0x37#7 rd (imm.extractLsb' 12 20)
  | .auipc rd imm => encU 0x17#7 rd (imm.extractLsb' 12 20)
  | .jal rd imm => encJ rd imm
  | .jalr rd rs1 imm => encI 0x67#7 0#3 rd rs1 imm
  | .beq rs1 rs2 imm => encB 0#3 rs1 rs2 imm
  | .bne rs1 rs2 imm => encB 1#3 rs1 rs2 imm
  | .blt rs1 rs2 imm => encB 4#3 rs1 rs2 imm
  | .bge rs1 rs2 imm => encB 5#3 rs1 rs2 imm
  | .bltu rs1 rs2 imm => encB 6#3 rs1 rs2 imm
  | .bgeu rs1 rs2 imm => encB 7#3 rs1 rs2 imm
  | .lb rd rs1 imm => encI 0x03#7 0#3 rd rs1 imm
  | .lh rd rs1 imm => encI 0x03#7 1#3 rd rs1 imm
  | .lw rd rs1 imm => encI 0x03#7 2#3 rd rs1 imm
  | .lbu rd rs1 imm => encI 0x03#7 4#3 rd rs1 imm
  | .lhu rd rs1 imm => encI 0x03#7 5#3 rd rs1 imm

/-! ### The opcode table (30_encoding.md R92) -/

structure OpcodeRow where
  mnemonic : String
  mask : InstrWord
  pattern : InstrWord
deriving DecidableEq, Repr

/-- R92, row by row; `pattern` is the table's `match`. -/
def opcodeTable : List OpcodeRow :=
  [⟨"LUI", 0x0000007F, 0x00000037⟩,
   ⟨"AUIPC", 0x0000007F, 0x00000017⟩,
   ⟨"JAL", 0x0000007F, 0x0000006F⟩,
   ⟨"JALR", 0x0000707F, 0x00000067⟩]
  ++ [⟨"BEQ", 0x0000707F, 0x00000063⟩,
      ⟨"BNE", 0x0000707F, 0x00001063⟩,
      ⟨"BLT", 0x0000707F, 0x00004063⟩,
      ⟨"BGE", 0x0000707F, 0x00005063⟩,
      ⟨"BLTU", 0x0000707F, 0x00006063⟩,
      ⟨"BGEU", 0x0000707F, 0x00007063⟩]
  ++ [⟨"LB", 0x0000707F, 0x00000003⟩,
      ⟨"LH", 0x0000707F, 0x00001003⟩,
      ⟨"LW", 0x0000707F, 0x00002003⟩,
      ⟨"LBU", 0x0000707F, 0x00004003⟩,
      ⟨"LHU", 0x0000707F, 0x00005003⟩]

/-- `bits & mask = match` (R92). -/
def OpcodeRow.fits (r : OpcodeRow) (bits : InstrWord) : Bool := bits &&& r.mask == r.pattern

/-! ### The host's reading of a table word -/

/-- The bytes of an instruction whose bits are `w`, lowest address first, the bits above `nbits` zero
(R80: little-endian). -/
def tableWordBytes (nbits w : Nat) : List Byte :=
  let bits : InstrWord := BitVec.ofNat 32 (w % 2 ^ nbits)
  [bits.extractLsb' 0 8, bits.extractLsb' 8 8, bits.extractLsb' 16 8, bits.extractLsb' 24 8]

/-- The instruction the decoder reads from a word numbered as spec/opcode_table.json numbers it. -/
def decodeTableWord (nbits w : Nat) : Option Instr :=
  match decodeBytes (tableWordBytes nbits w) with
  | .ok (i, _) => some i
  | .error _ => none

end Sys2Proof
end

