-- ==== Sys2Proof/Machine/Memory.lean ====
section
/-!
DEFINITION. Memory (10_state.md R31, 20_memory.md R50, R54): byte cells over the 64-bit address space in one
canonical form, and the aligned 64-bit word built from them, little-endian.
-/

namespace Sys2Proof.Machine

/-- What an address that no cell lists reads as. The spec gives memory no initial contents
(10_state.md R37). DESIGN CHOICE, unsafe; log entry 6. -/
def unlistedByte : Byte := 0#8

/-- The byte at an address. -/
def Memory.readByte : Memory → Nat → Byte
  | [], _ => unlistedByte
  | (k, b) :: rest, a => if k = a then b else Memory.readByte rest a

/-- Put a byte at an address and keep the canonical form: a byte equal to `unlistedByte` is not
listed. -/
def Memory.writeByte : Memory → Nat → Byte → Memory
  | [], a, b => if b = unlistedByte then [] else [(a, b)]
  | (k, c) :: rest, a, b =>
    if a < k then (if b = unlistedByte then (k, c) :: rest else (a, b) :: (k, c) :: rest)
    else if a = k then (if b = unlistedByte then rest else (a, b) :: rest)
    else (k, c) :: Memory.writeByte rest a b

/-- The canonical form: every address below 2^64 and below all later ones, no cell that an unlisted
address would read the same as. -/
def Memory.wf : Memory → Bool
  | [] => true
  | (k, b) :: rest =>
    decide (k < 2 ^ 64) && decide (b ≠ unlistedByte) && rest.all (fun c => decide (k < c.1))
      && Memory.wf rest

/-- The address of byte `k` of the word at `a`. For an aligned `a` and `k < 8` the sum does not wrap. -/
def byteAddr (a : Word) (k : Nat) : Nat := (a + BitVec.ofNat 64 k).toNat

/-- The 64-bit word at `a`: the byte at the lowest address is the least significant (R50). -/
def Memory.readWord (m : Memory) (a : Word) : Word :=
  m.readByte (byteAddr a 7) ++ m.readByte (byteAddr a 6) ++ m.readByte (byteAddr a 5)
    ++ m.readByte (byteAddr a 4) ++ m.readByte (byteAddr a 3) ++ m.readByte (byteAddr a 2)
    ++ m.readByte (byteAddr a 1) ++ m.readByte (byteAddr a 0)

/-- Byte `k` of a word, byte 0 the least significant (10_state.md R34). -/
def byteOf (v : Word) (k : Nat) : Byte := v.extractLsb' (8 * k) 8

/-- Store the low `n` bytes of `v` at `a`, `a + 1`, … -/
def Memory.writeBytes (m : Memory) (a : Word) (v : Word) : Nat → Memory
  | 0 => m
  | n + 1 => (Memory.writeBytes m a v n).writeByte (byteAddr a n) (byteOf v n)

/-- Replace the 64-bit word at `a` (R60, R131). -/
def Memory.writeWord (m : Memory) (a v : Word) : Memory := m.writeBytes a v 8

end Sys2Proof.Machine
end

