-- ==== Sys2Proof/Machine/Operands.lean ====
section
/-!
DEFINITION. Operand forms and the pure word functions of the rules: shifts (00_scope.md R11), `packBits`
(R12), access widths, alignment and lanes (20_memory.md R51 to R55, R58), the extensions of the loads
(44_loads.md R196), effective addresses and jump targets.
-/

namespace Sys2Proof.Machine

/-! ### Shifts: the count is taken modulo the operand width (R11) -/

def shl64 (v : Word) (c : Nat) : Word := v <<< (c &&& 63)
def shr64 (v : Word) (c : Nat) : Word := v >>> (c &&& 63)
def shl32 (v : BitVec 32) (c : Nat) : BitVec 32 := v <<< (c &&& 31)
def shr32 (v : BitVec 32) (c : Nat) : BitVec 32 := v >>> (c &&& 31)

/-- A word of `n` low ones, `2^n − 1` (R12). -/
def lowMask (n : Nat) : Word := BitVec.ofNat 64 (2 ^ n - 1)

/-- `packBits` (R12). Its precondition is an argument: outside it the function has no value (D25, U1;
log entry 14). -/
def packBits (value : Word) (bitWidth : Nat) (intoWord : Word) (bitOffset : Nat)
    (_ : bitOffset + bitWidth ≤ 64) : Word :=
  (intoWord &&& ~~~(shl64 (lowMask bitWidth) bitOffset))
    ||| shl64 (value &&& lowMask bitWidth) bitOffset

/-! ### Access widths (20_memory.md R51) -/

/-- The widths of an access: 1, 2, 4 and 8 bytes. -/
inductive Width where
  | byte
  | half
  | word
  | double
deriving DecidableEq, Repr

def Width.bytes : Width → Nat
  | .byte => 1
  | .half => 2
  | .word => 4
  | .double => 8

def Width.bits (n : Width) : Nat := 8 * n.bytes

/-- The alignment condition of a legal access (R51). -/
def Width.aligned : Width → Word → Bool
  | .byte, _ => true
  | .half, addr => addr.extractLsb' 0 1 == 0#1
  | .word, addr => addr.extractLsb' 0 2 == 0#2
  | .double, addr => addr.extractLsb' 0 3 == 0#3

/-- `addr & ~7`, the position of the containing word (R54). -/
def alignDown (addr : Word) : Word := addr &&& ~~~7#64

/-- `(addr & 7) * 8`, where the addressed byte starts in its word (R55). -/
def laneShift (addr : Word) : Nat := (addr &&& 7#64).toNat * 8

/-- The bytes of a legal access taken from the containing word `w` (R55). -/
def Width.extract (n : Width) (addr w : Word) : Word :=
  match n with
  | .double => w
  | n => shr64 w (laneShift addr) &&& lowMask n.bits

/-- A legal narrow access lies inside one word (R53), which is `packBits`'s precondition in R58. -/
theorem lane_fits (n : Width) (addr : Word) (h : n.aligned addr = true) :
    laneShift addr + n.bits ≤ 64 := by
  have key : (addr &&& 7#64).toNat = addr.toNat % 8 := by
    rw [BitVec.toNat_and]; exact Nat.and_two_pow_sub_one_eq_mod addr.toNat 3
  simp only [laneShift, key]
  cases n <;>
    simp only [Width.aligned, Width.bits, Width.bytes, beq_iff_eq, ← BitVec.toNat_inj,
      BitVec.extractLsb'_toNat, Nat.shiftRight_zero, BitVec.toNat_ofNat] at h ⊢ <;> omega

/-! ### Extensions of a loaded value (44_loads.md R196) -/

/-- LB, LH, LW: copy the top bit of the `8n`-bit value upwards. -/
def extSigned (n : Width) (v : Word) : Word := sext n.bits v

/-- LBU, LHU: zeros above. -/
def extUnsigned (n : Width) (v : Word) : Word := zext n.bits v

/-! ### Addresses -/

/-- Base plus displacement, wrapping (44_loads.md R195). -/
def effAddr (base imm : Word) : Word := base + imm

/-- The address of the next sequential instruction, wrapping (45_step_controller.md R220). -/
def nextPc (pc : Word) : Word := pc + 4#64

/-- A pc-relative target, wrapping (R151, R160, R176). -/
def pcRel (pc imm : Word) : Word := pc + imm

/-- JALR's target: the wrapped sum with bit 0 cleared (R161). -/
def jalrTarget (base imm : Word) : Word := (base + imm) &&& ~~~1#64

end Sys2Proof.Machine
end

