-- ==== Sys2Proof/Machine/Ops.lean ====
section
/-!
DEFINITION. The named operations every instruction and the Step Controller are built from: the provider
(40_verifier_facade.md R130, R131), the AccessLog Verifier (R120 to R122), the State Facade (R123 to
R128), `MemRead` and `MemWrite` (20_memory.md R55, R58), the pc writes (45_step_controller.md R220),
and raising an error (60_exceptions.md R241).
-/

namespace Sys2Proof.Machine

/-- What an operation comes to: a value and the state after it, or a raised error and the state as it was
left (R241: nothing is undone). -/
inductive Result (α : Type) where
  | ok (a : α) (s : State)
  | raised (e : StepError) (s : State)
deriving DecidableEq, Repr

/-- Go on only if the operation did not raise: a raise ends the Step at once (R241). -/
def Result.andThen {α β : Type} (r : Result α) (k : α → State → Result β) : Result β :=
  match r with
  | .ok a s => k a s
  | .raised e s => .raised e s

/-! ### Raising an error and ending a Step (60_exceptions.md R241, R250; 45_step_controller.md R222) -/

/-- Put a result on the Step result port (R14). -/
def State.finish (s : State) (r : StepResult) : State := { s with result := some r }

/-- What `raise` does: the error is the Step's whole result, and every other piece of state stays as it is
(R241, R250). It is the machine's only form of taking an exception; there is no return from it (R251),
the next Step request begins afresh (`State.beginStep`). -/
def State.raise (s : State) (e : StepError) : State := s.finish (.error e)

/-- A successful end: `checkEndOfLog()`, then the result `Ok(cycle, halted)` (R210, R222). -/
def State.conclude (s : State) (cycle : Word) (halted : Bool) : State :=
  if s.cursor ≠ s.log.length then s.raise (.endOfLogInvariantViolation s.cursor s.log.length)
  else s.finish (.ok cycle halted)

/-- The state at the start of the next requested Step: cursor 0, the log the one supplied with the
request (none recorded yet under an honest caller), nothing kept from an earlier Step (R271, R20).
`none` when no request stands at the port. -/
def State.beginStep (s : State) : Option State :=
  match s.caller with
  | .honest =>
    some { s with log := [], cursor := 0, stepPc := 0#64, trace := [], result := none }
  | .claims [] => none
  | .claims (l :: rest) =>
    some { s with caller := .claims rest, log := l, cursor := 0, stepPc := 0#64, trace := [], result := none }

/-! ### Named updates of one cell -/

def State.setReg (s : State) (i : RegIdx) (v : Word) : State :=
  { s with regs := s.regs.set i.val v i.isLt }

def State.setPc (s : State) (v : Word) : State := { s with pc := v }

def State.setCycle (s : State) (v : Word) : State := { s with cycle := v }

def State.setHalt (s : State) (v : Word) : State := { s with halt := v }

def State.setMem (s : State) (m : Memory) : State := { s with mem := m }

/-- The Step's own pc, latched by access 2 (R213; log entry 11). -/
def State.setStepPc (s : State) (v : Word) : State := { s with stepPc := v }

/-! ### The provider (40_verifier_facade.md R130, R131) -/

/-- The word a slot holds. -/
def State.slotWord (s : State) : Slot → Word
  | .cycle => s.cycle
  | .halt => s.halt
  | .pc => s.pc
  | .x i => s.regs[i]

/-- Replace the word a slot holds. -/
def State.setSlot (s : State) (sl : Slot) (v : Word) : State :=
  match sl with
  | .cycle => s.setCycle v
  | .halt => s.setHalt v
  | .pc => s.setPc v
  | .x i => s.setReg i v

/-- The mapped slot at a position, if the backing store answers for one there (10_state.md R32;
log entry 4). -/
def State.slotAt (s : State) (p : Word) : Option Slot :=
  s.cfg.mapped.find? fun sl => s.cfg.position sl == p

/-- The store's 64-bit word at an aligned position (R131). -/
def State.storeWord (s : State) (a : Word) : Word :=
  match s.slotAt a with
  | some sl => s.slotWord sl
  | none => s.mem.readWord a

/-- The store with the 64-bit word at an aligned position replaced (R131). -/
def State.setStoreWord (s : State) (a v : Word) : State :=
  match s.slotAt a with
  | some sl => s.setSlot sl v
  | none => s.setMem (s.mem.writeWord a v)

/-- Issue a provider operation (R130). -/
def State.issue (s : State) (op : ProviderOp) : State := { s with trace := s.trace ++ [op] }

/-- One recorded entry of an honest log (45_step_controller.md R224). -/
def State.record (s : State) (e : Access) : State :=
  { s with log := s.log ++ [e], cursor := s.cursor + 1 }

/-- One entry consumed (R120). -/
def State.consumed (s : State) : State := { s with cursor := s.cursor + 1 }

/-! ### The AccessLog Verifier (40_verifier_facade.md R120 to R122) -/

/-- `consumeRead(pos)` (R121). `answer` is what the provider returned: it is the value of an honest log's
entry (R224) and is discarded when a claimed log is verified (R129). -/
def consumeRead (pos answer : Word) (s : State) : Result Word :=
  match s.caller with
  | .honest => .ok answer (s.record ⟨pos, answer, .read⟩)
  | .claims _ =>
    match s.log[s.cursor]? with
    | none => .raised (.accessExhausted s.cursor (.read pos)) s
    | some e =>
      if e.kind ≠ .read then .raised (.accessKindMismatch s.cursor (.read pos) e) s
      else if e.position ≠ pos then .raised (.accessAddressMismatch s.cursor (.read pos) e) s
      else .ok e.value s.consumed

/-- `consumeWrite(pos, v)` (R122). -/
def consumeWrite (pos v : Word) (s : State) : Result Unit :=
  match s.caller with
  | .honest => .ok () (s.record ⟨pos, v, .write⟩)
  | .claims _ =>
    match s.log[s.cursor]? with
    | none => .raised (.accessExhausted s.cursor (.write pos v)) s
    | some e =>
      if e.kind ≠ .write then .raised (.accessKindMismatch s.cursor (.write pos v) e) s
      else if e.position ≠ pos then .raised (.accessAddressMismatch s.cursor (.write pos v) e) s
      else if e.value ≠ v then .raised (.writeValueMismatch s.cursor (.write pos v) e) s
      else .ok () s.consumed

/-! ### The State Facade: provider first, then the verifier (40_verifier_facade.md R123 to R128) -/

def readCycle (s : State) : Result Word :=
  consumeRead s.cfg.posCycle s.cycle (s.issue .readCycle)

def writeCycle (v : Word) (s : State) : Result Unit :=
  consumeWrite s.cfg.posCycle v ((s.issue (.writeCycle v)).setCycle v)

/-- True exactly when the word is not zero (R124, R29). -/
def readHalt (s : State) : Result Bool :=
  (consumeRead s.cfg.posHalt s.halt (s.issue .readHaltFlag)).andThen fun w s => .ok (w != 0#64) s

def readPc (s : State) : Result Word :=
  consumeRead s.cfg.posPc s.pc (s.issue .readPc)

def writePc (v : Word) (s : State) : Result Unit :=
  consumeWrite s.cfg.posPc v ((s.issue (.writePc v)).setPc v)

/-- The value a register read uses, given the log entry's: that value, except that policy `zero` makes
register 0 read as 0 (R126, D10; log entry 3). -/
def regReadValue (c : Config) (i : RegIdx) (v : Word) : Word :=
  if i = 0 ∧ c.x0Read = .zero then 0#64 else v

/-- `ReadX(i)`, register 0 included (R126). -/
def readX (i : RegIdx) (s : State) : Result Word :=
  (consumeRead s.cfg.posX[i] s.regs[i] (s.issue (.readRegister i))).andThen fun v s =>
    .ok (regReadValue s.cfg i v) s

/-- `WriteX(i, v)`: for register 0 nothing is issued and nothing consumed (R127). -/
def writeX (i : RegIdx) (v : Word) (s : State) : Result Unit :=
  if i = 0 then .ok () s
  else consumeWrite s.cfg.posX[i] v ((s.issue (.writeRegister i v)).setReg i v)

/-- `ReadWord(a)` (R128). -/
def readWord (a : Word) (s : State) : Result Word :=
  consumeRead a (s.storeWord a) (s.issue (.readWord a))

/-- `WriteWord(a, v)` (R128). -/
def writeWord (a v : Word) (s : State) : Result Unit :=
  consumeWrite a v ((s.issue (.writeWord a v)).setStoreWord a v)

/-! ### MemRead and MemWrite (20_memory.md R55, R58) -/

def memRead (addr : Word) (n : Width) (s : State) : Result Word :=
  if n.aligned addr then
    (readWord (alignDown addr) s).andThen fun w s => .ok (n.extract addr w) s
  else .raised (.misalignedAccess n.bits addr) s

/-- R58; reached by no instruction (R57). -/
def memWrite (addr : Word) (n : Width) (v : Word) (s : State) : Result Unit :=
  if h : n.aligned addr = true then
    if n = .double then writeWord addr v s
    else
      (readWord (alignDown addr) s).andThen fun w s =>
        writeWord (alignDown addr) (packBits v n.bits w (laneShift addr) (lane_fits n addr h)) s
  else .raised (.misalignedAccess n.bits addr) s

/-! ### Ends of an executor (45_step_controller.md R219, R220) -/

def advancePc (s : State) : Result Unit := writePc (nextPc s.stepPc) s

def branchTo (t : Word) (s : State) : Result Unit := writePc t s

/-- An executor's outcome: the state it leaves, with the error on the result port if it raised one. -/
def Result.settle (r : Result Unit) : Host.Outcome State Fault Refusal :=
  match r with
  | .ok _ s => .next s
  | .raised e s => .next (s.raise e)

end Sys2Proof.Machine
end

