-- ==== Sys2Proof/Machine/Controller.lean ====
section
/-!
DEFINITION. The parts of the Step Controller around the executor (45_step_controller.md R210 to R214, R221):
what happens before an instruction is dispatched and after its executor returned.
-/

namespace Sys2Proof.Machine

/-- What the Step has decided after its first accesses (R216): a no-op end with its result, or to run the
fetched word in the cycle it read. -/
inductive Front where
  | idle (cycle : Word) (halted : Bool)
  | run (cycle : Word) (bits : InstrWord)
deriving DecidableEq, Repr

/-- The sentinel `2^64 − 1` (R28, R212). -/
abbrev saturatedCycle : Word := 0xFFFFFFFFFFFFFFFF#64

/-- Accesses 2 and 3: the pc, then the word at it (R213, R214). -/
def fetch (s : State) : Result InstrWord :=
  (readPc s).andThen fun pc s =>
    (memRead pc .word (s.setStepPc pc)).andThen fun w s => .ok (w.setWidth 32) s

/-- Accesses 0 and 1, the decision, and for a Running Step accesses 2 and 3 (R211 to R214). Both control
cells are read before either is examined, and the halt test comes first. -/
def front (s : State) : Result Front :=
  (readCycle s).andThen fun cycle s =>
    (readHalt s).andThen fun halted s =>
      if halted then .ok (.idle cycle true) s
      else if cycle = saturatedCycle then .ok (.idle cycle false) s
      else (fetch s).andThen fun bits s => .ok (.run cycle bits) s

/-- After the executor returned: write the incremented cycle, then end the Step (R221, R222). -/
def retire (cycle : Word) (s : State) : State :=
  match writeCycle (cycle + 1#64) s with
  | .ok _ s => s.conclude (cycle + 1#64) false
  | .raised e s => s.raise e

/-- The rest of a Running Step: nothing more once the executor raised (R241), else `retire`. -/
def afterExec (cycle : Word) (o : Host.Outcome State Fault Refusal) : Host.Outcome State Fault Refusal :=
  match o with
  | .next s => .next (if s.result.isNone then retire cycle s else s)
  | .fault r => .fault r
  | .refused r => .refused r

/-- The bytes of an instruction word placed at an address, the lowest first (30_encoding.md R80;
70_reset_and_hazards.md R272 item 3). -/
def Memory.placeInstr (m : Memory) (a : Word) (bits : InstrWord) : Memory :=
  m.writeBytes a (bits.setWidth 64) 4

end Sys2Proof.Machine
end

