-- ==== Sys2Proof/Machine/Branches.lean ====
section
/-!
DEFINITION. The conditional branches (43_branches.md): the common shape of R176 and the six conditions of R177.
-/

namespace Sys2Proof.Machine

/-- `BRANCH(cond)` (R176): both registers are read, rs1 first, whatever the outcome. -/
def branchIf (cond : Word → Word → Bool) (rs1 rs2 : RegIdx) (imm : Word) (s : State) : Result Unit :=
  (readX rs1 s).andThen fun a s =>
    (readX rs2 s).andThen fun b s =>
      if cond a b then branchTo (pcRel s.stepPc imm) s else advancePc s

/-- R170. -/
def execBeq (rs1 rs2 : RegIdx) (imm : Word) (s : State) : Host.Outcome State Fault Refusal :=
  (branchIf condEq rs1 rs2 imm s).settle

/-- R171. -/
def execBne (rs1 rs2 : RegIdx) (imm : Word) (s : State) : Host.Outcome State Fault Refusal :=
  (branchIf condNe rs1 rs2 imm s).settle

/-- R172. -/
def execBlt (rs1 rs2 : RegIdx) (imm : Word) (s : State) : Host.Outcome State Fault Refusal :=
  (branchIf condLt rs1 rs2 imm s).settle

/-- R173. -/
def execBge (rs1 rs2 : RegIdx) (imm : Word) (s : State) : Host.Outcome State Fault Refusal :=
  (branchIf condGe rs1 rs2 imm s).settle

/-- R174. -/
def execBltu (rs1 rs2 : RegIdx) (imm : Word) (s : State) : Host.Outcome State Fault Refusal :=
  (branchIf condLtu rs1 rs2 imm s).settle

/-- R175. -/
def execBgeu (rs1 rs2 : RegIdx) (imm : Word) (s : State) : Host.Outcome State Fault Refusal :=
  (branchIf condGeu rs1 rs2 imm s).settle

end Sys2Proof.Machine
end

