-- ==== Sys2Proof/Machine/Jumps.lean ====
section
/-!
DEFINITION. The unconditional jumps (42_jumps.md).
-/

namespace Sys2Proof.Machine

/-- R160. -/
def execJal (rd : RegIdx) (imm : Word) (s : State) : Host.Outcome State Fault Refusal :=
  ((writeX rd (nextPc s.stepPc) s).andThen fun _ s => branchTo (pcRel s.stepPc imm) s).settle

/-- R161: the register is read before the link is written, so `rd = rs1` jumps by the old value. -/
def execJalr (rd rs1 : RegIdx) (imm : Word) (s : State) : Host.Outcome State Fault Refusal :=
  ((readX rs1 s).andThen fun t s =>
    (writeX rd (nextPc s.stepPc) s).andThen fun _ s => branchTo (jalrTarget t imm) s).settle

end Sys2Proof.Machine
end

