-- ==== Sys2Proof/Machine/Loads.lean ====
section
/-!
DEFINITION. The loads (44_loads.md): the common shape of R195 and the five widths and extensions of R196.
-/

namespace Sys2Proof.Machine

/-- `LOAD(n, ext)` (R195): with `rd = 0` only the register write is absent. -/
def load (n : Width) (ext : Width → Word → Word) (rd rs1 : RegIdx) (imm : Word) (s : State) : Result Unit :=
  (readX rs1 s).andThen fun a s =>
    (memRead (effAddr a imm) n s).andThen fun v s =>
      (writeX rd (ext n v) s).andThen fun _ s => advancePc s

/-- R190. -/
def execLb (rd rs1 : RegIdx) (imm : Word) (s : State) : Host.Outcome State Fault Refusal :=
  (load .byte extSigned rd rs1 imm s).settle

/-- R191. -/
def execLh (rd rs1 : RegIdx) (imm : Word) (s : State) : Host.Outcome State Fault Refusal :=
  (load .half extSigned rd rs1 imm s).settle

/-- R192. -/
def execLw (rd rs1 : RegIdx) (imm : Word) (s : State) : Host.Outcome State Fault Refusal :=
  (load .word extSigned rd rs1 imm s).settle

/-- R193. -/
def execLbu (rd rs1 : RegIdx) (imm : Word) (s : State) : Host.Outcome State Fault Refusal :=
  (load .byte extUnsigned rd rs1 imm s).settle

/-- R194. -/
def execLhu (rd rs1 : RegIdx) (imm : Word) (s : State) : Host.Outcome State Fault Refusal :=
  (load .half extUnsigned rd rs1 imm s).settle

end Sys2Proof.Machine
end

