-- ==== Sys2Proof/Machine/Upper.lean ====
section
/-!
DEFINITION. The upper-immediate instructions (41_upper_immediate.md).
-/

namespace Sys2Proof.Machine

/-- R150. -/
def execLui (rd : RegIdx) (imm : Word) (s : State) : Host.Outcome State Fault Refusal :=
  ((writeX rd imm s).andThen fun _ s => advancePc s).settle

/-- R151. -/
def execAuipc (rd : RegIdx) (imm : Word) (s : State) : Host.Outcome State Fault Refusal :=
  ((writeX rd (pcRel s.stepPc imm) s).andThen fun _ s => advancePc s).settle

end Sys2Proof.Machine
end

