-- ==== Sys2Proof/Machine/Step.lean ====
section
/-!
DEFINITION. One Step (45_step_controller.md R210), and the placing of an instruction for the next one.
-/

namespace Sys2Proof.Machine

/-- One requested Step, from request to result (R210). An error of 60_exceptions.md ends it with the
report on the result port, as a next state (log entry 7). -/
def step (s : State) : Host.Outcome State Fault Refusal :=
  match s.beginStep with
  | none => .fault .noRequest
  | some s =>
    match front s with
    | .raised e s => .next (s.raise e)
    | .ok (.idle cycle halted) s => .next (s.conclude cycle halted)
    | .ok (.run cycle bits) s =>
      match decode bits with
      | .error _ => .next (s.raise (.unsupportedInstruction bits s.stepPc))
      | .ok i => afterExec cycle (exec i s)

/-- `s` with the instruction placed where the next Step fetches, and all that a Running Step takes
(70_reset_and_hazards.md R272 items 3 to 5): a 4-byte-aligned pc, the halt flag clear, the cycle below
the sentinel, an honest caller, and no slot answering for the fetched word. Log entry 9. -/
def State.withFetchWord (s : State) (nbits w : Nat) : State :=
  let pc := s.pc &&& ~~~3#64
  { s with
    pc := pc
    halt := 0#64
    cycle := if s.cycle = saturatedCycle then 0#64 else s.cycle
    caller := .honest
    cfg := { s.cfg with mapped := [] }
    mem := s.mem.placeInstr pc (BitVec.ofNat 32 (w % 2 ^ nbits)) }

end Sys2Proof.Machine
end

