-- ==== Sys2Proof/Safety.lean ====
section
/-!
DEFINITION. The terms claims about the machine use: what a Step may rely on, what a run keeps, and the touches
(45_step_controller.md R223) an executor makes.
-/

namespace Sys2Proof.Machine

/-! ### Boot obligations and the invariant -/

/-- Register 0 of the backing store holds 0 (10_state.md R22, R37; 70_reset_and_hazards.md R272 item 2). -/
def State.zeroReg (s : State) : Bool := s.regs[(0 : RegIdx)] == 0#64

/-- What the environment owes before the rules describe a running program (R272 items 1 to 4). -/
def State.booted (s : State) : Bool :=
  decide s.cfg.distinct && s.zeroReg && Width.word.aligned s.pc && s.halt == 0#64
    && s.cycle != saturatedCycle

/-- A provider operation the block never issues: a write of register 0 (40_verifier_facade.md R127) or of
a memory word (20_memory.md R57). -/
def ProviderOp.neverIssued : ProviderOp → Bool
  | .writeRegister i _ => i == 0
  | .writeWord _ _ => true
  | _ => false

/-- The general register an operation reads. -/
def ProviderOp.readsRegister : ProviderOp → Option RegIdx
  | .readRegister i => some i
  | _ => none

/-- The general register an operation writes. -/
def ProviderOp.writesRegister : ProviderOp → Option RegIdx
  | .writeRegister i _ => some i
  | _ => none

/-- What every Step keeps: distinct slot positions (R33), canonical memory, register 0 zero (R22), the
cursor inside the log (R35) and at its end while an honest log is recorded (R224), one provider
operation for each consumed entry and at most the one of a failed access more (R130), and none that
the block never issues. -/
structure State.Inv (s : State) : Prop where
  distinct : s.cfg.distinct
  memory : s.mem.wf = true
  zero : s.zeroReg = true
  cursor_le : s.cursor ≤ s.log.length
  honest_end : s.caller = .honest → s.cursor = s.log.length
  trace_ge : s.cursor ≤ s.trace.length
  trace_le : s.trace.length ≤ s.cursor + 1
  ops : ∀ op ∈ s.trace, op.neverIssued = false

/-- A Step that ended well. -/
def State.succeeded (s : State) : Bool :=
  match s.result with
  | some (.ok _ _) => true
  | _ => false

/-! ### Errors (60_exceptions.md R240, R243) -/

/-- The log index of an error of the verifier, E1 to E4; the other kinds have none. -/
def StepError.index : StepError → Option Nat
  | .accessExhausted i _ => some i
  | .accessKindMismatch i _ _ => some i
  | .accessAddressMismatch i _ _ => some i
  | .writeValueMismatch i _ _ => some i
  | .misalignedAccess _ _ => none
  | .endOfLogInvariantViolation _ _ => none
  | .unsupportedInstruction _ _ => none

/-- What an error says (R244): a trace that diverges, a log of the wrong length, or the state stepped. -/
inductive ErrorClass where
  | divergence
  | integration
  | state
deriving DecidableEq, Repr

def StepError.errorClass : StepError → ErrorClass
  | .accessExhausted _ _ => .divergence
  | .accessKindMismatch _ _ _ => .divergence
  | .accessAddressMismatch _ _ _ => .divergence
  | .writeValueMismatch _ _ _ => .divergence
  | .misalignedAccess _ _ => .state
  | .endOfLogInvariantViolation _ _ => .integration
  | .unsupportedInstruction _ _ => .state

/-! ### Touches -/

/-- One state touch: the provider operation and the log entry it is checked against or recorded as. -/
structure Touch where
  op : ProviderOp
  entry : Access
deriving DecidableEq, Repr

def touchReadCycle (c : Config) (v : Word) : Touch := ⟨.readCycle, c.posCycle, v, .read⟩
def touchReadHalt (c : Config) (v : Word) : Touch := ⟨.readHaltFlag, c.posHalt, v, .read⟩
def touchReadPc (c : Config) (v : Word) : Touch := ⟨.readPc, c.posPc, v, .read⟩
def touchReadX (c : Config) (i : RegIdx) (v : Word) : Touch := ⟨.readRegister i, c.posX[i], v, .read⟩
def touchReadWord (a v : Word) : Touch := ⟨.readWord a, a, v, .read⟩
def touchWriteCycle (c : Config) (v : Word) : Touch := ⟨.writeCycle v, c.posCycle, v, .write⟩
def touchWritePc (c : Config) (v : Word) : Touch := ⟨.writePc v, c.posPc, v, .write⟩
def touchWriteWord (a v : Word) : Touch := ⟨.writeWord a v, a, v, .write⟩

/-- The write of x[i]: no touch at all for register 0 (R127). -/
def touchWriteX (c : Config) (i : RegIdx) (v : Word) : List Touch :=
  if i = 0 then [] else [⟨.writeRegister i v, c.posX[i], v, .write⟩]

/-- What the provider returns for a read operation. -/
def State.answer (s : State) : ProviderOp → Option Word
  | .readCycle => some s.cycle
  | .readHaltFlag => some s.halt
  | .readPc => some s.pc
  | .readWord a => some (s.storeWord a)
  | .readRegister i => some s.regs[i]
  | _ => none

/-- The log side lets these touches through, in this order: a claimed log holds exactly their entries from
the cursor on; under an honest caller the read entries are the provider's answers. -/
def State.admits (s : State) (ts : List Touch) : Bool :=
  match s.caller with
  | .honest => ts.all fun t => match s.answer t.op with
    | some v => t.entry.value == v
    | none => true
  | .claims _ => (ts.map Touch.entry).isPrefixOf (s.log.drop s.cursor)

/-- The log, cursor and operation trace after these touches; the store is as before. -/
def State.touched (s : State) (ts : List Touch) : State :=
  { s with
    log := if s.caller = .honest then s.log ++ ts.map Touch.entry else s.log
    cursor := s.cursor + ts.length
    trace := s.trace ++ ts.map Touch.op }

/-- The log refuses a write of `v` at `pos` with the error `e`: no entry is left, or the one at the cursor
differs in kind, position or value, looked at in this order (40_verifier_facade.md R122). -/
def State.rejectsWrite (s : State) (pos v : Word) (e : StepError) : Prop :=
  (s.cursor = s.log.length ∧ e = .accessExhausted s.cursor (.write pos v)) ∨
  ∃ a, s.log[s.cursor]? = some a ∧
    ((a.kind ≠ .write ∧ e = .accessKindMismatch s.cursor (.write pos v) a) ∨
     (a.kind = .write ∧ a.position ≠ pos ∧ e = .accessAddressMismatch s.cursor (.write pos v) a) ∨
     (a.kind = .write ∧ a.position = pos ∧ a.value ≠ v ∧
        e = .writeValueMismatch s.cursor (.write pos v) a))

/-- The store after a write of x[i]: unchanged for register 0 (10_state.md R22). -/
def State.writeReg (s : State) (i : RegIdx) (v : Word) : State := if i = 0 then s else s.setReg i v

end Sys2Proof.Machine

namespace Sys2Proof

/-! ### What an instruction names (10_state.md R23, 45_step_controller.md R223) -/

/-- The registers an instruction reads, in order. -/
def Instr.sources : Instr → List RegIdx
  | .lui _ _ | .auipc _ _ | .jal _ _ => []
  | .jalr _ rs1 _ => [rs1]
  | .beq rs1 rs2 _ | .bne rs1 rs2 _ | .blt rs1 rs2 _ | .bge rs1 rs2 _ | .bltu rs1 rs2 _
  | .bgeu rs1 rs2 _ => [rs1, rs2]
  | .lb _ rs1 _ | .lh _ rs1 _ | .lw _ rs1 _ | .lbu _ rs1 _ | .lhu _ rs1 _ => [rs1]

/-- The register an instruction names as its destination. -/
def Instr.dest : Instr → Option RegIdx
  | .lui rd _ | .auipc rd _ | .jal rd _ | .jalr rd _ _ => some rd
  | .beq _ _ _ | .bne _ _ _ | .blt _ _ _ | .bge _ _ _ | .bltu _ _ _ | .bgeu _ _ _ => none
  | .lb rd _ _ | .lh rd _ _ | .lw rd _ _ | .lbu rd _ _ | .lhu rd _ _ => some rd

/-- The registers an instruction that raises nothing writes: its destination, register 0 suppressed. -/
def Instr.written (i : Instr) : List RegIdx :=
  match i.dest with
  | some rd => if rd = 0 then [] else [rd]
  | none => []

/-- The width, base register and displacement of a load. -/
def Instr.loadForm : Instr → Option (Machine.Width × RegIdx × Word)
  | .lui _ _ | .auipc _ _ | .jal _ _ | .jalr _ _ _ => none
  | .beq _ _ _ | .bne _ _ _ | .blt _ _ _ | .bge _ _ _ | .bltu _ _ _ | .bgeu _ _ _ => none
  | .lb _ rs1 imm | .lbu _ rs1 imm => some (.byte, rs1, imm)
  | .lh _ rs1 imm | .lhu _ rs1 imm => some (.half, rs1, imm)
  | .lw _ rs1 imm => some (.word, rs1, imm)

end Sys2Proof

namespace Sys2Proof.Machine

/-- Kind and position of the entries an executor consumes when it succeeds, a row of R223's table without
the Step Controller's own entries. `a` is the value of the first register entry. -/
def executorShape (c : Config) (i : Instr) (a : Word) : List (AccessKind × Word) :=
  i.sources.map (fun r => (.read, c.posX[r]))
    ++ (match i.loadForm with
        | some (_, rs1, imm) => [(.read, alignDown (effAddr (regReadValue c rs1 a) imm))]
        | none => [])
    ++ i.written.map (fun rd => (.write, c.posX[rd]))
    ++ [(.write, c.posPc)]

/-! ### What the rules say of groups of instructions -/

/-- An executor reports no error but the verifier's E1 to E4 (60_exceptions.md R243). -/
def OnlyVerifierErrors (i : Instr) : Prop :=
  ∀ s t, exec i s = .next t →
    t.result = s.result ∨ ∃ e, t.result = some (.error e) ∧ e.index ≠ none

/-- The rule of a branch whose condition is `taken` (43_branches.md R176): two register entries with values
`a` and `b`, then the pc, written with the target or with `pc + 4`. -/
def BranchesWhen (mk : RegIdx → RegIdx → Word → Instr) (taken : Word → Word → Prop) : Prop :=
  ∀ (rs1 rs2 : RegIdx) (imm a b target : Word) (s : State),
    (taken (regReadValue s.cfg rs1 a) (regReadValue s.cfg rs2 b) → target = s.stepPc + imm) →
    (¬ taken (regReadValue s.cfg rs1 a) (regReadValue s.cfg rs2 b) → target = s.stepPc + 4#64) →
    s.admits [touchReadX s.cfg rs1 a, touchReadX s.cfg rs2 b, touchWritePc s.cfg target] = true →
    exec (mk rs1 rs2 imm) s = .next
      ((s.touched [touchReadX s.cfg rs1 a, touchReadX s.cfg rs2 b, touchWritePc s.cfg target]).setPc
        target)

/-- The `8n`-bit number a load takes from the containing word (20_memory.md R55). -/
def loadedNat (n : Width) (addr w : Word) : Nat :=
  w.toNat / 2 ^ (8 * (addr.toNat % 8)) % 2 ^ (8 * n.bytes)

/-- The word a load writes: that number, read as signed or as unsigned (44_loads.md R196). -/
def loadedWord (n : Width) (signed : Bool) (addr w : Word) : Word :=
  if signed = true ∧ 2 ^ (8 * n.bytes - 1) ≤ loadedNat n addr w then
    BitVec.ofInt 64 ((loadedNat n addr w : Int) - 2 ^ (8 * n.bytes))
  else BitVec.ofNat 64 (loadedNat n addr w)

/-- The rule of a load (44_loads.md R195) whose address is a multiple of its width: the base register's
entry has value `a`, the memory word's has value `w`. -/
def LoadsAs (mk : RegIdx → RegIdx → Word → Instr) (n : Width) (signed : Bool) : Prop :=
  ∀ (rd rs1 : RegIdx) (imm a w addr : Word) (ts : List Touch) (s : State),
    addr = regReadValue s.cfg rs1 a + imm → addr.toNat % n.bytes = 0 →
    ts = [touchReadX s.cfg rs1 a, touchReadWord (alignDown addr) w]
      ++ touchWriteX s.cfg rd (loadedWord n signed addr w) ++ [touchWritePc s.cfg (s.stepPc + 4#64)] →
    s.admits ts = true →
    exec (mk rd rs1 imm) s = .next
      (((s.touched ts).writeReg rd (loadedWord n signed addr w)).setPc (s.stepPc + 4#64))

/-- A load at an address that is no multiple of its width (R195): only the base register's entry is
consumed, E5 is the result, and the rest of the Step does nothing more. -/
def MisalignedLoadRaises (mk : RegIdx → RegIdx → Word → Instr) (n : Width) : Prop :=
  ∀ (rd rs1 : RegIdx) (imm a addr c : Word) (s t : State),
    addr = regReadValue s.cfg rs1 a + imm → addr.toNat % n.bytes ≠ 0 →
    s.admits [touchReadX s.cfg rs1 a] = true →
    t = (s.touched [touchReadX s.cfg rs1 a]).raise (.misalignedAccess (8 * n.bytes) addr) →
    exec (mk rd rs1 imm) s = .next t ∧ afterExec c (.next t) = .next t

/-- A load reports the verifier's E1 to E4 or, at an address that is no multiple of its width, E5, and
nothing else (R195). -/
def LoadErrors (mk : RegIdx → RegIdx → Word → Instr) (n : Width) : Prop :=
  ∀ (rd rs1 : RegIdx) (imm : Word) (s t : State), exec (mk rd rs1 imm) s = .next t →
    t.result = s.result ∨ ∃ e, t.result = some (.error e) ∧
      (e.index ≠ none ∨ ∃ addr : Word, addr.toNat % n.bytes ≠ 0 ∧ e = .misalignedAccess (8 * n.bytes) addr)

/-- An executor whose accesses `ts` were let through and whose write of `v` to x[rd] the log refuses: the
register holds `v`, the error is the result, and nothing after it happened (60_exceptions.md R241,
R259). -/
def RejectedAfter (i : Instr) (ts : List Touch) (rd : RegIdx) (v : Word) (s : State) : Prop :=
  ∀ (q : List AccessLog) (e : StepError), s.caller = .claims q → rd ≠ 0 → s.admits ts = true →
    (s.touched ts).rejectsWrite s.cfg.posX[rd] v e →
    exec i s = .next ((((s.touched ts).issue (.writeRegister rd v)).setReg rd v).raise e)

/-- `RejectedAfter` for a load at an address that is a multiple of its width. -/
def RejectedLoad (mk : RegIdx → RegIdx → Word → Instr) (n : Width) (signed : Bool) : Prop :=
  ∀ (rd rs1 : RegIdx) (imm a w addr : Word) (s : State),
    addr = regReadValue s.cfg rs1 a + imm → addr.toNat % n.bytes = 0 →
    RejectedAfter (mk rd rs1 imm) [touchReadX s.cfg rs1 a, touchReadWord (alignDown addr) w] rd
      (loadedWord n signed addr w) s

/-- A Step that finds a pc that is no multiple of 4 ends with E5 after three accesses, nothing written
(10_state.md R26, 45_step_controller.md R214). -/
def MisalignedPcEndsTheStep : Prop :=
  ∀ (s s0 : State) (c p : Word) (ts : List Touch),
    s.beginStep = some s0 → c ≠ 0xFFFFFFFFFFFFFFFF#64 → p.toNat % 4 ≠ 0 →
    ts = [touchReadCycle s0.cfg c, touchReadHalt s0.cfg 0#64, touchReadPc s0.cfg p] →
    s0.admits ts = true →
    step s = .next (((s0.touched ts).setStepPc p).raise (.misalignedAccess 32 p))

/-- The instruction word at `p`, taken from the aligned word `w` that holds it
(45_step_controller.md R214): its low half when `p[2] = 0`, its high half when `p[2] = 1`. -/
def instrWordAt (p w : Word) : InstrWord :=
  if p.getLsbD 2 then w.extractLsb' 32 32 else w.extractLsb' 0 32

/-- What executing `i` leaves alone whatever its outcome: every register but the one it names, register 0,
the cycle and the halt flag, every byte of memory, the parameters, the caller, the Step's own pc. -/
def Keeps (i : Instr) (s t : State) : Prop :=
  (∀ r : RegIdx, some r ≠ i.dest → t.regs[r] = s.regs[r]) ∧
  t.regs[(0 : RegIdx)] = s.regs[(0 : RegIdx)] ∧
  t.cycle = s.cycle ∧ t.halt = s.halt ∧
  (∀ a, t.mem.readByte a = s.mem.readByte a) ∧
  t.cfg = s.cfg ∧ t.caller = s.caller ∧ t.stepPc = s.stepPc

end Sys2Proof.Machine
end

