-- ==== Sys2Proof/Certificates/Slice0/Obligations.lean ====
section
/-!
DEFINITION. The statements about the model, from the numbered rules of spec/. OBLIGATIONS.json gives each its
title, tier, and the rule it formalises.
-/

open Sys2Proof Sys2Proof.Machine

/-! ### Encoding -/

/-- R99, R92: no bit of an operand is dropped by the encoders. -/
def Obligations.DecodeUndoesEncode : Prop :=
  ∀ i : Instr, i.wellFormed = true → decode (encode i) = .ok i

/-- R92: no admitted instruction has an ignored bit, so the word is the encoding of what it decodes to. -/
def Obligations.EncodeUndoesDecode : Prop :=
  ∀ (bits : InstrWord) (i : Instr), decode bits = .ok i → i.wellFormed = true ∧ encode i = bits

/-- R93 by R92's masks: each row's words, and the words of no row (R94). -/
def Obligations.DecodeFollowsMaskAndMatch : Prop :=
  ∀ bits : InstrWord,
    (bits &&& 0x0000007F = 0x00000037 → decode bits = .ok (.lui (rdOf bits) (immU bits))) ∧
    (bits &&& 0x0000007F = 0x00000017 → decode bits = .ok (.auipc (rdOf bits) (immU bits))) ∧
    (bits &&& 0x0000007F = 0x0000006F → decode bits = .ok (.jal (rdOf bits) (immJ bits))) ∧
    (bits &&& 0x0000707F = 0x00000067 →
      decode bits = .ok (.jalr (rdOf bits) (rs1Of bits) (immI bits))) ∧
    (bits &&& 0x0000707F = 0x00000063 →
      decode bits = .ok (.beq (rs1Of bits) (rs2Of bits) (immB bits))) ∧
    (bits &&& 0x0000707F = 0x00001063 →
      decode bits = .ok (.bne (rs1Of bits) (rs2Of bits) (immB bits))) ∧
    (bits &&& 0x0000707F = 0x00004063 →
      decode bits = .ok (.blt (rs1Of bits) (rs2Of bits) (immB bits))) ∧
    (bits &&& 0x0000707F = 0x00005063 →
      decode bits = .ok (.bge (rs1Of bits) (rs2Of bits) (immB bits))) ∧
    (bits &&& 0x0000707F = 0x00006063 →
      decode bits = .ok (.bltu (rs1Of bits) (rs2Of bits) (immB bits))) ∧
    (bits &&& 0x0000707F = 0x00007063 →
      decode bits = .ok (.bgeu (rs1Of bits) (rs2Of bits) (immB bits))) ∧
    (bits &&& 0x0000707F = 0x00000003 →
      decode bits = .ok (.lb (rdOf bits) (rs1Of bits) (immI bits))) ∧
    (bits &&& 0x0000707F = 0x00001003 →
      decode bits = .ok (.lh (rdOf bits) (rs1Of bits) (immI bits))) ∧
    (bits &&& 0x0000707F = 0x00002003 →
      decode bits = .ok (.lw (rdOf bits) (rs1Of bits) (immI bits))) ∧
    (bits &&& 0x0000707F = 0x00004003 →
      decode bits = .ok (.lbu (rdOf bits) (rs1Of bits) (immI bits))) ∧
    (bits &&& 0x0000707F = 0x00005003 →
      decode bits = .ok (.lhu (rdOf bits) (rs1Of bits) (immI bits))) ∧
    ((∀ r ∈ opcodeTable, r.fits bits = false) → decode bits = .error .unsupported) ∧
    opcodeTable.Pairwise (fun r r' => ¬ (r.fits bits = true ∧ r'.fits bits = true))

/-- R83 to R86, R88 to R90: each immediate as the integer its instruction bits spell, with its range, and
the two shift amounts. -/
def Obligations.ImmediatesAreTheSpelledIntegers : Prop :=
  ∀ bits : InstrWord,
    (immI bits).toInt
      = (bits.extractLsb' 20 12).toNat - 4096 * ((bits.extractLsb' 31 1).toNat : Int) ∧
    wfImmI (immI bits) = true ∧
    (immU bits).toInt
      = 4096 * ((bits.extractLsb' 12 20).toNat : Int)
        - 4294967296 * ((bits.extractLsb' 31 1).toNat : Int) ∧
    wfImmU (immU bits) = true ∧
    (immJ bits).toInt
      = 2 * ((bits.extractLsb' 21 10).toNat : Int) + 2048 * ((bits.extractLsb' 20 1).toNat : Int)
        + 4096 * ((bits.extractLsb' 12 8).toNat : Int)
        - 1048576 * ((bits.extractLsb' 31 1).toNat : Int) ∧
    wfImmJ (immJ bits) = true ∧
    (immB bits).toInt
      = 2 * ((bits.extractLsb' 8 4).toNat : Int) + 32 * ((bits.extractLsb' 25 6).toNat : Int)
        + 2048 * ((bits.extractLsb' 7 1).toNat : Int)
        - 4096 * ((bits.extractLsb' 31 1).toNat : Int) ∧
    wfImmB (immB bits) = true ∧
    (immS bits).toInt
      = (bits.extractLsb' 7 5).toNat + 32 * ((bits.extractLsb' 25 7).toNat : Int)
        - 4096 * ((bits.extractLsb' 31 1).toNat : Int) ∧
    wfImmI (immS bits) = true ∧
    (shamt5 bits).toNat = bits.toNat / 2 ^ 20 % 32 ∧
    (shamt6 bits).toNat = bits.toNat / 2 ^ 20 % 64

/-- Words written out from the encodings of R82 and R92 (95_test_vectors.md section 2), one or two of each
format, and words of no row. -/
def Obligations.SampleWordsDecode : Prop :=
  decode 0x123452B7 = .ok (.lui 5 0x12345000) ∧
  decode 0xFFFFF317 = .ok (.auipc 6 0xFFFFFFFFFFFFF000) ∧
  decode 0xFFDFF0EF = .ok (.jal 1 0xFFFFFFFFFFFFFFFC) ∧
  decode 0xFFF080E7 = .ok (.jalr 1 1 0xFFFFFFFFFFFFFFFF) ∧
  decode 0xFE629EE3 = .ok (.bne 5 6 0xFFFFFFFFFFFFFFFC) ∧
  decode 0x0062C0E3 = .ok (.blt 5 6 0x800) ∧
  decode 0xFFF30383 = .ok (.lb 7 6 0xFFFFFFFFFFFFFFFF) ∧
  decode 0x00432383 = .ok (.lw 7 6 4) ∧
  decode 0x00000013 = .error .unsupported ∧
  decode 0x00003003 = .error .unsupported

/-! ### Pure word functions -/

/-- R11: the count is taken modulo the operand width. -/
def Obligations.ShiftCountsAreMasked : Prop :=
  (∀ (v : Word) (c : Nat), (shl64 v c).toNat = v.toNat * 2 ^ (c % 64) % 2 ^ 64) ∧
  (∀ (v : Word) (c : Nat), (shr64 v c).toNat = v.toNat / 2 ^ (c % 64)) ∧
  (∀ (v : BitVec 32) (c : Nat), (shl32 v c).toNat = v.toNat * 2 ^ (c % 32) % 2 ^ 32) ∧
  (∀ (v : BitVec 32) (c : Nat), (shr32 v c).toNat = v.toNat / 2 ^ (c % 32))

/-- R12: the field is the low bits of the value, every other bit is as before. -/
def Obligations.PackBitsReplacesExactlyTheField : Prop :=
  ∀ (value intoWord : Word) (bitWidth bitOffset : Nat) (h : bitOffset + bitWidth ≤ 64) (k : Nat),
    k < 64 →
    (packBits value bitWidth intoWord bitOffset h).getLsbD k
      = if bitOffset ≤ k ∧ k < bitOffset + bitWidth then value.getLsbD (k - bitOffset)
        else intoWord.getLsbD k

/-- R51, R53, R54: the alignment condition, the containing word and the lane. -/
def Obligations.LegalAccessLiesInOneWord : Prop :=
  ∀ (n : Width) (addr : Word),
    (n.aligned addr = true ↔ addr.toNat % n.bytes = 0) ∧
    (alignDown addr).toNat = addr.toNat / 8 * 8 ∧
    laneShift addr = 8 * (addr.toNat % 8) ∧
    (n.aligned addr = true → addr.toNat % 8 + n.bytes ≤ 8)

/-! ### Memory -/

/-- R131: a later read of a position returns the word last written there, and no other position changes. -/
def Obligations.StoreReturnsTheLastWrite : Prop :=
  ∀ (s : State) (a b v : Word),
    s.mem.wf = true → a.toNat % 8 = 0 → b.toNat % 8 = 0 →
    (s.setStoreWord a v).storeWord b = if b = a then v else s.storeWord b

/-- R55, R50: `MemRead`. A legal access consumes one read entry, of the containing word, and its value is
that word's bytes from the addressed one on, little-endian, zeros above; a misaligned one raises and
touches nothing. -/
def Obligations.MemReadTakesTheAddressedBytes : Prop :=
  ∀ (n : Width) (addr w : Word) (s : State),
    (addr.toNat % n.bytes = 0 → s.admits [touchReadWord (alignDown addr) w] = true →
      memRead addr n s
        = .ok (n.extract addr w) (s.touched [touchReadWord (alignDown addr) w])) ∧
    (addr.toNat % n.bytes = 0 → ∀ k < 8,
      byteOf (n.extract addr w) k
        = if k < n.bytes then byteOf w (addr.toNat % 8 + k) else 0#8) ∧
    (addr.toNat % n.bytes ≠ 0 →
      memRead addr n s = .raised (.misalignedAccess (8 * n.bytes) addr) s)

/-- R58: `MemWrite`. A legal store under 8 bytes reads the containing word and writes it whole with only the
targeted bytes replaced; an 8-byte store is one write; a misaligned one raises and touches nothing. -/
def Obligations.MemWriteSplicesIntoTheWord : Prop :=
  (∀ (n : Width) (addr v w w' : Word) (ts : List Touch) (s : State),
    n ≠ .double → addr.toNat % n.bytes = 0 →
    (∀ k < 8, byteOf w' k
      = if addr.toNat % 8 ≤ k ∧ k < addr.toNat % 8 + n.bytes then byteOf v (k - addr.toNat % 8)
        else byteOf w k) →
    ts = [touchReadWord (alignDown addr) w, touchWriteWord (alignDown addr) w'] →
    s.admits ts = true →
    memWrite addr n v s = .ok () ((s.touched ts).setStoreWord (alignDown addr) w')) ∧
  (∀ (addr v : Word) (s : State),
    addr.toNat % 8 = 0 → s.admits [touchWriteWord addr v] = true →
    memWrite addr .double v s
      = .ok () ((s.touched [touchWriteWord addr v]).setStoreWord addr v)) ∧
  (∀ (n : Width) (addr v : Word) (s : State),
    addr.toNat % n.bytes ≠ 0 →
    memWrite addr n v s = .raised (.misalignedAccess (8 * n.bytes) addr) s)

/-- R59: the round trip of a sub-word store against the store, and no other word changes. -/
def Obligations.SubWordStoreRoundTrip : Prop :=
  ∀ (n : Width) (addr v : Word) (s : State),
    n ≠ .double → s.caller = .honest → s.mem.wf = true → addr.toNat % n.bytes = 0 →
    ∃ t, memWrite addr n v s = .ok () t ∧
      (∀ k < 8, byteOf (t.storeWord (alignDown addr)) k
        = if addr.toNat % 8 ≤ k ∧ k < addr.toNat % 8 + n.bytes then byteOf v (k - addr.toNat % 8)
          else byteOf (s.storeWord (alignDown addr)) k) ∧
      (∀ b : Word, b.toNat % 8 = 0 → b ≠ alignDown addr → t.storeWord b = s.storeWord b)

/-! ### Verifier and facade -/

/-- R121: `consumeRead` against a claimed log: exhaustion, then kind, then position, then success. -/
def Obligations.ConsumeReadChecksInOrder : Prop :=
  ∀ (pos answer : Word) (q : List AccessLog) (s : State), s.caller = .claims q →
    (s.cursor = s.log.length →
      consumeRead pos answer s = .raised (.accessExhausted s.cursor (.read pos)) s) ∧
    (∀ e, s.log[s.cursor]? = some e →
      (e.kind ≠ .read →
        consumeRead pos answer s = .raised (.accessKindMismatch s.cursor (.read pos) e) s) ∧
      (e.kind = .read → e.position ≠ pos →
        consumeRead pos answer s = .raised (.accessAddressMismatch s.cursor (.read pos) e) s) ∧
      (e.kind = .read → e.position = pos →
        consumeRead pos answer s = .ok e.value s.consumed))

/-- R122: `consumeWrite` against a claimed log: as R121, and then the value. -/
def Obligations.ConsumeWriteChecksInOrder : Prop :=
  ∀ (pos v : Word) (q : List AccessLog) (s : State), s.caller = .claims q →
    (s.cursor = s.log.length →
      consumeWrite pos v s = .raised (.accessExhausted s.cursor (.write pos v)) s) ∧
    (∀ e, s.log[s.cursor]? = some e →
      (e.kind ≠ .write →
        consumeWrite pos v s = .raised (.accessKindMismatch s.cursor (.write pos v) e) s) ∧
      (e.kind = .write → e.position ≠ pos →
        consumeWrite pos v s = .raised (.accessAddressMismatch s.cursor (.write pos v) e) s) ∧
      (e.kind = .write → e.position = pos → e.value ≠ v →
        consumeWrite pos v s = .raised (.writeValueMismatch s.cursor (.write pos v) e) s) ∧
      (e.kind = .write → e.position = pos → e.value = v →
        consumeWrite pos v s = .ok () s.consumed))

/-- R126: a register read, register 0 included, uses the entry's value; under policy `zero` register 0 reads
as 0 and still consumes its entry. -/
def Obligations.RegisterReadUsesTheEntry : Prop :=
  ∀ (i : RegIdx) (v : Word) (s : State), s.admits [touchReadX s.cfg i v] = true →
    ((i ≠ 0 ∨ s.cfg.x0Read = .log) → readX i s = .ok v (s.touched [touchReadX s.cfg i v])) ∧
    (i = 0 → s.cfg.x0Read = .zero → readX i s = .ok 0#64 (s.touched [touchReadX s.cfg i v]))

/-- R127: a register write issues the provider operation and consumes its entry; for register 0 it does
nothing. -/
def Obligations.RegisterWriteIsSuppressedForZero : Prop :=
  (∀ (v : Word) (s : State), writeX 0 v s = .ok () s) ∧
  (∀ (i : RegIdx) (v : Word) (s : State), i ≠ 0 → s.admits (touchWriteX s.cfg i v) = true →
    writeX i v s
      = .ok () ((s.touched (touchWriteX s.cfg i v)).writeReg i v))

/-- R124: the halt flag is true exactly when the entry's word is not zero. -/
def Obligations.HaltFlagIsTrueWhenNotZero : Prop :=
  ∀ (h : Word) (s : State), s.admits [touchReadHalt s.cfg h] = true →
    readHalt s = .ok (decide (h ≠ 0#64)) (s.touched [touchReadHalt s.cfg h])

/-! ### The instructions -/

/-- R150. -/
def Obligations.LuiWritesTheImmediate : Prop :=
  (∀ bits : InstrWord, bits.extractLsb' 0 7 = 0x37#7 →
    decode bits = .ok (.lui (rdOf bits) (immU bits))) ∧
  (∀ (rd : RegIdx) (imm : Word), OnlyVerifierErrors (.lui rd imm)) ∧
  (∀ (rd : RegIdx) (imm : Word) (ts : List Touch) (s : State),
    ts = touchWriteX s.cfg rd imm ++ [touchWritePc s.cfg (s.stepPc + 4#64)] →
    s.admits ts = true →
    exec (.lui rd imm) s = .next
      (((s.touched ts).writeReg rd imm).setPc (s.stepPc + 4#64)))

/-- R151. -/
def Obligations.AuipcWritesPcPlusImmediate : Prop :=
  (∀ bits : InstrWord, bits.extractLsb' 0 7 = 0x17#7 →
    decode bits = .ok (.auipc (rdOf bits) (immU bits))) ∧
  (∀ (rd : RegIdx) (imm : Word), OnlyVerifierErrors (.auipc rd imm)) ∧
  (∀ (rd : RegIdx) (imm : Word) (ts : List Touch) (s : State),
    ts = touchWriteX s.cfg rd (s.stepPc + imm) ++ [touchWritePc s.cfg (s.stepPc + 4#64)] →
    s.admits ts = true →
    exec (.auipc rd imm) s = .next
      (((s.touched ts).writeReg rd (s.stepPc + imm)).setPc (s.stepPc + 4#64)))

/-- R160; the target is not checked, and the Step that finds it misaligned ends with E5. -/
def Obligations.JalLinksAndJumps : Prop :=
  (∀ bits : InstrWord, bits.extractLsb' 0 7 = 0x6F#7 →
    decode bits = .ok (.jal (rdOf bits) (immJ bits))) ∧
  (∀ (rd : RegIdx) (imm : Word), OnlyVerifierErrors (.jal rd imm)) ∧
  MisalignedPcEndsTheStep ∧
  (∀ (rd : RegIdx) (imm : Word) (ts : List Touch) (s : State),
    ts = touchWriteX s.cfg rd (s.stepPc + 4#64) ++ [touchWritePc s.cfg (s.stepPc + imm)] →
    s.admits ts = true →
    exec (.jal rd imm) s = .next
      (((s.touched ts).writeReg rd (s.stepPc + 4#64)).setPc (s.stepPc + imm)))

/-- R161: the target comes from the register as it was before the link is written, `rd = rs1` included. -/
def Obligations.JalrLinksAndJumpsToTheRegister : Prop :=
  (∀ bits : InstrWord, bits.extractLsb' 0 7 = 0x67#7 →
    decode bits = if bits.extractLsb' 12 3 = 0#3
      then .ok (.jalr (rdOf bits) (rs1Of bits) (immI bits)) else .error .unsupported) ∧
  (∀ (rd rs1 : RegIdx) (imm : Word), OnlyVerifierErrors (.jalr rd rs1 imm)) ∧
  MisalignedPcEndsTheStep ∧
  (∀ (rd rs1 : RegIdx) (imm a target : Word) (ts : List Touch) (s : State),
    target = (regReadValue s.cfg rs1 a + imm) &&& 0xFFFFFFFFFFFFFFFE#64 →
    ts = [touchReadX s.cfg rs1 a] ++ touchWriteX s.cfg rd (s.stepPc + 4#64)
      ++ [touchWritePc s.cfg target] →
    s.admits ts = true →
    exec (.jalr rd rs1 imm) s = .next
      (((s.touched ts).writeReg rd (s.stepPc + 4#64)).setPc target))

/-- R170 to R177: the encodings, the errors, what a misaligned target leads to, and the common shape with
each of the six conditions. -/
def Obligations.BranchesFollowTheirConditions : Prop :=
  (∀ bits : InstrWord, bits.extractLsb' 0 7 = 0x63#7 →
    (bits.extractLsb' 12 3 = 0#3 → decode bits = .ok (.beq (rs1Of bits) (rs2Of bits) (immB bits))) ∧
    (bits.extractLsb' 12 3 = 1#3 → decode bits = .ok (.bne (rs1Of bits) (rs2Of bits) (immB bits))) ∧
    (bits.extractLsb' 12 3 = 4#3 → decode bits = .ok (.blt (rs1Of bits) (rs2Of bits) (immB bits))) ∧
    (bits.extractLsb' 12 3 = 5#3 → decode bits = .ok (.bge (rs1Of bits) (rs2Of bits) (immB bits))) ∧
    (bits.extractLsb' 12 3 = 6#3 → decode bits = .ok (.bltu (rs1Of bits) (rs2Of bits) (immB bits))) ∧
    (bits.extractLsb' 12 3 = 7#3 → decode bits = .ok (.bgeu (rs1Of bits) (rs2Of bits) (immB bits)))) ∧
  (∀ (rs1 rs2 : RegIdx) (imm : Word),
    OnlyVerifierErrors (.beq rs1 rs2 imm) ∧ OnlyVerifierErrors (.bne rs1 rs2 imm) ∧
    OnlyVerifierErrors (.blt rs1 rs2 imm) ∧ OnlyVerifierErrors (.bge rs1 rs2 imm) ∧
    OnlyVerifierErrors (.bltu rs1 rs2 imm) ∧ OnlyVerifierErrors (.bgeu rs1 rs2 imm)) ∧
  MisalignedPcEndsTheStep ∧
  BranchesWhen .beq (fun a b => a = b) ∧
  BranchesWhen .bne (fun a b => a ≠ b) ∧
  BranchesWhen .blt (fun a b => a.toInt < b.toInt) ∧
  BranchesWhen .bge (fun a b => a.toInt ≥ b.toInt) ∧
  BranchesWhen .bltu (fun a b => a.toNat < b.toNat) ∧
  BranchesWhen .bgeu (fun a b => a.toNat ≥ b.toNat)

/-- R190 to R196: the encodings, each load's value and footprint at a legal address, E5 at another, and no
error but these (every address is a multiple of 1, so LB and LBU never raise E5). -/
def Obligations.LoadsWriteTheExtendedValue : Prop :=
  (∀ bits : InstrWord, bits.extractLsb' 0 7 = 0x03#7 →
    (bits.extractLsb' 12 3 = 0#3 → decode bits = .ok (.lb (rdOf bits) (rs1Of bits) (immI bits))) ∧
    (bits.extractLsb' 12 3 = 1#3 → decode bits = .ok (.lh (rdOf bits) (rs1Of bits) (immI bits))) ∧
    (bits.extractLsb' 12 3 = 2#3 → decode bits = .ok (.lw (rdOf bits) (rs1Of bits) (immI bits))) ∧
    (bits.extractLsb' 12 3 = 4#3 → decode bits = .ok (.lbu (rdOf bits) (rs1Of bits) (immI bits))) ∧
    (bits.extractLsb' 12 3 = 5#3 → decode bits = .ok (.lhu (rdOf bits) (rs1Of bits) (immI bits)))) ∧
  LoadsAs .lb .byte true ∧ LoadsAs .lh .half true ∧ LoadsAs .lw .word true ∧
  LoadsAs .lbu .byte false ∧ LoadsAs .lhu .half false ∧
  MisalignedLoadRaises .lh .half ∧ MisalignedLoadRaises .lw .word ∧ MisalignedLoadRaises .lhu .half ∧
  LoadErrors .lb .byte ∧ LoadErrors .lh .half ∧ LoadErrors .lw .word ∧ LoadErrors .lbu .byte ∧
  LoadErrors .lhu .half

/-- R241, R250, R259, R130: a register write the log refuses with E1 to E4 has already reached the store, in
the facade and in each of the nine instructions that write a register; nothing after it happens, in the
executor or in the rest of the Step. -/
def Obligations.RejectedRegisterWriteStays : Prop :=
  (∀ (i : RegIdx) (v : Word) (q : List AccessLog) (e : StepError) (s : State),
    s.caller = .claims q → i ≠ 0 → s.rejectsWrite s.cfg.posX[i] v e →
    writeX i v s = .raised e ((s.issue (.writeRegister i v)).setReg i v)) ∧
  (∀ (rd rs1 : RegIdx) (imm a : Word) (s : State),
    RejectedAfter (.lui rd imm) [] rd imm s ∧
    RejectedAfter (.auipc rd imm) [] rd (s.stepPc + imm) s ∧
    RejectedAfter (.jal rd imm) [] rd (s.stepPc + 4#64) s ∧
    RejectedAfter (.jalr rd rs1 imm) [touchReadX s.cfg rs1 a] rd (s.stepPc + 4#64) s) ∧
  RejectedLoad .lb .byte true ∧ RejectedLoad .lh .half true ∧ RejectedLoad .lw .word true ∧
  RejectedLoad .lbu .byte false ∧ RejectedLoad .lhu .half false ∧
  (∀ (c : Word) (e : StepError) (s : State), afterExec c (.next (s.raise e)) = .next (s.raise e))

/-- R241, R250, R130: the same of a pc write and of a cycle write, the one that ends a Running Step
included. -/
def Obligations.RejectedPcAndCycleWritesStay : Prop :=
  ∀ (v c : Word) (q : List AccessLog) (e : StepError) (s : State), s.caller = .claims q →
    (s.rejectsWrite s.cfg.posPc v e →
      writePc v s = .raised e ((s.issue (.writePc v)).setPc v)) ∧
    (s.rejectsWrite s.cfg.posCycle v e →
      writeCycle v s = .raised e ((s.issue (.writeCycle v)).setCycle v)) ∧
    (s.rejectsWrite s.cfg.posCycle (c + 1#64) e →
      retire c s = ((s.issue (.writeCycle (c + 1#64))).setCycle (c + 1#64)).raise e)

/-- R241, R250, R259: whatever a Step's result, its store holds every register, pc and cycle write it
issued, and each of these cells it issued no write of is as before. -/
def Obligations.IssuedWritesAreInTheStore : Prop :=
  ∀ s t : State, step s = .next t →
    (∀ r v, .writeRegister r v ∈ t.trace → t.regs[r] = v) ∧
    (∀ r, (∀ v, .writeRegister r v ∉ t.trace) → t.regs[r] = s.regs[r]) ∧
    (∀ v, .writePc v ∈ t.trace → t.pc = v) ∧
    ((∀ v, .writePc v ∉ t.trace) → t.pc = s.pc) ∧
    (∀ v, .writeCycle v ∈ t.trace → t.cycle = v) ∧
    ((∀ v, .writeCycle v ∉ t.trace) → t.cycle = s.cycle)

/-- R23, R219: the frame of every instruction with a destination register. -/
def Obligations.RegisterWritersKeepTheRest : Prop :=
  ∀ (rd rs1 : RegIdx) (imm : Word) (s t : State),
    (exec (.lui rd imm) s = .next t → Keeps (.lui rd imm) s t) ∧
    (exec (.auipc rd imm) s = .next t → Keeps (.auipc rd imm) s t) ∧
    (exec (.jal rd imm) s = .next t → Keeps (.jal rd imm) s t) ∧
    (exec (.jalr rd rs1 imm) s = .next t → Keeps (.jalr rd rs1 imm) s t) ∧
    (exec (.lb rd rs1 imm) s = .next t → Keeps (.lb rd rs1 imm) s t) ∧
    (exec (.lh rd rs1 imm) s = .next t → Keeps (.lh rd rs1 imm) s t) ∧
    (exec (.lw rd rs1 imm) s = .next t → Keeps (.lw rd rs1 imm) s t) ∧
    (exec (.lbu rd rs1 imm) s = .next t → Keeps (.lbu rd rs1 imm) s t) ∧
    (exec (.lhu rd rs1 imm) s = .next t → Keeps (.lhu rd rs1 imm) s t)

/-- R176: a branch writes no register; the frame of the six. -/
def Obligations.BranchesKeepTheRest : Prop :=
  ∀ (rs1 rs2 : RegIdx) (imm : Word) (s t : State),
    (exec (.beq rs1 rs2 imm) s = .next t → Keeps (.beq rs1 rs2 imm) s t) ∧
    (exec (.bne rs1 rs2 imm) s = .next t → Keeps (.bne rs1 rs2 imm) s t) ∧
    (exec (.blt rs1 rs2 imm) s = .next t → Keeps (.blt rs1 rs2 imm) s t) ∧
    (exec (.bge rs1 rs2 imm) s = .next t → Keeps (.bge rs1 rs2 imm) s t) ∧
    (exec (.bltu rs1 rs2 imm) s = .next t → Keeps (.bltu rs1 rs2 imm) s t) ∧
    (exec (.bgeu rs1 rs2 imm) s = .next t → Keeps (.bgeu rs1 rs2 imm) s t)

/-- R25, R219: an executor that raises nothing writes the pc exactly once, as its last operation. -/
def Obligations.ExecutorEndsInOnePcWrite : Prop :=
  ∀ (i : Instr) (s t : State), s.result = none → exec i s = .next t → t.result = none →
    ∃ ops v, t.trace = s.trace ++ ops ++ [.writePc v] ∧ t.pc = v ∧ ∀ w, .writePc w ∉ ops

/-- R23: the registers an executor reads are those its instruction names, in order, all of them unless it
raised; it writes its destination, register 0 suppressed; the Step Controller's own part touches no
register. -/
def Obligations.ExecutorTouchesOnlyItsRegisters : Prop :=
  (∀ (i : Instr) (s t : State), s.result = none → exec i s = .next t →
    ∃ ops, t.trace = s.trace ++ ops ∧
      ops.filterMap ProviderOp.readsRegister <+: i.sources ∧
      ops.filterMap ProviderOp.writesRegister <+: i.written ∧
      (t.result = none →
        ops.filterMap ProviderOp.readsRegister = i.sources ∧
        ops.filterMap ProviderOp.writesRegister = i.written)) ∧
  (∀ s t : State, (∃ f, front s = .ok f t) ∨ (∃ e, front s = .raised e t) ∨ (∃ c, retire c s = t) →
    ∃ ops, t.trace = s.trace ++ ops ∧ ops.filterMap ProviderOp.readsRegister = [] ∧
      ops.filterMap ProviderOp.writesRegister = [])

/-! ### The Step -/

/-- R210, R213 to R215: with an aligned pc whose word decodes, a Running Step is exec of that instruction
after its four front accesses, then nothing more if the executor raised, else the cycle write and the
end of the Step. -/
def Obligations.StepRunsTheDecodedInstruction : Prop :=
  ∀ (s s0 t : State) (c p w : Word) (ts : List Touch) (i : Instr),
    s.beginStep = some s0 → c ≠ 0xFFFFFFFFFFFFFFFF#64 → p.toNat % 4 = 0 →
    ts = [touchReadCycle s0.cfg c, touchReadHalt s0.cfg 0#64, touchReadPc s0.cfg p,
      touchReadWord (alignDown p) w] →
    s0.admits ts = true → decode (instrWordAt p w) = .ok i →
    exec i ((s0.touched ts).setStepPc p) = .next t →
    step s = .next (if t.result = none then retire c t else t)

/-- R218, and R214's first clause: an unsupported word ends the Step after four accesses, a misaligned pc
after three, and nothing is written. -/
def Obligations.StepRejectsBadPcAndBadWord : Prop :=
  MisalignedPcEndsTheStep ∧
  ∀ (s s0 : State) (c p w : Word) (ts : List Touch),
    s.beginStep = some s0 → c ≠ 0xFFFFFFFFFFFFFFFF#64 → p.toNat % 4 = 0 →
    ts = [touchReadCycle s0.cfg c, touchReadHalt s0.cfg 0#64, touchReadPc s0.cfg p,
      touchReadWord (alignDown p) w] →
    s0.admits ts = true → decode (instrWordAt p w) = .error .unsupported →
    step s = .next
      (((s0.touched ts).setStepPc p).raise (.unsupportedInstruction (instrWordAt p w) p))

/-- R212: the Halted and the CycleSaturated Step, the halt test first; entries left over make it E6
(R222). -/
def Obligations.HaltedAndSaturatedStepsDoNothing : Prop :=
  ∀ (s s0 : State) (c h : Word) (ts : List Touch),
    s.beginStep = some s0 → ts = [touchReadCycle s0.cfg c, touchReadHalt s0.cfg h] →
    s0.admits ts = true → (h ≠ 0#64 ∨ c = 0xFFFFFFFFFFFFFFFF#64) →
    (s0.caller = .honest ∨ s0.log.length = 2 →
      step s = .next ((s0.touched ts).finish (.ok c (decide (h ≠ 0#64))))) ∧
    (∀ q, s0.caller = .claims q → s0.log.length ≠ 2 →
      step s = .next
        ((s0.touched ts).finish (.error (.endOfLogInvariantViolation 2 s0.log.length))))

/-- R221, R222: the cycle write after the executor returned, one more than the value access 0 gave, never
wrapping; then Ok if the log is used up, and E6, the write staying, if entries are left over. -/
def Obligations.RetireWritesTheNextCycle : Prop :=
  ∀ (c : Word) (s u : State), c ≠ 0xFFFFFFFFFFFFFFFF#64 →
    (c + 1#64).toNat = c.toNat + 1 ∧
    (s.admits [touchWriteCycle s.cfg (c + 1#64)] = true →
      u = (s.touched [touchWriteCycle s.cfg (c + 1#64)]).setCycle (c + 1#64) →
      (u.cursor = u.log.length → retire c s = u.finish (.ok (c + 1#64) false)) ∧
      (u.cursor ≠ u.log.length →
        retire c s = u.finish (.error (.endOfLogInvariantViolation u.cursor u.log.length))))

/-- R222: a Step that ends in Ok has used its log up, E6 means entries were left over, and an error of the
verifier reports the cursor. -/
def Obligations.EndOfLogIsCheckedOnSuccess : Prop :=
  ∀ s t : State, step s = .next t →
    (∀ c h, t.result = some (.ok c h) → t.cursor = t.log.length) ∧
    (∀ n l, t.result = some (.error (.endOfLogInvariantViolation n l)) →
      n = t.cursor ∧ l = t.log.length ∧ n < l) ∧
    (∀ e n, t.result = some (.error e) → e.index = some n → n = t.cursor)

/-- R14: a requested Step ends with exactly one result; the model stops only where no request stands. -/
def Obligations.EveryRequestedStepHasAResult : Prop :=
  ∀ s : State,
    (s.caller = .claims [] → step s = .fault .noRequest) ∧
    (s.caller ≠ .claims [] → ∃ t r, step s = .next t ∧ t.result = some r)

/-- R29, R57, R22, R258: no Step changes the halt flag, any byte of memory, register 0 or the parameters. -/
def Obligations.NoStepChangesHaltMemoryOrZero : Prop :=
  ∀ s t : State, step s = .next t →
    t.halt = s.halt ∧ (∀ a, t.mem.readByte a = s.mem.readByte a) ∧
    t.regs[(0 : RegIdx)] = s.regs[(0 : RegIdx)] ∧ t.cfg = s.cfg

/-- R3, R34, R35: each Step takes one request, works on that log and never changes it; an honest caller
stays honest. -/
def Obligations.EachStepTakesOneLog : Prop :=
  ∀ s t : State, step s = .next t →
    (∀ l q, s.caller = .claims (l :: q) → t.caller = .claims q ∧ t.log = l) ∧
    (s.caller = .honest → t.caller = .honest)

/-- R20, R271: nothing an earlier Step left behind reaches the next one. -/
def Obligations.NothingIsCarriedBetweenSteps : Prop :=
  ∀ (s : State) (log : AccessLog) (cursor : Nat) (stepPc : Word) (trace : List ProviderOp)
    (result : Option StepResult),
    step { s with
      log := log, cursor := cursor, stepPc := stepPc, trace := trace, result := result } = step s

/-- Every Step keeps the invariant: canonical memory, register 0 zero, distinct slots, the cursor inside the
log, one provider operation an entry. -/
def Obligations.StepKeepsTheInvariant : Prop :=
  ∀ s t : State, s.Inv → step s = .next t → t.Inv

/-- Reset meets the invariant; R37's values are cursor 0 and x[0] = 0, the rest of reset is the model's
choice (log entries 1 and 3 to 9, 11). -/
def Obligations.ResetMeetsTheInvariant : Prop :=
  State.reset.Inv ∧ State.reset.cursor = 0 ∧ State.reset.regs[(0 : RegIdx)] = 0#64

/-- R254, R28: under an honest caller the counter goes up by one exactly in a Running Step that succeeds. -/
def Obligations.CycleCountsRunningSteps : Prop :=
  ∀ s t : State, s.caller = .honest → step s = .next t →
    (s.halt = 0#64 → s.cycle ≠ 0xFFFFFFFFFFFFFFFF#64 → t.succeeded = true →
      t.cycle.toNat = s.cycle.toNat + 1 ∧ t.result = some (.ok t.cycle false)) ∧
    (s.halt ≠ 0#64 ∨ s.cycle = 0xFFFFFFFFFFFFFFFF#64 ∨ t.succeeded = false →
      t.cycle = s.cycle ∧ t.pc = s.pc ∧ t.regs = s.regs)

/-- R224, R244: an honest log fails only by the state being stepped, E5 or E7, and never when the pc is
aligned and a supported instruction stands there whose load address, if it has one, is aligned. -/
def Obligations.HonestStepsFailOnlyByTheState : Prop :=
  ∀ s t : State, s.caller = .honest → step s = .next t →
    (∀ e, t.result = some (.error e) →
      e.errorClass = .state ∧
      ((∃ n a, e = .misalignedAccess n a) ∨ ∃ bits, e = .unsupportedInstruction bits s.pc)) ∧
    (∀ i, s.pc.toNat % 4 = 0 → decode (instrWordAt s.pc (s.storeWord (alignDown s.pc))) = .ok i →
      (∀ n rs1 imm, i.loadForm = some (n, rs1, imm) →
        (regReadValue s.cfg rs1 s.regs[rs1] + imm).toNat % n.bytes = 0) →
      t.succeeded = true)

/-- R259, R130: how many provider operations a Step has issued at its end. -/
def Obligations.ProviderOperationsMatchTheCursor : Prop :=
  ∀ s t : State, step s = .next t →
    (∀ c h, t.result = some (.ok c h) → t.trace.length = t.cursor) ∧
    (∀ e, t.result = some (.error e) →
      t.trace.length = if e.index = none then t.cursor else t.cursor + 1) ∧
    ∀ op ∈ t.trace, op.neverIssued = false

/-- R280: one Step performs at most nine accesses. -/
def Obligations.AtMostNineAccesses : Prop :=
  ∀ s t : State, step s = .next t → t.cursor ≤ 9 ∧ t.trace.length ≤ 9

/-- R223: the kind and position of every entry of a Step that succeeded, row by row. -/
def Obligations.FootprintOfASuccessfulStep : Prop :=
  ∀ s t : State, step s = .next t → t.succeeded = true →
    ∃ c h, (t.log[0]?.map Access.value) = some c ∧ (t.log[1]?.map Access.value) = some h ∧
      (h ≠ 0#64 ∨ c = 0xFFFFFFFFFFFFFFFF#64 →
        (t.log.map fun e => (e.kind, e.position))
          = [(.read, t.cfg.posCycle), (.read, t.cfg.posHalt)]) ∧
      (h = 0#64 → c ≠ 0xFFFFFFFFFFFFFFFF#64 →
        ∃ p w a i, (t.log[2]?.map Access.value) = some p ∧ (t.log[3]?.map Access.value) = some w ∧
          (t.log[4]?.map Access.value) = some a ∧ decode (instrWordAt p w) = .ok i ∧
          (t.log.map fun e => (e.kind, e.position))
            = [(.read, t.cfg.posCycle), (.read, t.cfg.posHalt), (.read, t.cfg.posPc),
                (.read, alignDown p)]
              ++ executorShape t.cfg i a ++ [(.write, t.cfg.posCycle)])

/-- R226: result, final cursor and provider trace are a function of the log and the slot parameters; nothing
else of the store reaches them. -/
def Obligations.OutcomeIsAFunctionOfTheLog : Prop :=
  ∀ (s s' : State) (l : AccessLog) (q q' : List AccessLog),
    (∀ sl, s.cfg.position sl = s'.cfg.position sl) → s.cfg.x0Read = s'.cfg.x0Read →
    s.caller = .claims (l :: q) → s'.caller = .claims (l :: q') →
    ∃ t t', step s = .next t ∧ step s' = .next t' ∧
      t.result = t'.result ∧ t.cursor = t'.cursor ∧ t.trace = t'.trace

/-- R133: a divergence at entry `n` is reported at `n`, and entries after it change nothing. -/
def Obligations.DivergenceIsPositional : Prop :=
  ∀ (s t : State) (l l' : AccessLog) (q : List AccessLog) (e : StepError) (n : Nat),
    s.caller = .claims (l :: q) → step s = .next t → t.result = some (.error e) →
    e.index = some n → l'.take (n + 1) = l.take (n + 1) →
    t.cursor = n ∧
    step { s with caller := .claims (l' :: q) } = .next { t with log := l' }

/-- R224: the log an honest Step records, put as a claim against the same store, is accepted with the same
result, store, cursor and provider trace; if the Step ended with E5 or E7, every log that agrees with
the recorded prefix ends so too. -/
def Obligations.HonestLogIsAccepted : Prop :=
  ∀ (s t : State) (q : List AccessLog) (extra : AccessLog),
    s.caller = .honest → step s = .next t → (t.succeeded = true → extra = []) →
    step { s with caller := .claims ((t.log ++ extra) :: q) }
      = .next { t with caller := .claims q, log := t.log ++ extra }

/-- R272 items 1 to 4, R80: an instruction placed by `withFetchWord` is the one the decoder reads from the
table's word, the state is one R272 asks for, and the very next Step executes the instruction. -/
def Obligations.PlacedWordIsExecuted : Prop :=
  ∀ (s : State) (w : Nat) (i : Instr),
    s.mem.wf = true → decode (BitVec.ofNat 32 w) = .ok i →
    decodeTableWord 32 w = some i ∧
    (s.Inv → (s.withFetchWord 32 w).booted = true) ∧
    ∃ (c : Word) (s1 : State),
      s1.stepPc = s.pc &&& 0xFFFFFFFFFFFFFFFC#64 ∧ s1.pc = s1.stepPc ∧ s1.regs = s.regs ∧
      s1.caller = .honest ∧ s1.result = none ∧
      step (s.withFetchWord 32 w) = afterExec c (exec i s1)
end

