-- ==== Sys2Proof/Laws/State.lean ====
section
/-!
SUPPORT. One lemma per field per named update of State, true by unfolding, so that no later proof unfolds a
record update.
-/

namespace Sys2Proof.Machine

/-! ### `State.raise` -/

@[simp] theorem State.raise_cfg (s : State) (e : StepError) : (s.raise e).cfg = s.cfg := rfl
@[simp] theorem State.raise_regs (s : State) (e : StepError) : (s.raise e).regs = s.regs := rfl
@[simp] theorem State.raise_pc (s : State) (e : StepError) : (s.raise e).pc = s.pc := rfl
@[simp] theorem State.raise_cycle (s : State) (e : StepError) : (s.raise e).cycle = s.cycle := rfl
@[simp] theorem State.raise_halt (s : State) (e : StepError) : (s.raise e).halt = s.halt := rfl
@[simp] theorem State.raise_mem (s : State) (e : StepError) : (s.raise e).mem = s.mem := rfl
@[simp] theorem State.raise_caller (s : State) (e : StepError) : (s.raise e).caller = s.caller := rfl
@[simp] theorem State.raise_log (s : State) (e : StepError) : (s.raise e).log = s.log := rfl
@[simp] theorem State.raise_cursor (s : State) (e : StepError) : (s.raise e).cursor = s.cursor := rfl
@[simp] theorem State.raise_stepPc (s : State) (e : StepError) : (s.raise e).stepPc = s.stepPc := rfl
@[simp] theorem State.raise_trace (s : State) (e : StepError) : (s.raise e).trace = s.trace := rfl
@[simp] theorem State.raise_result (s : State) (e : StepError) : (s.raise e).result = some (.error e) := rfl

/-! ### `State.issue` -/

@[simp] theorem State.issue_cfg (s : State) (op : ProviderOp) : (s.issue op).cfg = s.cfg := rfl
@[simp] theorem State.issue_regs (s : State) (op : ProviderOp) : (s.issue op).regs = s.regs := rfl
@[simp] theorem State.issue_pc (s : State) (op : ProviderOp) : (s.issue op).pc = s.pc := rfl
@[simp] theorem State.issue_cycle (s : State) (op : ProviderOp) : (s.issue op).cycle = s.cycle := rfl
@[simp] theorem State.issue_halt (s : State) (op : ProviderOp) : (s.issue op).halt = s.halt := rfl
@[simp] theorem State.issue_mem (s : State) (op : ProviderOp) : (s.issue op).mem = s.mem := rfl
@[simp] theorem State.issue_caller (s : State) (op : ProviderOp) : (s.issue op).caller = s.caller := rfl
@[simp] theorem State.issue_log (s : State) (op : ProviderOp) : (s.issue op).log = s.log := rfl
@[simp] theorem State.issue_cursor (s : State) (op : ProviderOp) : (s.issue op).cursor = s.cursor := rfl
@[simp] theorem State.issue_stepPc (s : State) (op : ProviderOp) : (s.issue op).stepPc = s.stepPc := rfl
@[simp] theorem State.issue_trace (s : State) (op : ProviderOp) : (s.issue op).trace = s.trace ++ [op] := rfl
@[simp] theorem State.issue_result (s : State) (op : ProviderOp) : (s.issue op).result = s.result := rfl

/-! ### `State.record` -/

@[simp] theorem State.record_cfg (s : State) (e : Access) : (s.record e).cfg = s.cfg := rfl
@[simp] theorem State.record_regs (s : State) (e : Access) : (s.record e).regs = s.regs := rfl
@[simp] theorem State.record_pc (s : State) (e : Access) : (s.record e).pc = s.pc := rfl
@[simp] theorem State.record_cycle (s : State) (e : Access) : (s.record e).cycle = s.cycle := rfl
@[simp] theorem State.record_halt (s : State) (e : Access) : (s.record e).halt = s.halt := rfl
@[simp] theorem State.record_mem (s : State) (e : Access) : (s.record e).mem = s.mem := rfl
@[simp] theorem State.record_caller (s : State) (e : Access) : (s.record e).caller = s.caller := rfl
@[simp] theorem State.record_log (s : State) (e : Access) : (s.record e).log = s.log ++ [e] := rfl
@[simp] theorem State.record_cursor (s : State) (e : Access) : (s.record e).cursor = s.cursor + 1 := rfl
@[simp] theorem State.record_stepPc (s : State) (e : Access) : (s.record e).stepPc = s.stepPc := rfl
@[simp] theorem State.record_trace (s : State) (e : Access) : (s.record e).trace = s.trace := rfl
@[simp] theorem State.record_result (s : State) (e : Access) : (s.record e).result = s.result := rfl

/-! ### `State.consumed` -/

@[simp] theorem State.consumed_cfg (s : State) : (s.consumed).cfg = s.cfg := rfl
@[simp] theorem State.consumed_regs (s : State) : (s.consumed).regs = s.regs := rfl
@[simp] theorem State.consumed_pc (s : State) : (s.consumed).pc = s.pc := rfl
@[simp] theorem State.consumed_cycle (s : State) : (s.consumed).cycle = s.cycle := rfl
@[simp] theorem State.consumed_halt (s : State) : (s.consumed).halt = s.halt := rfl
@[simp] theorem State.consumed_mem (s : State) : (s.consumed).mem = s.mem := rfl
@[simp] theorem State.consumed_caller (s : State) : (s.consumed).caller = s.caller := rfl
@[simp] theorem State.consumed_log (s : State) : (s.consumed).log = s.log := rfl
@[simp] theorem State.consumed_cursor (s : State) : (s.consumed).cursor = s.cursor + 1 := rfl
@[simp] theorem State.consumed_stepPc (s : State) : (s.consumed).stepPc = s.stepPc := rfl
@[simp] theorem State.consumed_trace (s : State) : (s.consumed).trace = s.trace := rfl
@[simp] theorem State.consumed_result (s : State) : (s.consumed).result = s.result := rfl

/-! ### `State.touched` -/

@[simp] theorem State.touched_cfg (s : State) (ts : List Touch) : (s.touched ts).cfg = s.cfg := rfl
@[simp] theorem State.touched_regs (s : State) (ts : List Touch) : (s.touched ts).regs = s.regs := rfl
@[simp] theorem State.touched_pc (s : State) (ts : List Touch) : (s.touched ts).pc = s.pc := rfl
@[simp] theorem State.touched_cycle (s : State) (ts : List Touch) : (s.touched ts).cycle = s.cycle := rfl
@[simp] theorem State.touched_halt (s : State) (ts : List Touch) : (s.touched ts).halt = s.halt := rfl
@[simp] theorem State.touched_mem (s : State) (ts : List Touch) : (s.touched ts).mem = s.mem := rfl
@[simp] theorem State.touched_caller (s : State) (ts : List Touch) : (s.touched ts).caller = s.caller := rfl
@[simp] theorem State.touched_log (s : State) (ts : List Touch) : (s.touched ts).log = if s.caller = .honest then s.log ++ ts.map Touch.entry else s.log := rfl
@[simp] theorem State.touched_cursor (s : State) (ts : List Touch) : (s.touched ts).cursor = s.cursor + ts.length := rfl
@[simp] theorem State.touched_stepPc (s : State) (ts : List Touch) : (s.touched ts).stepPc = s.stepPc := rfl
@[simp] theorem State.touched_trace (s : State) (ts : List Touch) : (s.touched ts).trace = s.trace ++ ts.map Touch.op := rfl
@[simp] theorem State.touched_result (s : State) (ts : List Touch) : (s.touched ts).result = s.result := rfl

/-! ### `State.finish` -/

@[simp] theorem State.finish_cfg (s : State) (r : StepResult) : (s.finish r).cfg = s.cfg := rfl
@[simp] theorem State.finish_regs (s : State) (r : StepResult) : (s.finish r).regs = s.regs := rfl
@[simp] theorem State.finish_pc (s : State) (r : StepResult) : (s.finish r).pc = s.pc := rfl
@[simp] theorem State.finish_cycle (s : State) (r : StepResult) : (s.finish r).cycle = s.cycle := rfl
@[simp] theorem State.finish_halt (s : State) (r : StepResult) : (s.finish r).halt = s.halt := rfl
@[simp] theorem State.finish_mem (s : State) (r : StepResult) : (s.finish r).mem = s.mem := rfl
@[simp] theorem State.finish_caller (s : State) (r : StepResult) : (s.finish r).caller = s.caller := rfl
@[simp] theorem State.finish_log (s : State) (r : StepResult) : (s.finish r).log = s.log := rfl
@[simp] theorem State.finish_cursor (s : State) (r : StepResult) : (s.finish r).cursor = s.cursor := rfl
@[simp] theorem State.finish_stepPc (s : State) (r : StepResult) : (s.finish r).stepPc = s.stepPc := rfl
@[simp] theorem State.finish_trace (s : State) (r : StepResult) : (s.finish r).trace = s.trace := rfl
@[simp] theorem State.finish_result (s : State) (r : StepResult) : (s.finish r).result = some r := rfl

/-! ### `State.setReg` -/

@[simp] theorem State.setReg_cfg (s : State) (i : RegIdx) (v : Word) : (s.setReg i v).cfg = s.cfg := rfl
@[simp] theorem State.setReg_regs (s : State) (i : RegIdx) (v : Word) : (s.setReg i v).regs = s.regs.set i.val v i.isLt := rfl
@[simp] theorem State.setReg_pc (s : State) (i : RegIdx) (v : Word) : (s.setReg i v).pc = s.pc := rfl
@[simp] theorem State.setReg_cycle (s : State) (i : RegIdx) (v : Word) : (s.setReg i v).cycle = s.cycle := rfl
@[simp] theorem State.setReg_halt (s : State) (i : RegIdx) (v : Word) : (s.setReg i v).halt = s.halt := rfl
@[simp] theorem State.setReg_mem (s : State) (i : RegIdx) (v : Word) : (s.setReg i v).mem = s.mem := rfl
@[simp] theorem State.setReg_caller (s : State) (i : RegIdx) (v : Word) : (s.setReg i v).caller = s.caller := rfl
@[simp] theorem State.setReg_log (s : State) (i : RegIdx) (v : Word) : (s.setReg i v).log = s.log := rfl
@[simp] theorem State.setReg_cursor (s : State) (i : RegIdx) (v : Word) : (s.setReg i v).cursor = s.cursor := rfl
@[simp] theorem State.setReg_stepPc (s : State) (i : RegIdx) (v : Word) : (s.setReg i v).stepPc = s.stepPc := rfl
@[simp] theorem State.setReg_trace (s : State) (i : RegIdx) (v : Word) : (s.setReg i v).trace = s.trace := rfl
@[simp] theorem State.setReg_result (s : State) (i : RegIdx) (v : Word) : (s.setReg i v).result = s.result := rfl

/-! ### `State.setPc` -/

@[simp] theorem State.setPc_cfg (s : State) (v : Word) : (s.setPc v).cfg = s.cfg := rfl
@[simp] theorem State.setPc_regs (s : State) (v : Word) : (s.setPc v).regs = s.regs := rfl
@[simp] theorem State.setPc_pc (s : State) (v : Word) : (s.setPc v).pc = v := rfl
@[simp] theorem State.setPc_cycle (s : State) (v : Word) : (s.setPc v).cycle = s.cycle := rfl
@[simp] theorem State.setPc_halt (s : State) (v : Word) : (s.setPc v).halt = s.halt := rfl
@[simp] theorem State.setPc_mem (s : State) (v : Word) : (s.setPc v).mem = s.mem := rfl
@[simp] theorem State.setPc_caller (s : State) (v : Word) : (s.setPc v).caller = s.caller := rfl
@[simp] theorem State.setPc_log (s : State) (v : Word) : (s.setPc v).log = s.log := rfl
@[simp] theorem State.setPc_cursor (s : State) (v : Word) : (s.setPc v).cursor = s.cursor := rfl
@[simp] theorem State.setPc_stepPc (s : State) (v : Word) : (s.setPc v).stepPc = s.stepPc := rfl
@[simp] theorem State.setPc_trace (s : State) (v : Word) : (s.setPc v).trace = s.trace := rfl
@[simp] theorem State.setPc_result (s : State) (v : Word) : (s.setPc v).result = s.result := rfl

/-! ### `State.setCycle` -/

@[simp] theorem State.setCycle_cfg (s : State) (v : Word) : (s.setCycle v).cfg = s.cfg := rfl
@[simp] theorem State.setCycle_regs (s : State) (v : Word) : (s.setCycle v).regs = s.regs := rfl
@[simp] theorem State.setCycle_pc (s : State) (v : Word) : (s.setCycle v).pc = s.pc := rfl
@[simp] theorem State.setCycle_cycle (s : State) (v : Word) : (s.setCycle v).cycle = v := rfl
@[simp] theorem State.setCycle_halt (s : State) (v : Word) : (s.setCycle v).halt = s.halt := rfl
@[simp] theorem State.setCycle_mem (s : State) (v : Word) : (s.setCycle v).mem = s.mem := rfl
@[simp] theorem State.setCycle_caller (s : State) (v : Word) : (s.setCycle v).caller = s.caller := rfl
@[simp] theorem State.setCycle_log (s : State) (v : Word) : (s.setCycle v).log = s.log := rfl
@[simp] theorem State.setCycle_cursor (s : State) (v : Word) : (s.setCycle v).cursor = s.cursor := rfl
@[simp] theorem State.setCycle_stepPc (s : State) (v : Word) : (s.setCycle v).stepPc = s.stepPc := rfl
@[simp] theorem State.setCycle_trace (s : State) (v : Word) : (s.setCycle v).trace = s.trace := rfl
@[simp] theorem State.setCycle_result (s : State) (v : Word) : (s.setCycle v).result = s.result := rfl

/-! ### `State.setHalt` -/

@[simp] theorem State.setHalt_cfg (s : State) (v : Word) : (s.setHalt v).cfg = s.cfg := rfl
@[simp] theorem State.setHalt_regs (s : State) (v : Word) : (s.setHalt v).regs = s.regs := rfl
@[simp] theorem State.setHalt_pc (s : State) (v : Word) : (s.setHalt v).pc = s.pc := rfl
@[simp] theorem State.setHalt_cycle (s : State) (v : Word) : (s.setHalt v).cycle = s.cycle := rfl
@[simp] theorem State.setHalt_halt (s : State) (v : Word) : (s.setHalt v).halt = v := rfl
@[simp] theorem State.setHalt_mem (s : State) (v : Word) : (s.setHalt v).mem = s.mem := rfl
@[simp] theorem State.setHalt_caller (s : State) (v : Word) : (s.setHalt v).caller = s.caller := rfl
@[simp] theorem State.setHalt_log (s : State) (v : Word) : (s.setHalt v).log = s.log := rfl
@[simp] theorem State.setHalt_cursor (s : State) (v : Word) : (s.setHalt v).cursor = s.cursor := rfl
@[simp] theorem State.setHalt_stepPc (s : State) (v : Word) : (s.setHalt v).stepPc = s.stepPc := rfl
@[simp] theorem State.setHalt_trace (s : State) (v : Word) : (s.setHalt v).trace = s.trace := rfl
@[simp] theorem State.setHalt_result (s : State) (v : Word) : (s.setHalt v).result = s.result := rfl

/-! ### `State.setMem` -/

@[simp] theorem State.setMem_cfg (s : State) (m : Memory) : (s.setMem m).cfg = s.cfg := rfl
@[simp] theorem State.setMem_regs (s : State) (m : Memory) : (s.setMem m).regs = s.regs := rfl
@[simp] theorem State.setMem_pc (s : State) (m : Memory) : (s.setMem m).pc = s.pc := rfl
@[simp] theorem State.setMem_cycle (s : State) (m : Memory) : (s.setMem m).cycle = s.cycle := rfl
@[simp] theorem State.setMem_halt (s : State) (m : Memory) : (s.setMem m).halt = s.halt := rfl
@[simp] theorem State.setMem_mem (s : State) (m : Memory) : (s.setMem m).mem = m := rfl
@[simp] theorem State.setMem_caller (s : State) (m : Memory) : (s.setMem m).caller = s.caller := rfl
@[simp] theorem State.setMem_log (s : State) (m : Memory) : (s.setMem m).log = s.log := rfl
@[simp] theorem State.setMem_cursor (s : State) (m : Memory) : (s.setMem m).cursor = s.cursor := rfl
@[simp] theorem State.setMem_stepPc (s : State) (m : Memory) : (s.setMem m).stepPc = s.stepPc := rfl
@[simp] theorem State.setMem_trace (s : State) (m : Memory) : (s.setMem m).trace = s.trace := rfl
@[simp] theorem State.setMem_result (s : State) (m : Memory) : (s.setMem m).result = s.result := rfl

/-! ### `State.setStepPc` -/

@[simp] theorem State.setStepPc_cfg (s : State) (v : Word) : (s.setStepPc v).cfg = s.cfg := rfl
@[simp] theorem State.setStepPc_regs (s : State) (v : Word) : (s.setStepPc v).regs = s.regs := rfl
@[simp] theorem State.setStepPc_pc (s : State) (v : Word) : (s.setStepPc v).pc = s.pc := rfl
@[simp] theorem State.setStepPc_cycle (s : State) (v : Word) : (s.setStepPc v).cycle = s.cycle := rfl
@[simp] theorem State.setStepPc_halt (s : State) (v : Word) : (s.setStepPc v).halt = s.halt := rfl
@[simp] theorem State.setStepPc_mem (s : State) (v : Word) : (s.setStepPc v).mem = s.mem := rfl
@[simp] theorem State.setStepPc_caller (s : State) (v : Word) : (s.setStepPc v).caller = s.caller := rfl
@[simp] theorem State.setStepPc_log (s : State) (v : Word) : (s.setStepPc v).log = s.log := rfl
@[simp] theorem State.setStepPc_cursor (s : State) (v : Word) : (s.setStepPc v).cursor = s.cursor := rfl
@[simp] theorem State.setStepPc_stepPc (s : State) (v : Word) : (s.setStepPc v).stepPc = v := rfl
@[simp] theorem State.setStepPc_trace (s : State) (v : Word) : (s.setStepPc v).trace = s.trace := rfl
@[simp] theorem State.setStepPc_result (s : State) (v : Word) : (s.setStepPc v).result = s.result := rfl

/-! ### `State.writeReg` -/

@[simp] theorem State.writeReg_cfg (s : State) (i : RegIdx) (v : Word) : (s.writeReg i v).cfg = s.cfg := by
  unfold State.writeReg; split <;> rfl
@[simp] theorem State.writeReg_pc (s : State) (i : RegIdx) (v : Word) : (s.writeReg i v).pc = s.pc := by
  unfold State.writeReg; split <;> rfl
@[simp] theorem State.writeReg_cycle (s : State) (i : RegIdx) (v : Word) : (s.writeReg i v).cycle = s.cycle := by
  unfold State.writeReg; split <;> rfl
@[simp] theorem State.writeReg_halt (s : State) (i : RegIdx) (v : Word) : (s.writeReg i v).halt = s.halt := by
  unfold State.writeReg; split <;> rfl
@[simp] theorem State.writeReg_mem (s : State) (i : RegIdx) (v : Word) : (s.writeReg i v).mem = s.mem := by
  unfold State.writeReg; split <;> rfl
@[simp] theorem State.writeReg_caller (s : State) (i : RegIdx) (v : Word) : (s.writeReg i v).caller = s.caller := by
  unfold State.writeReg; split <;> rfl
@[simp] theorem State.writeReg_log (s : State) (i : RegIdx) (v : Word) : (s.writeReg i v).log = s.log := by
  unfold State.writeReg; split <;> rfl
@[simp] theorem State.writeReg_cursor (s : State) (i : RegIdx) (v : Word) : (s.writeReg i v).cursor = s.cursor := by
  unfold State.writeReg; split <;> rfl
@[simp] theorem State.writeReg_stepPc (s : State) (i : RegIdx) (v : Word) : (s.writeReg i v).stepPc = s.stepPc := by
  unfold State.writeReg; split <;> rfl
@[simp] theorem State.writeReg_trace (s : State) (i : RegIdx) (v : Word) : (s.writeReg i v).trace = s.trace := by
  unfold State.writeReg; split <;> rfl
@[simp] theorem State.writeReg_result (s : State) (i : RegIdx) (v : Word) : (s.writeReg i v).result = s.result := by
  unfold State.writeReg; split <;> rfl

/-- A write of x[i] changes no other register, and none when i = 0 (10_state.md R22). -/
theorem State.writeReg_regs_get (s : State) (i r : RegIdx) (v : Word) :
    (s.writeReg i v).regs[r] = if r = i ∧ i ≠ 0 then v else s.regs[r] := by
  unfold State.writeReg
  by_cases hi : i = 0
  · simp [hi]
  · rw [if_neg hi, State.setReg_regs]
    by_cases hr : r = i
    · subst hr; simp [hi]
    · have hv : i.val ≠ r.val := fun h => hr (Fin.ext h.symm)
      rw [if_neg (fun h => hr h.1)]
      simp [hv]

/-! ### `State.setSlot` and `State.setStoreWord` -/

@[simp] theorem State.setSlot_cfg (s : State) (sl : Slot) (v : Word) : (s.setSlot sl v).cfg = s.cfg := by
  cases sl <;> rfl
@[simp] theorem State.setSlot_mem (s : State) (sl : Slot) (v : Word) : (s.setSlot sl v).mem = s.mem := by
  cases sl <;> rfl
@[simp] theorem State.setSlot_caller (s : State) (sl : Slot) (v : Word) : (s.setSlot sl v).caller = s.caller := by
  cases sl <;> rfl
@[simp] theorem State.setSlot_log (s : State) (sl : Slot) (v : Word) : (s.setSlot sl v).log = s.log := by
  cases sl <;> rfl
@[simp] theorem State.setSlot_cursor (s : State) (sl : Slot) (v : Word) : (s.setSlot sl v).cursor = s.cursor := by
  cases sl <;> rfl
@[simp] theorem State.setSlot_stepPc (s : State) (sl : Slot) (v : Word) : (s.setSlot sl v).stepPc = s.stepPc := by
  cases sl <;> rfl
@[simp] theorem State.setSlot_trace (s : State) (sl : Slot) (v : Word) : (s.setSlot sl v).trace = s.trace := by
  cases sl <;> rfl
@[simp] theorem State.setSlot_result (s : State) (sl : Slot) (v : Word) : (s.setSlot sl v).result = s.result := by
  cases sl <;> rfl

@[simp] theorem State.setStoreWord_cfg (s : State) (a v : Word) : (s.setStoreWord a v).cfg = s.cfg := by
  unfold State.setStoreWord; split <;> simp
@[simp] theorem State.setStoreWord_caller (s : State) (a v : Word) : (s.setStoreWord a v).caller = s.caller := by
  unfold State.setStoreWord; split <;> simp
@[simp] theorem State.setStoreWord_log (s : State) (a v : Word) : (s.setStoreWord a v).log = s.log := by
  unfold State.setStoreWord; split <;> simp
@[simp] theorem State.setStoreWord_cursor (s : State) (a v : Word) : (s.setStoreWord a v).cursor = s.cursor := by
  unfold State.setStoreWord; split <;> simp
@[simp] theorem State.setStoreWord_stepPc (s : State) (a v : Word) : (s.setStoreWord a v).stepPc = s.stepPc := by
  unfold State.setStoreWord; split <;> simp
@[simp] theorem State.setStoreWord_trace (s : State) (a v : Word) : (s.setStoreWord a v).trace = s.trace := by
  unfold State.setStoreWord; split <;> simp
@[simp] theorem State.setStoreWord_result (s : State) (a v : Word) : (s.setStoreWord a v).result = s.result := by
  unfold State.setStoreWord; split <;> simp

/-! ### `State.conclude` -/

/-- A Step that reached a successful end has a result, and nothing else changed. -/
theorem State.conclude_eq (s : State) (c : Word) (h : Bool) :
    s.conclude c h = s.finish (if s.cursor = s.log.length then .ok c h
        else .error (.endOfLogInvariantViolation s.cursor s.log.length)) := by
  unfold State.conclude State.raise
  split <;> simp_all

end Sys2Proof.Machine
end

