-- ==== Sys2Proof/Laws/Memory.lean ====
section
/-!
SUPPORT. The laws of memory: every operation keeps the canonical form, a read after a write gives the byte or
word written, and no other address changes.
-/

namespace Sys2Proof.Machine

/-! ### The canonical form -/

theorem Memory.wf_cons (k : Nat) (b : Byte) (m : Memory) :
    Memory.wf ((k, b) :: m) = true ↔
      k < 2 ^ 64 ∧ b ≠ unlistedByte ∧ (∀ c ∈ m, k < c.1) ∧ Memory.wf m = true := by
  simp [Memory.wf, and_assoc]

/-- Every listed address after a write was listed before or is the one written. -/
theorem Memory.mem_writeByte {m : Memory} {a : Nat} {b : Byte} {c : Host.Cell}
    (h : c ∈ m.writeByte a b) : c ∈ m ∨ c.1 = a := by
  induction m with
  | nil =>
    simp only [Memory.writeByte] at h
    split at h <;> simp_all
  | cons d m ih =>
    obtain ⟨k, x⟩ := d
    simp only [Memory.writeByte] at h
    split at h
    · split at h
      · exact .inl h
      · rcases List.mem_cons.mp h with rfl | h
        · exact .inr rfl
        · exact .inl h
    · split at h
      · split at h
        · exact .inl (List.mem_cons_of_mem _ h)
        · rcases List.mem_cons.mp h with rfl | h
          · exact .inr rfl
          · exact .inl (List.mem_cons_of_mem _ h)
      · simp only [List.mem_cons] at h ⊢
        rcases h with h | h
        · exact .inl (.inl h)
        · rcases ih h with h | h
          · exact .inl (.inr h)
          · exact .inr h

theorem Memory.writeByte_wf {m : Memory} (a : Nat) (b : Byte) (ha : a < 2 ^ 64)
    (h : m.wf = true) : (m.writeByte a b).wf = true := by
  induction m with
  | nil =>
    simp only [Memory.writeByte]
    split
    · rfl
    · rw [Memory.wf_cons]; simp_all [Memory.wf]
  | cons d m ih =>
    obtain ⟨k, x⟩ := d
    rw [Memory.wf_cons] at h
    obtain ⟨hk, hx, hlt, hm⟩ := h
    simp only [Memory.writeByte]
    split
    · rename_i hak
      split
      · rw [Memory.wf_cons]; exact ⟨hk, hx, hlt, hm⟩
      · rename_i hb
        rw [Memory.wf_cons, Memory.wf_cons]
        refine ⟨ha, hb, ?_, hk, hx, hlt, hm⟩
        intro c hc
        rcases List.mem_cons.mp hc with rfl | hc
        · exact hak
        · exact lt_trans hak (hlt c hc)
    · split
      · rename_i heq
        split
        · exact hm
        · rename_i hb
          rw [Memory.wf_cons]; exact ⟨ha, hb, fun c hc => heq ▸ hlt c hc, hm⟩
      · rename_i h1 h2
        rw [Memory.wf_cons]
        refine ⟨hk, hx, ?_, ih hm⟩
        intro c hc
        rcases Memory.mem_writeByte hc with hc | hc
        · exact hlt c hc
        · omega

theorem byteAddr_lt (a : Word) (k : Nat) : byteAddr a k < 2 ^ 64 := (a + BitVec.ofNat 64 k).isLt

theorem Memory.writeBytes_wf {m : Memory} (a v : Word) (n : Nat) (h : m.wf = true) :
    (m.writeBytes a v n).wf = true := by
  induction n with
  | zero => exact h
  | succ n ih => exact Memory.writeByte_wf _ _ (byteAddr_lt a n) ih

theorem Memory.writeWord_wf {m : Memory} (a v : Word) (h : m.wf = true) :
    (m.writeWord a v).wf = true := Memory.writeBytes_wf a v 8 h

theorem Memory.placeInstr_wf {m : Memory} (a : Word) (bits : InstrWord) (h : m.wf = true) :
    (m.placeInstr a bits).wf = true := Memory.writeBytes_wf a _ 4 h

theorem State.setStoreWord_mem_wf (s : State) (a v : Word) (h : s.mem.wf = true) :
    (s.setStoreWord a v).mem.wf = true := by
  unfold State.setStoreWord
  split
  · simpa using h
  · exact Memory.writeWord_wf a v h

/-! ### Reading back -/

/-- Below the first listed address nothing is listed. -/
theorem Memory.readByte_below {m : Memory} {a : Nat} (h : ∀ c ∈ m, a < c.1) :
    m.readByte a = unlistedByte := by
  induction m with
  | nil => rfl
  | cons d m ih =>
    obtain ⟨k, x⟩ := d
    have hk : a < k := h (k, x) (by simp)
    simp only [Memory.readByte, if_neg (Nat.ne_of_gt hk)]
    exact ih fun c hc => h c (List.mem_cons_of_mem _ hc)

/-- A read after a write of one byte. -/
theorem Memory.readByte_writeByte {m : Memory} (h : m.wf = true) (a a' : Nat) (b : Byte) :
    (m.writeByte a b).readByte a' = if a' = a then b else m.readByte a' := by
  induction m with
  | nil =>
    simp only [Memory.writeByte]
    by_cases hb : b = unlistedByte <;> by_cases ha : a' = a <;>
      simp [hb, ha, Memory.readByte, eq_comm]
    intro hc; exact absurd hc.symm ha
  | cons d m ih =>
    obtain ⟨k, x⟩ := d
    rw [Memory.wf_cons] at h
    obtain ⟨hk, hx, hlt, hm⟩ := h
    simp only [Memory.writeByte]
    split
    · rename_i hak
      have hbelow : Memory.readByte ((k, x) :: m) a = unlistedByte := by
        apply Memory.readByte_below
        intro c hc
        rcases List.mem_cons.mp hc with rfl | hc
        · exact hak
        · exact lt_trans hak (hlt c hc)
      split
      · rename_i hb
        by_cases ha : a' = a
        · rw [ha, hbelow, if_pos rfl, hb]
        · rw [if_neg ha]
      · by_cases ha : a' = a
        · simp [ha, Memory.readByte]
        · rw [if_neg ha, Memory.readByte, if_neg (fun hc => ha hc.symm)]
    · split
      · rename_i heq
        subst heq
        split
        · rename_i hb
          by_cases ha : a' = a
          · rw [ha, if_pos rfl, hb]; exact Memory.readByte_below hlt
          · rw [if_neg ha, Memory.readByte, if_neg (fun hc => ha hc.symm)]
        · by_cases ha : a' = a
          · simp [ha, Memory.readByte]
          · rw [if_neg ha, Memory.readByte, Memory.readByte, if_neg (fun hc => ha hc.symm),
              if_neg (fun hc => ha hc.symm)]
      · rename_i h1 h2
        simp only [Memory.readByte]
        rw [ih hm]
        by_cases hk' : k = a'
        · rw [if_pos hk', if_neg (by omega), if_pos hk']
        · rw [if_neg hk', if_neg hk']

/-- The byte addresses of one word are distinct. -/
theorem byteAddr_inj (a : Word) {j k : Nat} (hj : j < 8) (hk : k < 8)
    (h : byteAddr a j = byteAddr a k) : j = k := by
  simp only [byteAddr, BitVec.toNat_add, BitVec.toNat_ofNat] at h
  have := a.isLt
  omega

/-- The byte addresses of an aligned word, and their separation from another aligned word's. -/
theorem byteAddr_aligned (a : Word) (h : a.toNat % 8 = 0) {k : Nat} (hk : k < 8) :
    byteAddr a k = a.toNat + k := by
  simp only [byteAddr, BitVec.toNat_add, BitVec.toNat_ofNat]
  have := a.isLt
  omega

theorem byteAddr_ne (a b : Word) (ha : a.toNat % 8 = 0) (hb : b.toNat % 8 = 0) (hab : b ≠ a)
    {j k : Nat} (hj : j < 8) (hk : k < 8) : byteAddr b k ≠ byteAddr a j := by
  rw [byteAddr_aligned a ha hj, byteAddr_aligned b hb hk]
  have : b.toNat ≠ a.toNat := fun h => hab (BitVec.eq_of_toNat_eq h)
  omega

/-- A read after storing the low `n` bytes of a word, `n` at most 8. -/
theorem Memory.readByte_writeBytes {m : Memory} (h : m.wf = true) (a v : Word) (n : Nat)
    (hn : n ≤ 8) (x : Nat) :
    (∀ k < n, x = byteAddr a k → (m.writeBytes a v n).readByte x = byteOf v k) ∧
    ((∀ k < n, x ≠ byteAddr a k) → (m.writeBytes a v n).readByte x = m.readByte x) := by
  induction n with
  | zero => exact ⟨fun k hk => absurd hk (Nat.not_lt_zero k), fun _ => rfl⟩
  | succ n ih =>
    obtain ⟨ih1, ih2⟩ := ih (by omega)
    have hstep : (m.writeBytes a v (n + 1)).readByte x
        = if x = byteAddr a n then byteOf v n else (m.writeBytes a v n).readByte x :=
      Memory.readByte_writeByte (Memory.writeBytes_wf a v n h) _ _ _
    constructor
    · intro k hk hx
      rw [hstep]
      by_cases hkn : k = n
      · rw [if_pos (hkn ▸ hx), hkn]
      · rw [if_neg, ih1 k (by omega) hx]
        intro hc
        exact hkn (byteAddr_inj a (by omega) (by omega) (hx ▸ hc))
    · intro hx
      rw [hstep, if_neg (hx n (by omega)), ih2 fun k hk => hx k (by omega)]

/-- A word is its bytes, the last the most significant. -/
theorem bytes_append (v : Word) :
    byteOf v 7 ++ byteOf v 6 ++ byteOf v 5 ++ byteOf v 4 ++ byteOf v 3 ++ byteOf v 2
      ++ byteOf v 1 ++ byteOf v 0 = v := by
  apply BitVec.eq_of_getLsbD_eq
  intro i hi
  simp only [byteOf, BitVec.getLsbD_append, BitVec.getLsbD_extractLsb']
  repeat' split
  all_goals (rw [decide_eq_true (by omega), Bool.true_and]; congr 1; omega)

/-- Byte `k` of a word read from memory. -/
theorem Memory.byteOf_readWord (m : Memory) (a : Word) {k : Nat} (hk : k < 8) :
    byteOf (m.readWord a) k = m.readByte (byteAddr a k) := by
  apply BitVec.eq_of_getLsbD_eq
  intro i hi
  simp only [byteOf, Memory.readWord, BitVec.getLsbD_extractLsb', BitVec.getLsbD_append,
    decide_eq_true hi, Bool.true_and]
  rcases (by omega : k = 0 ∨ k = 1 ∨ k = 2 ∨ k = 3 ∨ k = 4 ∨ k = 5 ∨ k = 6 ∨ k = 7) with
    rfl | rfl | rfl | rfl | rfl | rfl | rfl | rfl <;>
  · repeat' split
    all_goals first | omega | (congr 1; omega)

/-- Words with equal bytes are equal. -/
theorem word_ext {v w : Word} (h : ∀ k < 8, byteOf v k = byteOf w k) : v = w := by
  rw [← bytes_append v, ← bytes_append w, h 0 (by omega), h 1 (by omega), h 2 (by omega),
    h 3 (by omega), h 4 (by omega), h 5 (by omega), h 6 (by omega), h 7 (by omega)]

/-- A read after a write of an aligned word (40_verifier_facade.md R131). -/
theorem Memory.readWord_writeWord {m : Memory} (h : m.wf = true) (a b v : Word)
    (ha : a.toNat % 8 = 0) (hb : b.toNat % 8 = 0) :
    (m.writeWord a v).readWord b = if b = a then v else m.readWord b := by
  apply word_ext
  intro k hk
  rw [Memory.byteOf_readWord _ _ hk]
  by_cases hab : b = a
  · rw [if_pos hab, hab]
    exact (Memory.readByte_writeBytes h a v 8 (le_refl 8) _).1 k hk rfl
  · rw [if_neg hab, Memory.byteOf_readWord _ _ hk]
    exact (Memory.readByte_writeBytes h a v 8 (le_refl 8) _).2
      fun j hj => byteAddr_ne a b ha hb hab hj hk

end Sys2Proof.Machine
end

