-- ==== Sys2Proof/Laws/Ops.lean ====
section
/-!
SUPPORT. For each shared operation, once, everything it can do: `<op>_spec` (if it answers, then …, and if it
raises, then …), `<op>_of_admits` (it answers where the log side lets its touch through) and
`consumeWrite_of_rejects` (it raises where the log refuses the write).
-/

namespace Sys2Proof.Machine

/-! ### Results -/

@[simp] theorem Result.ok_andThen {α β : Type} (a : α) (s : State) (k : α → State → Result β) :
    (Result.ok a s).andThen k = k a s := rfl

@[simp] theorem Result.raised_andThen {α β : Type} (e : StepError) (s : State)
    (k : α → State → Result β) : (Result.raised e s : Result α).andThen k = .raised e s := rfl

@[simp] theorem Result.settle_ok (u : Unit) (s : State) : (Result.ok u s).settle = .next s := rfl

@[simp] theorem Result.settle_raised (e : StepError) (s : State) :
    (Result.raised e s).settle = .next (s.raise e) := rfl

/-- What holds of an operation's outcome: `P` of a value and its state, `E` of an error and its state. -/
def Result.Spec {α : Type} (r : Result α) (P : α → State → Prop) (E : StepError → State → Prop) : Prop :=
  match r with
  | .ok a s => P a s
  | .raised e s => E e s

@[simp] theorem Result.spec_ok {α : Type} (a : α) (s : State) (P : α → State → Prop)
    (E : StepError → State → Prop) : (Result.ok a s).Spec P E = P a s := rfl

@[simp] theorem Result.spec_raised {α : Type} (e : StepError) (s : State) (P : α → State → Prop)
    (E : StepError → State → Prop) : (Result.raised e s : Result α).Spec P E = E e s := rfl

/-- Specs compose along `andThen`. -/
theorem Result.Spec.andThen {α β : Type} {r : Result α} {k : α → State → Result β}
    {P : α → State → Prop} {Q : β → State → Prop} {E : StepError → State → Prop}
    (h : r.Spec P E) (hk : ∀ a s, P a s → (k a s).Spec Q E) : (r.andThen k).Spec Q E := by
  cases r with
  | ok a s => exact hk a s h
  | raised e s => exact h

theorem Result.Spec.mono {α : Type} {r : Result α} {P P' : α → State → Prop}
    {E E' : StepError → State → Prop} (h : r.Spec P E) (hP : ∀ a s, P a s → P' a s)
    (hE : ∀ e s, E e s → E' e s) : r.Spec P' E' := by
  cases r with
  | ok a s => exact hP a s h
  | raised e s => exact hE e s h

/-- An executor's outcome is always a next state: the one it left, or that state with the error raised. -/
theorem Result.Spec.settle {r : Result Unit} {P : Unit → State → Prop} {E : StepError → State → Prop}
    (h : r.Spec P E) :
    ∃ t, r.settle = .next t ∧ (P () t ∨ ∃ e u, E e u ∧ t = u.raise e) := by
  cases r with
  | ok a s => exact ⟨s, rfl, .inl h⟩
  | raised e s => exact ⟨s.raise e, rfl, .inr ⟨e, s, h, rfl⟩⟩

/-! ### Touches -/

theorem State.touched_touched (s : State) (ts us : List Touch) :
    (s.touched ts).touched us = s.touched (ts ++ us) := by
  simp only [State.touched, List.length_append, List.map_append, Nat.add_assoc, List.append_assoc]
  split <;> simp [*]

@[simp] theorem State.touched_nil (s : State) : s.touched [] = s := by
  simp [State.touched]

/-- A claimed log lets touches through when it holds their entries from the cursor on. -/
theorem State.admits_claims {s : State} {q : List AccessLog} (h : s.caller = .claims q)
    (ts : List Touch) :
    s.admits ts = true ↔ ts.map Touch.entry <+: s.log.drop s.cursor := by
  simp [State.admits, h, List.isPrefixOf_iff_prefix]

/-- The first touch let through by a claimed log is the entry at the cursor. -/
theorem State.entry_of_admits {s : State} {q : List AccessLog} (h : s.caller = .claims q)
    {t : Touch} {ts : List Touch} (ha : s.admits (t :: ts) = true) :
    s.log[s.cursor]? = some t.entry := by
  rw [State.admits_claims h] at ha
  obtain ⟨r, hr⟩ := ha
  have := congrArg (·[0]?) hr
  simpa [List.getElem?_drop] using this.symm

/-- After the first touch the log side still lets the others through, whatever changed in the store but
the answers they depend on. -/
theorem State.admits_rest {s u : State} {t : Touch} {ts : List Touch}
    (ha : s.admits (t :: ts) = true) (hc : u.caller = s.caller) (hl : u.caller ≠ .honest → u.log = s.log)
    (hn : u.caller ≠ .honest → u.cursor = s.cursor + 1)
    (hans : u.caller = .honest → ∀ x ∈ ts, u.answer x.op = s.answer x.op) : u.admits ts = true := by
  cases hcs : s.caller with
  | honest =>
    have hcu : u.caller = .honest := hc.trans hcs
    simp only [State.admits, hcs, hcu, List.all_cons, Bool.and_eq_true] at ha ⊢
    rw [List.all_eq_true] at ha ⊢
    intro x hx
    rw [hans hcu x hx]
    exact ha.2 x hx
  | claims q =>
    have hcu : u.caller = .claims q := hc.trans hcs
    have hne : u.caller ≠ .honest := by simp [hcu]
    rw [State.admits_claims hcu, hl hne, hn hne]
    rw [State.admits_claims hcs] at ha
    obtain ⟨r, hr⟩ := ha
    refine ⟨r, ?_⟩
    rw [← List.drop_drop, ← hr]
    simp

/-- Reading one entry changes no answer of the store. -/
theorem State.admits_touched {s : State} {t : Touch} {ts : List Touch}
    (ha : s.admits (t :: ts) = true) : (s.touched [t]).admits ts = true := by
  refine State.admits_rest ha rfl ?_ (fun _ => rfl) fun _ x _ => ?_
  · intro h
    exact if_neg (show ¬ s.caller = .honest from h)
  · cases x.op <;> rfl

/-! ### The verifier -/

/-- `consumeRead` on the state after its provider operation. -/
theorem consumeRead_spec (pos answer : Word) (op : ProviderOp) (s : State) :
    (consumeRead pos answer (s.issue op)).Spec
      (fun v t => t = s.touched [⟨op, pos, v, .read⟩] ∧ (s.caller = .honest → v = answer) ∧
        (s.caller ≠ .honest → s.log[s.cursor]? = some ⟨pos, v, .read⟩))
      (fun e t => t = s.issue op ∧ e.index = some s.cursor ∧ s.caller ≠ .honest) := by
  unfold consumeRead
  cases hc : (s.issue op).caller with
  | honest =>
    have hc' : s.caller = .honest := hc
    simp [State.touched, State.record, State.issue, hc']
  | claims q =>
    have hc' : s.caller = .claims q := hc
    simp only [State.issue_log, State.issue_cursor]
    cases hl : s.log[s.cursor]? with
    | none => simp [StepError.index, hc']
    | some e =>
      dsimp only
      split
      · simp [StepError.index, hc']
      · split
        · simp [StepError.index, hc']
        · rename_i hk hp
          simp only [Decidable.not_not] at hk hp
          simp only [Result.spec_ok, State.touched, State.consumed, State.issue, hc']
          refine ⟨by simp, by simp, fun _ => ?_⟩
          rw [← hk, ← hp]

/-- `consumeWrite` on the state after its provider operation, which changed the store to `u`. -/
theorem consumeWrite_spec (pos v : Word) (u : State) :
    (consumeWrite pos v u).Spec
      (fun _ t => t = { u with
          log := if u.caller = .honest then u.log ++ [⟨pos, v, .write⟩] else u.log
          cursor := u.cursor + 1 } ∧
        (u.caller ≠ .honest → u.log[u.cursor]? = some ⟨pos, v, .write⟩))
      (fun e t => t = u ∧ e.index = some u.cursor ∧ u.caller ≠ .honest) := by
  unfold consumeWrite
  cases hc : u.caller with
  | honest => simp [State.record, hc]
  | claims q =>
    dsimp only
    cases hl : u.log[u.cursor]? with
    | none => simp [StepError.index]
    | some e =>
      dsimp only
      split
      · simp [StepError.index]
      · split
        · simp [StepError.index]
        · split
          · simp [StepError.index]
          · rename_i hk hp hv
            simp only [Decidable.not_not] at hk hp hv
            simp only [Result.spec_ok, State.consumed, hc]
            refine ⟨by simp, fun _ => ?_⟩
            rw [← hk, ← hp, ← hv]

/-- `consumeRead` answers where its touch is let through. -/
theorem consumeRead_of_admits {pos answer v : Word} {op : ProviderOp} {s : State} {ts : List Touch}
    (hans : s.answer op = some answer) (ha : s.admits (⟨op, pos, v, .read⟩ :: ts) = true) :
    consumeRead pos answer (s.issue op) = .ok v (s.touched [⟨op, pos, v, .read⟩]) := by
  unfold consumeRead
  cases hc : (s.issue op).caller with
  | honest =>
    have hc' : s.caller = .honest := hc
    simp only [State.admits, hc', List.all_cons, hans, Bool.and_eq_true, beq_iff_eq] at ha
    simp [State.touched, State.record, State.issue, hc', ha.1]
  | claims q =>
    have hc' : s.caller = .claims q := hc
    simp only [State.issue_log, State.issue_cursor, State.entry_of_admits hc' ha]
    simp [State.touched, State.consumed, State.issue, hc']

/-- `consumeWrite` answers where its entry stands at the cursor. -/
theorem consumeWrite_of_admits {pos v : Word} {op : ProviderOp} {u : State} {ts : List Touch}
    (ha : u.admits (⟨op, pos, v, .write⟩ :: ts) = true) :
    consumeWrite pos v u = .ok () { u with
      log := if u.caller = .honest then u.log ++ [⟨pos, v, .write⟩] else u.log
      cursor := u.cursor + 1 } := by
  unfold consumeWrite
  cases hc : u.caller with
  | honest => simp [State.record, hc]
  | claims q => simp [State.entry_of_admits hc ha, State.consumed, hc]

/-! ### The facade: reads -/

/-- The error side of a read: only the provider operation happened. -/
def readFails (s : State) (op : ProviderOp) (e : StepError) (t : State) : Prop :=
  t = s.issue op ∧ e.index = some s.cursor ∧ s.caller ≠ .honest

theorem readCycle_spec (s : State) : (readCycle s).Spec
    (fun v t => t = s.touched [touchReadCycle s.cfg v] ∧ (s.caller = .honest → v = s.cycle) ∧
      (s.caller ≠ .honest → s.log[s.cursor]? = some (touchReadCycle s.cfg v).entry))
    (readFails s .readCycle) := consumeRead_spec _ _ _ _

theorem readPc_spec (s : State) : (readPc s).Spec
    (fun v t => t = s.touched [touchReadPc s.cfg v] ∧ (s.caller = .honest → v = s.pc) ∧
      (s.caller ≠ .honest → s.log[s.cursor]? = some (touchReadPc s.cfg v).entry))
    (readFails s .readPc) := consumeRead_spec _ _ _ _

theorem readWord_spec (a : Word) (s : State) : (readWord a s).Spec
    (fun v t => t = s.touched [touchReadWord a v] ∧ (s.caller = .honest → v = s.storeWord a) ∧
      (s.caller ≠ .honest → s.log[s.cursor]? = some (touchReadWord a v).entry))
    (readFails s (.readWord a)) := consumeRead_spec _ _ _ _

theorem readHalt_spec (s : State) : (readHalt s).Spec
    (fun b t => ∃ v, b = (v != 0#64) ∧ t = s.touched [touchReadHalt s.cfg v] ∧
      (s.caller = .honest → v = s.halt) ∧
      (s.caller ≠ .honest → s.log[s.cursor]? = some (touchReadHalt s.cfg v).entry))
    (readFails s .readHaltFlag) :=
  (consumeRead_spec _ _ _ _).andThen fun v _ ⟨ht, hv, hl⟩ => ⟨v, rfl, ht, hv, hl⟩

theorem readX_spec (i : RegIdx) (s : State) : (readX i s).Spec
    (fun b t => ∃ v, b = regReadValue s.cfg i v ∧ t = s.touched [touchReadX s.cfg i v] ∧
      (s.caller = .honest → v = s.regs[i]) ∧
      (s.caller ≠ .honest → s.log[s.cursor]? = some (touchReadX s.cfg i v).entry))
    (readFails s (.readRegister i)) :=
  (consumeRead_spec _ _ _ _).andThen fun v _ ⟨ht, hv, hl⟩ =>
    ⟨v, by rw [ht]; rfl, ht, hv, hl⟩

theorem readCycle_of_admits {v : Word} {s : State} {ts : List Touch}
    (ha : s.admits (touchReadCycle s.cfg v :: ts) = true) :
    readCycle s = .ok v (s.touched [touchReadCycle s.cfg v]) := consumeRead_of_admits rfl ha

theorem readPc_of_admits {v : Word} {s : State} {ts : List Touch}
    (ha : s.admits (touchReadPc s.cfg v :: ts) = true) :
    readPc s = .ok v (s.touched [touchReadPc s.cfg v]) := consumeRead_of_admits rfl ha

theorem readWord_of_admits {a v : Word} {s : State} {ts : List Touch}
    (ha : s.admits (touchReadWord a v :: ts) = true) :
    readWord a s = .ok v (s.touched [touchReadWord a v]) := consumeRead_of_admits rfl ha

theorem readHalt_of_admits {v : Word} {s : State} {ts : List Touch}
    (ha : s.admits (touchReadHalt s.cfg v :: ts) = true) :
    readHalt s = .ok (v != 0#64) (s.touched [touchReadHalt s.cfg v]) := by
  unfold readHalt
  rw [consumeRead_of_admits (s := s) (op := .readHaltFlag) rfl ha]
  rfl

theorem readX_of_admits {i : RegIdx} {v : Word} {s : State} {ts : List Touch}
    (ha : s.admits (touchReadX s.cfg i v :: ts) = true) :
    readX i s = .ok (regReadValue s.cfg i v) (s.touched [touchReadX s.cfg i v]) := by
  unfold readX
  rw [consumeRead_of_admits (s := s) (op := .readRegister i) rfl ha]
  rfl

/-! ### The facade: writes -/

/-- The error side of a write: the provider operation and its store effect happened (R130). -/
def writeFails (s u : State) (e : StepError) (t : State) : Prop :=
  t = u ∧ e.index = some s.cursor ∧ s.caller ≠ .honest

theorem writeCycle_spec (v : Word) (s : State) : (writeCycle v s).Spec
    (fun _ t => t = (s.touched [touchWriteCycle s.cfg v]).setCycle v ∧
      (s.caller ≠ .honest → s.log[s.cursor]? = some (touchWriteCycle s.cfg v).entry))
    (writeFails s ((s.issue (.writeCycle v)).setCycle v)) :=
  (consumeWrite_spec _ _ _).mono (fun _ _ ⟨ht, hl⟩ => ⟨ht, hl⟩) fun _ _ h => h

theorem writePc_spec (v : Word) (s : State) : (writePc v s).Spec
    (fun _ t => t = (s.touched [touchWritePc s.cfg v]).setPc v ∧
      (s.caller ≠ .honest → s.log[s.cursor]? = some (touchWritePc s.cfg v).entry))
    (writeFails s ((s.issue (.writePc v)).setPc v)) :=
  (consumeWrite_spec _ _ _).mono (fun _ _ ⟨ht, hl⟩ => ⟨ht, hl⟩) fun _ _ h => h

theorem writeX_spec (i : RegIdx) (v : Word) (s : State) : (writeX i v s).Spec
    (fun _ t => t = (s.touched (touchWriteX s.cfg i v)).writeReg i v ∧
      (i ≠ 0 → s.caller ≠ .honest → s.log[s.cursor]? = some ⟨s.cfg.posX[i], v, .write⟩))
    (fun e t => i ≠ 0 ∧
      writeFails s ((s.issue (.writeRegister i v)).setReg i v) e t) := by
  unfold writeX State.writeReg touchWriteX
  by_cases hi : i = 0
  · simp [hi]
  · simp only [if_neg hi]
    refine (consumeWrite_spec _ _ _).mono (fun _ _ ⟨ht, hl⟩ => ⟨ht, fun _ => hl⟩) fun _ _ h => ⟨hi, h⟩

theorem writeWord_spec (a v : Word) (s : State) : (writeWord a v s).Spec
    (fun _ t => t = (s.touched [touchWriteWord a v]).setStoreWord a v ∧
      (s.caller ≠ .honest → s.log[s.cursor]? = some (touchWriteWord a v).entry))
    (writeFails s ((s.issue (.writeWord a v)).setStoreWord a v)) := by
  refine (consumeWrite_spec _ _ _).mono (fun _ _ ⟨ht, hl⟩ => ⟨?_, ?_⟩) fun _ _ h => ?_
  · rw [ht]
    have h1 : (s.issue (.writeWord a v)).slotAt a = s.slotAt a := rfl
    have h2 : (s.touched [touchWriteWord a v]).slotAt a = s.slotAt a := rfl
    simp only [State.setStoreWord, h1, h2]
    cases s.slotAt a with
    | none => rfl
    | some sl => cases sl <;> rfl
  · simpa [touchWriteWord] using hl
  · obtain ⟨h1, h2, h3⟩ := h
    exact ⟨h1, by simpa using h2, by simpa using h3⟩

/-- The provider operation of a write and its store effect leave the log side as it was. -/
theorem State.admits_write {s u : State} {t : Touch} {ts : List Touch} (hc : u.caller = s.caller)
    (hl : u.log = s.log) (hn : u.cursor = s.cursor) (hop : u.answer t.op = none)
    (ha : s.admits (t :: ts) = true) : u.admits [t] = true := by
  cases hcs : s.caller with
  | honest => simp [State.admits, hc, hcs, hop]
  | claims q =>
    rw [State.admits_claims (hc.trans hcs), hl, hn]
    rw [State.admits_claims hcs] at ha
    exact (List.prefix_append [t.entry] _).trans ha

/-- A write the log refuses raises that error and changes nothing more. -/
theorem consumeWrite_of_rejects {pos v : Word} {q : List AccessLog} {e : StepError} {u : State}
    (hc : u.caller = .claims q) (h : u.rejectsWrite pos v e) : consumeWrite pos v u = .raised e u := by
  rcases h with ⟨hl, rfl⟩ | ⟨a, ha, ⟨hk, rfl⟩ | ⟨hk, hp, rfl⟩ | ⟨hk, hp, hv, rfl⟩⟩
  · simp [consumeWrite, hc, hl]
  · simp [consumeWrite, hc, ha, hk]
  · simp [consumeWrite, hc, ha, hk, hp]
  · simp [consumeWrite, hc, ha, hk, hp, hv]

/-- A write answers where its entry stands at the cursor. -/
theorem writeCycle_of_admits {v : Word} {s : State} {ts : List Touch}
    (ha : s.admits (touchWriteCycle s.cfg v :: ts) = true) :
    writeCycle v s = .ok () ((s.touched [touchWriteCycle s.cfg v]).setCycle v) :=
  consumeWrite_of_admits (u := (s.issue (.writeCycle v)).setCycle v)
    (State.admits_write (s := s) (t := touchWriteCycle s.cfg v) rfl rfl rfl rfl ha)

theorem writePc_of_admits {v : Word} {s : State} {ts : List Touch}
    (ha : s.admits (touchWritePc s.cfg v :: ts) = true) :
    writePc v s = .ok () ((s.touched [touchWritePc s.cfg v]).setPc v) :=
  consumeWrite_of_admits (u := (s.issue (.writePc v)).setPc v)
    (State.admits_write (s := s) (t := touchWritePc s.cfg v) rfl rfl rfl rfl ha)

theorem writeX_of_admits {i : RegIdx} {v : Word} {s : State} {ts : List Touch}
    (ha : s.admits (touchWriteX s.cfg i v ++ ts) = true) :
    writeX i v s = .ok () ((s.touched (touchWriteX s.cfg i v)).writeReg i v) := by
  unfold writeX
  by_cases hi : i = 0
  · simp [hi, touchWriteX, State.writeReg]
  · simp only [touchWriteX, State.writeReg, if_neg hi] at ha ⊢
    exact consumeWrite_of_admits
      (u := (s.issue (.writeRegister i v)).setReg i v)
      (State.admits_write (s := s) (t := ⟨.writeRegister i v, s.cfg.posX[i], v, .write⟩) rfl rfl rfl rfl ha)

/-! ### MemRead -/

/-- The alignment condition of R51 as a remainder. -/
theorem Width.aligned_iff (n : Width) (addr : Word) :
    n.aligned addr = true ↔ addr.toNat % n.bytes = 0 := by
  cases n <;>
    simp [Width.aligned, Width.bytes, ← BitVec.toNat_inj, BitVec.extractLsb'_toNat, Nat.mod_one]

/-- `MemRead` reads the containing word, or raises E5 and touches nothing. -/
theorem memRead_spec (addr : Word) (n : Width) (s : State) : (memRead addr n s).Spec
    (fun b t => ∃ w, n.aligned addr = true ∧ b = n.extract addr w ∧
      t = s.touched [touchReadWord (alignDown addr) w] ∧
      (s.caller = .honest → w = s.storeWord (alignDown addr)) ∧
      (s.caller ≠ .honest → s.log[s.cursor]? = some (touchReadWord (alignDown addr) w).entry))
    (fun e t => (n.aligned addr = false ∧ e = .misalignedAccess n.bits addr ∧ t = s) ∨
      readFails s (.readWord (alignDown addr)) e t) := by
  unfold memRead
  by_cases h : n.aligned addr = true
  · rw [if_pos h]
    exact ((readWord_spec _ s).mono (fun _ _ h => h) fun _ _ h => .inr h).andThen
      fun w t ⟨ht, hv, hl⟩ => ⟨w, h, rfl, ht, hv, hl⟩
  · rw [if_neg h]
    exact .inl ⟨by simpa using h, rfl, rfl⟩

theorem memRead_of_admits {addr w : Word} {n : Width} {s : State} {ts : List Touch}
    (hal : n.aligned addr = true) (ha : s.admits (touchReadWord (alignDown addr) w :: ts) = true) :
    memRead addr n s
      = .ok (n.extract addr w) (s.touched [touchReadWord (alignDown addr) w]) := by
  unfold memRead
  rw [if_pos hal, readWord_of_admits ha]
  rfl

/-! ### Pure word functions of the operands -/

theorem lowMask_getLsbD (n k : Nat) (hk : k < 64) : (lowMask n).getLsbD k = decide (k < n) := by
  simp only [lowMask, BitVec.getLsbD_ofNat, Nat.testBit_two_pow_sub_one, decide_eq_true hk,
    Bool.true_and]

theorem and_63_eq_mod (c : Nat) : c &&& 63 = c % 64 := Nat.and_two_pow_sub_one_eq_mod c 6

theorem shl64_getLsbD (v : Word) (c k : Nat) (hk : k < 64) :
    (shl64 v c).getLsbD k = (decide (c % 64 ≤ k) && v.getLsbD (k - c % 64)) := by
  simp only [shl64, and_63_eq_mod, BitVec.getLsbD_shiftLeft, decide_eq_true hk, Bool.true_and]
  by_cases h : k < c % 64
  · simp [h, Nat.not_le.mpr h]
  · simp [h, Nat.not_lt.mp h]

end Sys2Proof.Machine
end

