-- ==== Sys2Proof/Laws/Controller.lean ====
section
/-!
SUPPORT. What the executors and the Step Controller are composed of: the two writes that end an executor, the
fetch, and the front of a Step, each as what it can do and where it answers.
-/

namespace Sys2Proof.Machine

/-! ### The end of an executor that writes a register -/

/-- A register write and then a pc write computed from the Step's own pc answer where their touches are let
through. -/
theorem writeX_writePc_of_admits {s : State} {rd : RegIdx} {v : Word} {ts : List Touch} (g : Word → Word)
    (hts : ts = touchWriteX s.cfg rd v ++ [touchWritePc s.cfg (g s.stepPc)])
    (ha : s.admits ts = true) :
    ((writeX rd v s).andThen fun _ u => writePc (g u.stepPc) u)
      = .ok () (((s.touched ts).writeReg rd v).setPc (g s.stepPc)) := by
  subst hts
  rw [writeX_of_admits ha]
  have hadm : ((s.touched (touchWriteX s.cfg rd v)).writeReg rd v).admits
      [touchWritePc s.cfg (g s.stepPc)] = true := by
    by_cases hr : rd = 0
    · have h1 : touchWriteX s.cfg rd v = [] := by simp [touchWriteX, hr]
      rw [h1] at ha ⊢
      simpa [hr, State.writeReg] using ha
    · have h1 : touchWriteX s.cfg rd v = [⟨.writeRegister rd v, s.cfg.posX[rd], v, .write⟩] := by
        simp [touchWriteX, hr]
      rw [h1] at ha ⊢
      refine State.admits_rest (s := s) ha (by simp) ?_ (by simp) ?_
      · intro h
        simp only [State.writeReg_caller, State.touched_caller] at h
        simp [h]
      · intro _ x hx
        simp only [List.mem_singleton] at hx
        subst hx
        rfl
  rw [Result.ok_andThen]
  have hpc := writePc_of_admits (s := (s.touched (touchWriteX s.cfg rd v)).writeReg rd v)
    (v := g s.stepPc) (ts := []) (by simpa using hadm)
  simp only [State.writeReg_cfg, State.touched_cfg, State.writeReg_stepPc, State.touched_stepPc]
    at hpc ⊢
  rw [hpc, ← State.touched_touched]
  unfold State.writeReg
  split <;> rfl

/-! ### Fetch and front (45_step_controller.md R211 to R214) -/

/-- The instruction word a fetch takes from the containing word. -/
theorem extract_word_eq_instrWordAt (p w : Word) (h : Width.word.aligned p = true) :
    (Width.word.extract p w).setWidth 32 = instrWordAt p w := by
  have hp : p.toNat % 4 = 0 := (Width.aligned_iff .word p).mp h
  have hl : (p &&& 7#64).toNat = p.toNat % 8 := by
    rw [BitVec.toNat_and]; exact Nat.and_two_pow_sub_one_eq_mod p.toNat 3
  have hb : p.getLsbD 2 = decide (4 ≤ p.toNat % 8) := by
    rw [BitVec.getLsbD, Nat.testBit_eq_decide_div_mod_eq]
    congr 1
    apply propext
    omega
  apply BitVec.eq_of_getLsbD_eq
  intro i hi
  simp only [Width.extract, BitVec.getLsbD_setWidth, decide_eq_true hi, Bool.true_and,
    BitVec.getLsbD_and, lowMask_getLsbD _ _ (by omega : i < 64), Width.bits, Width.bytes,
    Bool.and_true, shr64, and_63_eq_mod,
    BitVec.getLsbD_ushiftRight, laneShift, hl, instrWordAt, hb]
  rcases (by omega : p.toNat % 8 = 0 ∨ p.toNat % 8 = 4) with h8 | h8
  · simp [h8, hi]
  · simp [h8, hi]

/-- The fetch answers where the pc's and the word's touches are let through. -/
theorem fetch_of_admits {s : State} {p w : Word} {ts : List Touch} (hp : Width.word.aligned p = true)
    (ha : s.admits (touchReadPc s.cfg p :: touchReadWord (alignDown p) w :: ts) = true) :
    fetch s = .ok (instrWordAt p w)
      ((s.touched [touchReadPc s.cfg p, touchReadWord (alignDown p) w]).setStepPc p) := by
  unfold fetch
  rw [readPc_of_admits ha, Result.ok_andThen]
  have hrest : ((s.touched [touchReadPc s.cfg p]).setStepPc p).admits
      (touchReadWord (alignDown p) w :: ts) = true := by
    refine State.admits_rest ha rfl ?_ (fun _ => rfl) fun _ x _ => by cases x.op <;> rfl
    intro h
    exact if_neg (show ¬ s.caller = .honest from h)
  rw [memRead_of_admits hp hrest, Result.ok_andThen, extract_word_eq_instrWordAt p w hp]
  exact congrArg (fun u : State => Result.ok (instrWordAt p w) (u.setStepPc p))
    (State.touched_touched s [touchReadPc s.cfg p] [touchReadWord (alignDown p) w])

/-- A misaligned pc ends the fetch after the pc's own entry. -/
theorem fetch_misaligned {s : State} {p : Word} {ts : List Touch} (hp : Width.word.aligned p = false)
    (ha : s.admits (touchReadPc s.cfg p :: ts) = true) :
    fetch s = .raised (.misalignedAccess 32 p)
      ((s.touched [touchReadPc s.cfg p]).setStepPc p) := by
  unfold fetch
  rw [readPc_of_admits ha, Result.ok_andThen, memRead, if_neg (by simp [hp])]
  rfl

/-- The two control cells read, in order (R211). -/
theorem front_of_admits {s : State} {c h : Word} {ts : List Touch}
    (ha : s.admits (touchReadCycle s.cfg c :: touchReadHalt s.cfg h :: ts) = true) :
    front s =
      (let u := s.touched [touchReadCycle s.cfg c, touchReadHalt s.cfg h]
       if h ≠ 0#64 then .ok (.idle c true) u
       else if c = saturatedCycle then .ok (.idle c false) u
       else (fetch u).andThen fun bits u => .ok (.run c bits) u) ∧
    (s.touched [touchReadCycle s.cfg c, touchReadHalt s.cfg h]).admits ts = true := by
  have h2 := State.admits_touched ha
  have h3 := State.admits_touched h2
  rw [State.touched_touched] at h3
  refine ⟨?_, h3⟩
  have hh : readHalt (s.touched [touchReadCycle s.cfg c])
      = .ok (h != 0#64) (s.touched [touchReadCycle s.cfg c, touchReadHalt s.cfg h]) :=
    (readHalt_of_admits (s := s.touched [touchReadCycle s.cfg c]) h2).trans
      (congrArg _ (State.touched_touched s [touchReadCycle s.cfg c] [touchReadHalt s.cfg h]))
  unfold front
  rw [readCycle_of_admits ha, Result.ok_andThen, hh, Result.ok_andThen]
  by_cases h0 : h = 0#64
  · subst h0
    simp only [bne_self_eq_false, Bool.false_eq_true, if_false, ne_eq, not_true_eq_false]
  · simp [h0]

end Sys2Proof.Machine
end

