-- ==== Sys2Proof/Laws/PerInstr.lean ====
section
/-!
SUPPORT. The per-instruction family TableRow: the word of an instruction fits the row of the opcode table
(30_encoding.md R92) that carries its mnemonic, whatever its operands are.
-/

namespace Sys2Proof.Laws.TableRow

open Sys2Proof

/-- The row with the instruction's mnemonic is in the table and the instruction's word fits it. -/
def Statement (i : Instr) : Prop :=
  ∃ r ∈ opcodeTable, r.mnemonic = i.mnemonic ∧ r.fits (encode i) = true

/-- A word seen through the mask of a row without funct3. -/
theorem mask_opcode (x : BitVec 25) (op : BitVec 7) :
    (x ++ op : InstrWord) &&& 0x0000007F = op.setWidth 32 := by
  ext k hk
  simp only [BitVec.getElem_and, BitVec.getElem_append, BitVec.getElem_setWidth]
  interval_cases k <;> simp [BitVec.getLsbD_eq_getElem]

/-- A word of the I format seen through the mask of a row with funct3. -/
theorem mask_funct3_I (x : BitVec 17) (f3 : BitVec 3) (y : BitVec 5) (op : BitVec 7) :
    (x ++ f3 ++ y ++ op : InstrWord) &&& 0x0000707F = (f3 ++ 0#5 ++ op).setWidth 32 := by
  ext k hk
  simp only [BitVec.getElem_and, BitVec.getElem_append, BitVec.getElem_setWidth, BitVec.getLsbD_append]
  interval_cases k <;> simp [BitVec.getLsbD_eq_getElem]

/-- A word of the B format seen through the mask of a row with funct3. -/
theorem mask_funct3_B (x : BitVec 17) (f3 : BitVec 3) (y : BitVec 4) (z : BitVec 1) (op : BitVec 7) :
    (x ++ f3 ++ y ++ z ++ op : InstrWord) &&& 0x0000707F = (f3 ++ 0#5 ++ op).setWidth 32 := by
  ext k hk
  simp only [BitVec.getElem_and, BitVec.getElem_append, BitVec.getElem_setWidth, BitVec.getLsbD_append]
  interval_cases k <;> simp [BitVec.getLsbD_eq_getElem]

theorem lui (rd : RegIdx) (imm : Word) : Statement (.lui rd imm) :=
  ⟨⟨"LUI", 0x0000007F, 0x00000037⟩, by decide, rfl, beq_iff_eq.mpr (mask_opcode ..)⟩

theorem auipc (rd : RegIdx) (imm : Word) : Statement (.auipc rd imm) :=
  ⟨⟨"AUIPC", 0x0000007F, 0x00000017⟩, by decide, rfl, beq_iff_eq.mpr (mask_opcode ..)⟩

theorem jal (rd : RegIdx) (imm : Word) : Statement (.jal rd imm) :=
  ⟨⟨"JAL", 0x0000007F, 0x0000006F⟩, by decide, rfl, beq_iff_eq.mpr (mask_opcode ..)⟩

theorem jalr (rd rs1 : RegIdx) (imm : Word) : Statement (.jalr rd rs1 imm) :=
  ⟨⟨"JALR", 0x0000707F, 0x00000067⟩, by decide, rfl, beq_iff_eq.mpr (mask_funct3_I ..)⟩

theorem beq (rs1 rs2 : RegIdx) (imm : Word) : Statement (.beq rs1 rs2 imm) :=
  ⟨⟨"BEQ", 0x0000707F, 0x00000063⟩, by decide, rfl, beq_iff_eq.mpr (mask_funct3_B ..)⟩

theorem bne (rs1 rs2 : RegIdx) (imm : Word) : Statement (.bne rs1 rs2 imm) :=
  ⟨⟨"BNE", 0x0000707F, 0x00001063⟩, by decide, rfl, beq_iff_eq.mpr (mask_funct3_B ..)⟩

theorem blt (rs1 rs2 : RegIdx) (imm : Word) : Statement (.blt rs1 rs2 imm) :=
  ⟨⟨"BLT", 0x0000707F, 0x00004063⟩, by decide, rfl, beq_iff_eq.mpr (mask_funct3_B ..)⟩

theorem bge (rs1 rs2 : RegIdx) (imm : Word) : Statement (.bge rs1 rs2 imm) :=
  ⟨⟨"BGE", 0x0000707F, 0x00005063⟩, by decide, rfl, beq_iff_eq.mpr (mask_funct3_B ..)⟩

theorem bltu (rs1 rs2 : RegIdx) (imm : Word) : Statement (.bltu rs1 rs2 imm) :=
  ⟨⟨"BLTU", 0x0000707F, 0x00006063⟩, by decide, rfl, beq_iff_eq.mpr (mask_funct3_B ..)⟩

theorem bgeu (rs1 rs2 : RegIdx) (imm : Word) : Statement (.bgeu rs1 rs2 imm) :=
  ⟨⟨"BGEU", 0x0000707F, 0x00007063⟩, by decide, rfl, beq_iff_eq.mpr (mask_funct3_B ..)⟩

theorem lb (rd rs1 : RegIdx) (imm : Word) : Statement (.lb rd rs1 imm) :=
  ⟨⟨"LB", 0x0000707F, 0x00000003⟩, by decide, rfl, beq_iff_eq.mpr (mask_funct3_I ..)⟩

theorem lh (rd rs1 : RegIdx) (imm : Word) : Statement (.lh rd rs1 imm) :=
  ⟨⟨"LH", 0x0000707F, 0x00001003⟩, by decide, rfl, beq_iff_eq.mpr (mask_funct3_I ..)⟩

theorem lw (rd rs1 : RegIdx) (imm : Word) : Statement (.lw rd rs1 imm) :=
  ⟨⟨"LW", 0x0000707F, 0x00002003⟩, by decide, rfl, beq_iff_eq.mpr (mask_funct3_I ..)⟩

theorem lbu (rd rs1 : RegIdx) (imm : Word) : Statement (.lbu rd rs1 imm) :=
  ⟨⟨"LBU", 0x0000707F, 0x00004003⟩, by decide, rfl, beq_iff_eq.mpr (mask_funct3_I ..)⟩

theorem lhu (rd rs1 : RegIdx) (imm : Word) : Statement (.lhu rd rs1 imm) :=
  ⟨⟨"LHU", 0x0000707F, 0x00005003⟩, by decide, rfl, beq_iff_eq.mpr (mask_funct3_I ..)⟩

end Sys2Proof.Laws.TableRow
end

