-- ==== Sys2Proof/Tests/Slice0.lean ====
section
/-!
SUPPORT. Tests on single steps, decodings and pure functions, with results from 95_test_vectors.md (sections S1 to
S4 and 2 to 9), and for every obligation with hypotheses a concrete state and operands that meet them.
-/

namespace Sys2Proof.Tests

open Sys2Proof Sys2Proof.Machine

/-! ### Small states -/

/-- Slots high above the addresses the vectors use. -/
def cfgT : Config where
  posCycle := 0x100000
  posHalt := 0x100008
  posPc := 0x100010
  posX := Vector.ofFn fun i => 0x100100 + BitVec.ofNat 64 (8 * i.val)
  x0Read := .log
  mapped := []

/-- The same with register 0 read as zero, and with the cycle counter answered for as a memory word. -/
def cfgZ : Config := { cfgT with x0Read := .zero }
def cfgM : Config := { cfgT with mapped := [.cycle] }

/-- Entries of a log, in the notation of 95_test_vectors.md. -/
def rCycle (v : Word) : Access := ⟨0x100000, v, .read⟩
def rHalt (v : Word) : Access := ⟨0x100008, v, .read⟩
def rPc (v : Word) : Access := ⟨0x100010, v, .read⟩
def rX (i v : Word) : Access := ⟨0x100100 + 8 * i, v, .read⟩
def rMem (a v : Word) : Access := ⟨a, v, .read⟩
def wCycle (v : Word) : Access := ⟨0x100000, v, .write⟩
def wPc (v : Word) : Access := ⟨0x100010, v, .write⟩
def wX (i v : Word) : Access := ⟨0x100100 + 8 * i, v, .write⟩
def wMem (a v : Word) : Access := ⟨a, v, .write⟩

/-- A store of zeros and a caller who claims one log. -/
def claim (l : AccessLog) : State := { State.reset with cfg := cfgT, caller := .claims [l] }

/-- In the middle of a Step whose pc is `pc` and whose log still holds these entries. -/
def midway (pc : Word) (l : AccessLog) : State :=
  { State.reset with cfg := cfgT, caller := .claims [], log := l, stepPc := pc }

/-- An honest caller, the pc on a word in memory. -/
def honest (pc : Word) (w : Word) : State :=
  { State.reset with cfg := cfgT, pc := pc, mem := Memory.writeWord [] (alignDown pc) w }

/-- Result, final cursor and number of provider operations. -/
def seen : Host.Outcome State Fault Refusal → Option (Option StepResult × Nat × Nat)
  | .next s => some (s.result, s.cursor, s.trace.length)
  | _ => none

/-- What an executor issued to the provider when it raised nothing. -/
def issued : Host.Outcome State Fault Refusal → Option (List ProviderOp)
  | .next s => if s.result = none then some s.trace else none
  | _ => none

/-- The error on the result port, with the cursor. -/
def raisedBy : Host.Outcome State Fault Refusal → Option (StepError × Nat)
  | .next s => match s.result with
    | some (.error e) => some (e, s.cursor)
    | _ => none
  | _ => none

/-! ### Well-formedness: an ill-formed term for each check -/

theorem test_wf_U_multiple : (Instr.lui 5 0x12345001).wellFormed = false := by decide
theorem test_wf_U_high : (Instr.lui 5 0x80000000).wellFormed = false := by decide
theorem test_wf_U_low : (Instr.auipc 5 0xFFFFFFFF7FFFF000).wellFormed = false := by decide
theorem test_wf_J_odd : (Instr.jal 1 3).wellFormed = false := by decide
theorem test_wf_J_high : (Instr.jal 1 0x100000).wellFormed = false := by decide
theorem test_wf_J_low : (Instr.jal 1 0xFFFFFFFFFFEFFFFE).wellFormed = false := by decide
theorem test_wf_I_high : (Instr.jalr 1 1 0x800).wellFormed = false := by decide
theorem test_wf_I_low : (Instr.lw 1 1 0xFFFFFFFFFFFFF7FF).wellFormed = false := by decide
theorem test_wf_B_odd : (Instr.beq 1 1 1).wellFormed = false := by decide
theorem test_wf_B_high : (Instr.bgeu 1 1 0x1000).wellFormed = false := by decide
theorem test_wf_B_low : (Instr.blt 1 1 0xFFFFFFFFFFFFEFFE).wellFormed = false := by decide
theorem test_wf_ends :
    (Instr.lui 5 0xFFFFFFFF80000000).wellFormed = true ∧ (Instr.jal 1 0xFFFFE).wellFormed = true
    ∧ (Instr.lb 7 6 0xFFFFFFFFFFFFF800).wellFormed = true
    ∧ (Instr.bge 5 6 0xFFFFFFFFFFFFF000).wellFormed = true := by
  decide

/-! ### Decoding: the words of 95_test_vectors.md section 2 and 7 -/

theorem test_decode_lui : decode 0x800002B7 = .ok (.lui 5 0xFFFFFFFF80000000) := by decide
theorem test_decode_auipc : decode 0x00001317 = .ok (.auipc 6 0x1000) := by decide
theorem test_decode_jal : decode 0x7FFFF0EF = .ok (.jal 1 0xFFFFE) := by decide
theorem test_decode_jal_bit11 : decode 0x001000EF = .ok (.jal 1 0x800) := by decide
theorem test_decode_jalr : decode 0x00228067 = .ok (.jalr 0 5 2) := by decide
theorem test_decode_beq : decode 0x00628463 = .ok (.beq 5 6 8) := by decide
theorem test_decode_bne : decode 0xFE629EE3 = .ok (.bne 5 6 0xFFFFFFFFFFFFFFFC) := by decide
theorem test_decode_blt : decode 0x0062C463 = .ok (.blt 5 6 8) := by decide
theorem test_decode_bge : decode 0x8062D063 = .ok (.bge 5 6 0xFFFFFFFFFFFFF000) := by decide
theorem test_decode_bltu : decode 0x7E62EFE3 = .ok (.bltu 5 6 0xFFE) := by decide
theorem test_decode_bgeu : decode 0x0062F863 = .ok (.bgeu 5 6 16) := by decide
theorem test_decode_lb : decode 0xFFF30383 = .ok (.lb 7 6 0xFFFFFFFFFFFFFFFF) := by decide
theorem test_decode_lh : decode 0x00129383 = .ok (.lh 7 5 1) := by decide
theorem test_decode_lw : decode 0x00232383 = .ok (.lw 7 6 2) := by decide
theorem test_decode_lbu : decode 0x00434483 = .ok (.lbu 9 6 4) := by decide
/-- imm 000000000110, rs1 00110, funct3 101, rd 01010, opcode 0000011 (R81, R92). -/
theorem test_decode_lhu : decode 0b00000000011000110101010100000011 = .ok (.lhu 10 6 6) := by decide

theorem test_decode_unsupported_load :
    decode 0x00003003 = .error .unsupported
    ∧ decode 0x00006003 = .error .unsupported
    ∧ decode 0x00007003 = .error .unsupported := by
  decide
theorem test_decode_unsupported_branch :
    decode 0x00002063 = .error .unsupported
    ∧ decode 0x00003063 = .error .unsupported
    ∧ decode 0x00001067 = .error .unsupported := by
  decide
theorem test_decode_unsupported_other :
    decode 0x00000013 = .error .unsupported
    ∧ decode 0x00000000 = .error .unsupported
    ∧ decode 0xFFFFFFFF = .error .unsupported
    ∧ decode 0x00B52023 = .error .unsupported := by
  decide

theorem test_decodeBytes_order :
    decodeBytes [0xB7, 0x52, 0x34, 0x12, 0xAA] = .ok (.lui 5 0x12345000, [0xAA]) := by decide
theorem test_decodeBytes_truncated : decodeBytes [0xB7, 0x52, 0x34] = .error .truncated := by decide
theorem test_decodeTableWord : decodeTableWord 32 0x00432383 = some (.lw 7 6 4) := by decide

theorem test_helpers :
    immS 0x8062D063 = 0xFFFFFFFFFFFFF800 ∧ immS 0x7E62EFE3 = 0x7FF ∧ shamt5 0x03F51513 = 31
    ∧ shamt6 0x03F51513 = 63 ∧ shamt5 0xFE629EE3 = 6 ∧ shamt6 0xFE629EE3 = 38 := by decide

/-! ### packBits, MemWrite and the shifts: sections 8 and 9 -/

theorem test_packBits :
    packBits 0xABCD 16 0x8877665544332211 32 (by decide) = 0x8877ABCD44332211
    ∧ packBits 0x1FF 8 0xFFFFFFFFFFFFFFFF 0 (by decide) = 0xFFFFFFFFFFFFFFFF
    ∧ packBits 0x0 16 0xFFFFFFFFFFFFFFFF 48 (by decide) = 0x0000FFFFFFFFFFFF
    ∧ packBits 0xDEADBEEFCAFEF00D 64 0x8877665544332211 0 (by decide) = 0xDEADBEEFCAFEF00D
    ∧ packBits 0x5 0 0x8877665544332211 64 (by decide) = 0x8877665544332211 := by decide

theorem test_shifts :
    shl64 0xFFFFFFFFFFFFFFFF 127 = 0x8000000000000000 ∧ shr64 0x8000000000000000 68 = 0x0800000000000000
    ∧ shl64 1 64 = 1 ∧ shl32 0x1 33 = 2 ∧ shr32 0x80000000 36 = 0x08000000 := by decide

/-- The log entries a `MemWrite` consumes are all of these, and it succeeds. -/
def stores (addr : Word) (n : Width) (v : Word) (l : AccessLog) : Bool :=
  match memWrite addr n v (midway 0 l) with
  | .ok _ s => s.cursor == l.length
  | .raised _ _ => false

theorem test_memWrite_entries :
    stores 0x300C .half 0xABCD [rMem 0x3008 0x8877665544332211, wMem 0x3008 0x8877ABCD44332211] = true
    ∧ stores 0x300F .byte 0x1FF [rMem 0x3008 0x8877665544332211, wMem 0x3008 0xFF77665544332211] = true
    ∧ stores 0x3008 .word 0xDEADBEEF [rMem 0x3008 0x8877665544332211, wMem 0x3008 0x88776655DEADBEEF]
      = true
    ∧ stores 0x3008 .double 0x0102030405060708 [wMem 0x3008 0x0102030405060708] = true
    ∧ stores 0x300C .half 0xABCD [rMem 0x3008 0x8877665544332211, wMem 0x3008 0xABCD] = false := by decide

/-! ### The verifier and the Step Controller: scenarios S1 to S4, sections 3 and 4 -/

/-- The log of S1. -/
def logB : AccessLog :=
  [rCycle 7, rHalt 0, rPc 0x2000, rMem 0x2000 0x123452B7, wX 5 0x12345000, wPc 0x2004, wCycle 8]

theorem test_S1 : seen (step (claim logB)) = some (some (.ok 8 false), 7, 7) := by decide
theorem test_S1_mutated :
    seen (step (claim (logB.set 4 (wX 5 0x12345001))))
      = some (some (.error (.writeValueMismatch 4 (.write 0x100128 0x12345000) (wX 5 0x12345001))), 4, 5) := by
  decide
theorem test_S2 : seen (step (claim [rCycle 0x1234, rHalt 1])) = some (some (.ok 0x1234 true), 2, 2) := by
  decide
theorem test_S3 :
    seen (step (claim [rCycle 0xFFFFFFFFFFFFFFFF, rHalt 0]))
      = some (some (.ok 0xFFFFFFFFFFFFFFFF false), 2, 2) := by decide
theorem test_S4 :
    seen (step (claim [rCycle 0, rHalt 0, rPc 0x3000, rMem 0x3000 0x00028067, rX 5 0x1001, wPc 0x1000,
      wCycle 1])) = some (some (.ok 1 false), 7, 7) := by decide

theorem test_V3_exhausted :
    seen (step (claim [])) = some (some (.error (.accessExhausted 0 (.read 0x100000))), 0, 1)
    ∧ seen (step (claim (logB.take 6)))
      = some (some (.error (.accessExhausted 6 (.write 0x100000 8))), 6, 7) := by decide
theorem test_V3_kind_first :
    seen (step (claim (logB.set 4 (rX 6 1))))
      = some (some (.error (.accessKindMismatch 4 (.write 0x100128 0x12345000) (rX 6 1))), 4, 5) := by decide
theorem test_V3_position_second :
    seen (step (claim (logB.set 4 (wX 6 1))))
      = some (some (.error (.accessAddressMismatch 4 (.write 0x100128 0x12345000) (wX 6 1))), 4, 5) := by
  decide
theorem test_V3_x0_unlogged :
    seen (step (claim [rCycle 7, rHalt 0, rPc 0x2000, rMem 0x2000 0x12345037, wPc 0x2004, wCycle 8]))
      = some (some (.ok 8 false), 6, 6)
    ∧ seen (step (claim [rCycle 7, rHalt 0, rPc 0x2000, rMem 0x2000 0x12345037, wX 0 0x12345000, wPc 0x2004,
        wCycle 8]))
      = some (some (.error (.accessAddressMismatch 4 (.write 0x100010 0x2004) (wX 0 0x12345000))), 4, 5) := by
  decide
theorem test_V3_leftover :
    seen (step (claim (logB ++ [rCycle 8])))
      = some (some (.error (.endOfLogInvariantViolation 7 8)), 7, 7)
    ∧ (match step (claim (logB ++ [rCycle 8])) with
      | .next s => some (s.pc, s.cycle)
      | _ => none) = some (0x2004, 8) := by decide
theorem test_V3_failed_writes_stay :
    (match step (claim (logB.take 6)) with
      | .next s => some (s.regs[(5 : RegIdx)], s.pc, s.cycle)
      | _ => none) = some (0x12345000, 0x2004, 8) := by decide

theorem test_V4_halt_first :
    seen (step (claim [rCycle 0xFFFFFFFFFFFFFFFF, rHalt 0x8000000000000000]))
      = some (some (.ok 0xFFFFFFFFFFFFFFFF true), 2, 2)
    ∧ seen (step (claim [rCycle 5, rHalt 1, rPc 0]))
      = some (some (.error (.endOfLogInvariantViolation 2 3)), 2, 2) := by decide
theorem test_V4_high_half :
    seen (step (claim [rCycle 7, rHalt 0, rPc 0x2004, rMem 0x2000 0x123452B7FFFFFFFF, wX 5 0x12345000,
      wPc 0x2008, wCycle 8])) = some (some (.ok 8 false), 7, 7) := by decide
theorem test_V4_misaligned_pc :
    seen (step (claim [rCycle 0, rHalt 0, rPc 0x2002, rMem 0x2000 0]))
      = some (some (.error (.misalignedAccess 32 0x2002)), 3, 3) := by decide
theorem test_V4_unsupported :
    seen (step (claim [rCycle 0, rHalt 0, rPc 0x2000, rMem 0x2000 0x00000013]))
      = some (some (.error (.unsupportedInstruction 0x00000013 0x2000)), 4, 4) := by decide
theorem test_V4_top_of_memory :
    seen (step (claim [rCycle 0, rHalt 0, rPc 0xFFFFFFFFFFFFFFFC, rMem 0xFFFFFFFFFFFFFFF8 0x000002B700000000,
      wX 5 0, wPc 0, wCycle 1])) = some (some (.ok 1 false), 7, 7) := by decide

/-- The environment's side under an honest caller: a step from a store that holds the program word (P1, Step 1). -/
theorem test_honest_step :
    (match step (honest 0x100C 0x000005970000006F) with
      | .next s => some (s.result, s.pc, s.cycle, s.regs[(11 : RegIdx)], s.log)
      | _ => none)
    = some (some (.ok 1 false), 0x1010, 1, 0x100C,
        [rCycle 0, rHalt 0, rPc 0x100C, rMem 0x1008 0x5970000006F, wX 11 0x100C, wPc 0x1010, wCycle 1]) := by
  decide
/-- R32, R38: a mapped slot is what a read of its position as memory yields. -/
theorem test_mapped_slot :
    (match memRead 0x100000 .double { honest 0x1000 0 with cfg := cfgM, cycle := 9 } with
      | .ok v _ => some v
      | .raised _ _ => none) = some 9 := by decide

/-! ### The instructions: sections 5 to 7 -/

theorem test_lui_sign :
    issued (exec (.lui 5 0xFFFFFFFF80000000) (midway 0x2000 [wX 5 0xFFFFFFFF80000000, wPc 0x2004]))
      = some [.writeRegister 5 0xFFFFFFFF80000000, .writePc 0x2004] := by decide
theorem test_auipc_wraps :
    issued (exec (.auipc 6 0xFFFFFFFF80000000) (midway 0x80000000 [wX 6 0, wPc 0x80000004]))
      = some [.writeRegister 6 0, .writePc 0x80000004] := by decide
theorem test_jal_wraps :
    issued (exec (.jal 1 0xFFFFFFFFFFFFFFFC) (midway 0 [wX 1 4, wPc 0xFFFFFFFFFFFFFFFC]))
      = some [.writeRegister 1 4, .writePc 0xFFFFFFFFFFFFFFFC] := by decide
theorem test_jal_x0 :
    issued (exec (.jal 0 0) (midway 0x1008 [wPc 0x1008])) = some [.writePc 0x1008] := by decide
theorem test_jalr_same_register :
    issued (exec (.jalr 1 1 0xFFFFFFFFFFFFFFFF) (midway 0x1000 [rX 1 0x2005, wX 1 0x1004, wPc 0x2004]))
      = some [.readRegister 1, .writeRegister 1 0x1004, .writePc 0x2004] := by decide
theorem test_jalr_wraps_then_clears :
    issued (exec (.jalr 0 5 0xFFFFFFFFFFFFFFFF) (midway 0x1000 [rX 5 0, wPc 0xFFFFFFFFFFFFFFFE]))
      = some [.readRegister 5, .writePc 0xFFFFFFFFFFFFFFFE] := by decide

/-- The pc a branch writes, with offset +8 at 0x2000, when registers 5 and 6 are logged as `a` and `b`. -/
def lands (i : Instr) (a b t : Word) : Bool :=
  issued (exec i (midway 0x2000 [rX 5 a, rX 6 b, wPc t])) == some [.readRegister 5, .readRegister 6, .writePc t]

theorem test_beq :
    lands (.beq 5 6 8) 0xFFFFFFFFFFFFFFFF 0xFFFFFFFFFFFFFFFF 0x2008 = true
    ∧ lands (.beq 5 6 8) 0x8000000000000000 0 0x2004 = true := by decide
theorem test_bne :
    lands (.bne 5 6 8) 0x8000000000000000 0 0x2008 = true ∧ lands (.bne 5 6 8) 0 0 0x2004 = true := by decide
theorem test_blt :
    lands (.blt 5 6 8) 0xFFFFFFFFFFFFFFFF 1 0x2008 = true
    ∧ lands (.blt 5 6 8) 0x7FFFFFFFFFFFFFFF 0x8000000000000000 0x2004 = true
    ∧ lands (.blt 5 6 8) 0 0 0x2004 = true := by decide
theorem test_bge :
    lands (.bge 5 6 8) 1 0xFFFFFFFFFFFFFFFF 0x2008 = true ∧ lands (.bge 5 6 8) 0 0 0x2008 = true
    ∧ lands (.bge 5 6 8) 0x8000000000000000 0x7FFFFFFFFFFFFFFF 0x2004 = true := by decide
theorem test_bltu :
    lands (.bltu 5 6 8) 1 0xFFFFFFFFFFFFFFFF 0x2008 = true ∧ lands (.bltu 5 6 8) 0 0 0x2004 = true
    ∧ lands (.bltu 5 6 8) 0xFFFFFFFFFFFFFFFF 1 0x2004 = true := by decide
theorem test_bgeu :
    lands (.bgeu 5 6 8) 0xFFFFFFFFFFFFFFFF 1 0x2008 = true ∧ lands (.bgeu 5 6 8) 0 0 0x2008 = true
    ∧ lands (.bgeu 5 6 8) 0 0x8000000000000000 0x2004 = true := by decide
theorem test_branch_x0_logged :
    issued (exec (.beq 0 0 8) (midway 0x1000 [rX 0 0, rX 0 1, wPc 0x1004]))
      = some [.readRegister 0, .readRegister 0, .writePc 0x1004]
    ∧ issued (exec (.beq 0 0 8)
        { midway 0x1000 [rX 0 0, rX 0 1, wPc 0x1008] with cfg := cfgZ })
      = some [.readRegister 0, .readRegister 0, .writePc 0x1008] := by decide

/-- A load into x7 from `0x3000 + o` writes `v` when the memory word is `w`. -/
def gives (mk : RegIdx → RegIdx → Word → Instr) (o w v : Word) : Bool :=
  issued (exec (mk 7 6 o) (midway 0x2000 [rX 6 0x3000, rMem 0x3000 w, wX 7 v, wPc 0x2004]))
    == some [.readRegister 6, .readWord 0x3000, .writeRegister 7 v, .writePc 0x2004]

theorem test_lb :
    gives .lb 7 0x8877665544332211 0xFFFFFFFFFFFFFF88 = true ∧ gives .lb 5 0x00FF7F80FFFF8000 0x7F = true := by
  decide
theorem test_lbu :
    gives .lbu 7 0x8877665544332211 0x88 = true ∧ gives .lbu 0 0x8877665544332211 0x11 = true := by decide
theorem test_lh :
    gives .lh 6 0x8877665544332211 0xFFFFFFFFFFFF8877 = true
    ∧ gives .lh 4 0x00FF7F80FFFF8000 0x7F80 = true := by decide
theorem test_lhu :
    gives .lhu 6 0x8877665544332211 0x8877 = true ∧ gives .lhu 2 0x00FF7F80FFFF8000 0xFFFF = true := by decide
theorem test_lw :
    gives .lw 4 0x8877665544332211 0xFFFFFFFF88776655 = true
    ∧ issued (exec (.lw 0 6 4) (midway 0x2000 [rX 6 0x3008, rMem 0x3008 0x8877665544332211, wPc 0x2004]))
      = some [.readRegister 6, .readWord 0x3008, .writePc 0x2004] := by decide
theorem test_lw_misaligned :
    raisedBy (exec (.lw 7 6 2) (midway 0x2000 [rX 6 0x3008])) = some (.misalignedAccess 32 0x300A, 1) := by
  decide
theorem test_lh_misaligned :
    raisedBy (exec (.lh 7 5 1) (midway 0x4018 [rX 5 0x5000])) = some (.misalignedAccess 16 0x5001, 1) := by
  decide
theorem test_lhu_misaligned :
    raisedBy (exec (.lhu 7 5 7) (midway 0x4018 [rX 5 0x5000])) = some (.misalignedAccess 16 0x5007, 1) := by
  decide
theorem test_lbu_address_wraps :
    issued (exec (.lbu 7 0 0xFFFFFFFFFFFFFFFF)
      (midway 0x2000 [rX 0 0, rMem 0xFFFFFFFFFFFFFFF8 0x8877665544332211, wX 7 0x88, wPc 0x2004]))
      = some [.readRegister 0, .readWord 0xFFFFFFFFFFFFFFF8, .writeRegister 7 0x88, .writePc 0x2004] := by
  decide

/-! ### The first instruction after reset (log entry 9) -/

theorem test_placed_word :
    (match step (State.reset.withFetchWord 32 0x123452B7) with
      | .next s => some (s.result, s.regs[(5 : RegIdx)], s.pc)
      | _ => none) = some (some (.ok 1 false), 0x12345000, 4) := by decide
/-- With nothing placed, reset fetches the word 0, which no row fits. -/
theorem test_reset_step :
    raisedBy (step State.reset) = some (.unsupportedInstruction 0 0, 4) := by decide

/-! ### Witnesses: a state and operands that meet an obligation's hypotheses, clause by clause -/

theorem witness_DecodeUndoesEncode :
    (Instr.lui 31 0xFFFFFFFF80000000).wellFormed = true ∧ (Instr.jal 0 0xFFFFFFFFFFF00000).wellFormed = true
    ∧ (Instr.lhu 1 2 0x7FF).wellFormed = true ∧ (Instr.bne 3 4 0xFFE).wellFormed = true := by decide

theorem witness_EncodeUndoesDecode : decode 0xFFDFF0EF = .ok (.jal 1 0xFFFFFFFFFFFFFFFC) := by decide

theorem witness_DecodeFollowsMaskAndMatch_a :
    (0x123452B7 : InstrWord) &&& 0x7F = 0x37 ∧ (0xFFFFF317 : InstrWord) &&& 0x7F = 0x17
    ∧ (0x800000EF : InstrWord) &&& 0x7F = 0x6F ∧ (0xFFF080E7 : InstrWord) &&& 0x707F = 0x67
    ∧ (0x00628463 : InstrWord) &&& 0x707F = 0x63 ∧ (0xFE629EE3 : InstrWord) &&& 0x707F = 0x1063
    ∧ (0x0062C0E3 : InstrWord) &&& 0x707F = 0x4063 ∧ (0x8062D063 : InstrWord) &&& 0x707F = 0x5063 := by
  decide
theorem witness_DecodeFollowsMaskAndMatch_b :
    (0x7E62EFE3 : InstrWord) &&& 0x707F = 0x6063 ∧ (0x0062F863 : InstrWord) &&& 0x707F = 0x7063
    ∧ (0xFFF30383 : InstrWord) &&& 0x707F = 0x3 ∧ (0x00129383 : InstrWord) &&& 0x707F = 0x1003
    ∧ (0x00432383 : InstrWord) &&& 0x707F = 0x2003 ∧ (0xFFF04383 : InstrWord) &&& 0x707F = 0x4003
    ∧ (0x00635503 : InstrWord) &&& 0x707F = 0x5003 := by decide
theorem witness_DecodeFollowsMaskAndMatch_c : ∀ r ∈ opcodeTable, r.fits 0x00001067 = false := by decide

theorem witness_PackBitsReplacesExactlyTheField :
    56 + 8 ≤ 64 ∧ 63 < 64 ∧ (packBits 0xFF 8 0 56 (by decide)).getLsbD 63 = true := by decide

theorem witness_LegalAccessLiesInOneWord :
    Width.byte.aligned 0x3007 = true ∧ Width.half.aligned 0x3006 = true ∧ Width.word.aligned 0x3004 = true
    ∧ Width.double.aligned 0xFFFFFFFFFFFFFFF8 = true := by decide

/-- A store with a word in memory and the cycle slot answered for as memory. -/
def stored : State :=
  { State.reset with cfg := cfgM, mem := Memory.writeWord [] 0x3008 0x8877665544332211 }

theorem witness_StoreReturnsTheLastWrite :
    stored.mem.wf = true ∧ (0x3008 : Word).toNat % 8 = 0 ∧ (0x100000 : Word).toNat % 8 = 0
    ∧ (stored.setStoreWord 0x100000 5).storeWord 0x3008 = 0x8877665544332211 := by decide

theorem witness_MemReadTakesTheAddressedBytes :
    (0x300E : Word).toNat % Width.half.bytes = 0
    ∧ stored.admits [touchReadWord (alignDown 0x300E) 0x8877665544332211] = true
    ∧ (midway 0 [rMem 0xFFFFFFFFFFFFFFF8 7]).admits [touchReadWord (alignDown 0xFFFFFFFFFFFFFFFF) 7] = true
    ∧ (0x300E : Word).toNat % Width.word.bytes ≠ 0 := by decide

theorem witness_MemWriteSplicesIntoTheWord :
    (Width.half ≠ .double ∧ (0x300C : Word).toNat % Width.half.bytes = 0
      ∧ (∀ k < 8, byteOf 0x8877ABCD44332211 k
        = if (0x300C : Word).toNat % 8 ≤ k ∧ k < (0x300C : Word).toNat % 8 + Width.half.bytes
          then byteOf 0xABCD (k - (0x300C : Word).toNat % 8) else byteOf 0x8877665544332211 k)
      ∧ stored.admits [touchReadWord (alignDown 0x300C) 0x8877665544332211,
          touchWriteWord (alignDown 0x300C) 0x8877ABCD44332211] = true)
    ∧ ((0x3008 : Word).toNat % 8 = 0
      ∧ (midway 0 [wMem 0x3008 1]).admits [touchWriteWord 0x3008 1] = true)
    ∧ (0x300C : Word).toNat % Width.double.bytes ≠ 0 := by decide

theorem witness_SubWordStoreRoundTrip :
    Width.byte ≠ .double ∧ stored.caller = .honest ∧ stored.mem.wf = true
    ∧ (0x300F : Word).toNat % Width.byte.bytes = 0 ∧ (0x100000 : Word).toNat % 8 = 0
    ∧ (0x100000 : Word) ≠ alignDown 0x300F := by decide

theorem witness_ConsumeReadChecksInOrder :
    (midway 0 []).caller = .claims [] ∧ (midway 0 []).cursor = (midway 0 []).log.length
    ∧ (midway 0 [wPc 4]).log[0]? = some (wPc 4) ∧ (wPc 4).kind ≠ .read
    ∧ (rPc 4).kind = .read ∧ (rPc 4).position ≠ 0x100000 ∧ (rCycle 4).kind = .read
    ∧ (rCycle 4).position = 0x100000 := by decide

theorem witness_ConsumeWriteChecksInOrder :
    (midway 0 [rPc 4]).log[0]? = some (rPc 4) ∧ (rPc 4).kind ≠ .write
    ∧ (wPc 4).kind = .write ∧ (wPc 4).position ≠ 0x100000 ∧ (wCycle 4).kind = .write
    ∧ (wCycle 4).position = 0x100000 ∧ (wCycle 4).value ≠ 5 ∧ (wCycle 4).value = 4 := by decide

theorem witness_RegisterReadUsesTheEntry :
    (midway 0 [rX 0 9]).admits [touchReadX cfgT 0 9] = true ∧ cfgT.x0Read = .log
    ∧ (midway 0 [rX 31 9]).admits [touchReadX cfgT 31 9] = true ∧ (31 : RegIdx) ≠ 0
    ∧ ({ midway 0 [rX 0 9] with cfg := cfgZ } : State).admits [touchReadX cfgZ 0 9] = true
    ∧ cfgZ.x0Read = .zero := by decide

theorem witness_RegisterWriteIsSuppressedForZero :
    (31 : RegIdx) ≠ 0 ∧ (midway 0 [wX 31 9]).admits (touchWriteX cfgT 31 9) = true := by decide

theorem witness_HaltFlagIsTrueWhenNotZero :
    (midway 0 [rHalt 0x8000000000000000]).admits [touchReadHalt cfgT 0x8000000000000000] = true
    ∧ (honest 0 0).admits [touchReadHalt cfgT 0] = true := by decide

theorem witness_LuiWritesTheImmediate :
    (0x800002B7 : InstrWord).extractLsb' 0 7 = 0x37#7
    ∧ (midway 0x2000 [wX 5 0x1000, wPc 0x2004]).admits
        (touchWriteX cfgT 5 0x1000 ++ [touchWritePc cfgT (0x2000 + 4#64)]) = true
    ∧ (midway 0x2000 [wPc 0x2004]).admits
        (touchWriteX cfgT 0 0x1000 ++ [touchWritePc cfgT (0x2000 + 4#64)]) = true
    ∧ (∃ t, exec (.lui 5 0x1000) (midway 0x2000 []) = .next t ∧ t.result ≠ none) := by
  refine ⟨by decide, by decide, by decide, _, rfl, by decide⟩

theorem witness_AuipcWritesPcPlusImmediate :
    (0x80000317 : InstrWord).extractLsb' 0 7 = 0x17#7
    ∧ (midway 0x80000000 [wX 6 0, wPc 0x80000004]).admits
        (touchWriteX cfgT 6 (0x80000000 + 0xFFFFFFFF80000000) ++ [touchWritePc cfgT (0x80000000 + 4#64)]) = true
    ∧ (midway 0x2000 [wPc 0x2004]).admits
        (touchWriteX cfgT 0 (0x2000 + 0x1000) ++ [touchWritePc cfgT (0x2000 + 4#64)]) = true
    ∧ (∃ t, exec (.auipc 6 0x1000) (midway 0x2000 []) = .next t ∧ t.result ≠ none) := by
  refine ⟨by decide, by decide, by decide, _, rfl, by decide⟩

theorem witness_JalLinksAndJumps :
    (0x800000EF : InstrWord).extractLsb' 0 7 = 0x6F#7
    ∧ (midway 0 [wX 1 4, wPc 0xFFFFFFFFFFFFFFFC]).admits
        (touchWriteX cfgT 1 (0 + 4#64) ++ [touchWritePc cfgT (0 + 0xFFFFFFFFFFFFFFFC)]) = true
    ∧ (midway 0x1008 [wPc 0x1008]).admits
        (touchWriteX cfgT 0 (0x1008 + 4#64) ++ [touchWritePc cfgT (0x1008 + 0)]) = true
    ∧ (∃ t, exec (.jal 1 4) (midway 0x2000 []) = .next t ∧ t.result ≠ none) := by
  refine ⟨by decide, by decide, by decide, _, rfl, by decide⟩

theorem witness_JalrLinksAndJumpsToTheRegister :
    (0xFFF080E7 : InstrWord).extractLsb' 0 7 = 0x67#7 ∧ (0x00001067 : InstrWord).extractLsb' 0 7 = 0x67#7
    ∧ (midway 0x1000 [rX 1 0x2005, wX 1 0x1004, wPc 0x2004]).admits
        ([touchReadX cfgT 1 0x2005] ++ touchWriteX cfgT 1 (0x1000 + 4#64) ++ [touchWritePc cfgT
          ((regReadValue cfgT 1 0x2005 + 0xFFFFFFFFFFFFFFFF) &&& 0xFFFFFFFFFFFFFFFE#64)]) = true
    ∧ (midway 0x1000 [rX 0 7, wPc 6]).admits
        ([touchReadX cfgT 0 7] ++ touchWriteX cfgT 0 (0x1000 + 4#64) ++ [touchWritePc cfgT
          ((regReadValue cfgT 0 7 + 0) &&& 0xFFFFFFFFFFFFFFFE#64)]) = true
    ∧ (∃ t, exec (.jalr 1 1 4) (midway 0x2000 []) = .next t ∧ t.result ≠ none) := by
  refine ⟨by decide, by decide, by decide, by decide, _, rfl, by decide⟩

/-- The hypotheses of a branch statement for two register values and the target they lead to. -/
def branchAdmitted (a b target : Word) : Bool :=
  (midway 0x2000 [rX 5 a, rX 6 b, wPc target]).admits
    [touchReadX cfgT 5 a, touchReadX cfgT 6 b, touchWritePc cfgT target]

/-- A word with this opcode and this funct3. -/
def hasFields (w : InstrWord) (op : BitVec 7) (f3 : BitVec 3) : Bool :=
  w.extractLsb' 0 7 == op && w.extractLsb' 12 3 == f3

theorem witness_BranchesFollowTheirConditions_words :
    hasFields 0x00628463 0x63#7 0#3 = true
    ∧ hasFields 0x00629463 0x63#7 1#3 = true
    ∧ hasFields 0x0062C463 0x63#7 4#3 = true
    ∧ hasFields 0x0062D463 0x63#7 5#3 = true
    ∧ hasFields 0x0062E463 0x63#7 6#3 = true
    ∧ hasFields 0x0062F463 0x63#7 7#3 = true := by decide
/-- Taken for BEQ, BGE, BGEU and not taken for BNE, BLT, BLTU: equal values. Taken for BNE, BLT and BGEU and
not taken for BEQ, BGE, BLTU: −1 and 1. Taken for BLTU: 1 and 2^64 − 1. -/
theorem witness_BranchesFollowTheirConditions :
    branchAdmitted 0 0 (0x2000 + 8) = true ∧ branchAdmitted 0 0 (0x2000 + 4#64) = true
    ∧ branchAdmitted 0xFFFFFFFFFFFFFFFF 1 (0x2000 + 8) = true
    ∧ branchAdmitted 0xFFFFFFFFFFFFFFFF 1 (0x2000 + 4#64) = true
    ∧ ¬ ((0 : Word).toInt < (0 : Word).toInt) ∧ (0xFFFFFFFFFFFFFFFF : Word).toInt < (1 : Word).toInt
    ∧ branchAdmitted 1 0xFFFFFFFFFFFFFFFF (0x2000 + 8) = true
    ∧ (1 : Word).toNat < (0xFFFFFFFFFFFFFFFF : Word).toNat := by decide

/-- The hypotheses of a load statement at `0x3000 + o`, with the memory word 0x8877665544332211. -/
def loadAdmitted (n : Width) (signed : Bool) (rd : RegIdx) (o : Word) (l : AccessLog) : Bool :=
  decide ((0x3000 + o).toNat % n.bytes = 0)
    && (midway 0x2000 ([rX 6 0x3000, rMem 0x3000 0x8877665544332211] ++ l)).admits
      ([touchReadX cfgT 6 0x3000, touchReadWord (alignDown (0x3000 + o)) 0x8877665544332211]
        ++ touchWriteX cfgT rd (loadedWord n signed (0x3000 + o) 0x8877665544332211)
        ++ [touchWritePc cfgT (0x2000 + 4#64)])

theorem witness_LoadsWriteTheExtendedValue_words :
    hasFields 0xFFF30383 0x03#7 0#3 = true
    ∧ hasFields 0x00129383 0x03#7 1#3 = true
    ∧ hasFields 0x00432383 0x03#7 2#3 = true
    ∧ hasFields 0x00434483 0x03#7 4#3 = true
    ∧ hasFields 0x00635503 0x03#7 5#3 = true := by decide
theorem witness_LoadsWriteTheExtendedValue :
    loadAdmitted .byte true 7 7 [wX 7 0xFFFFFFFFFFFFFF88, wPc 0x2004] = true
    ∧ loadAdmitted .half true 7 6 [wX 7 0xFFFFFFFFFFFF8877, wPc 0x2004] = true
    ∧ loadAdmitted .word true 7 0 [wX 7 0x44332211, wPc 0x2004] = true
    ∧ loadAdmitted .byte false 7 7 [wX 7 0x88, wPc 0x2004] = true
    ∧ loadAdmitted .half false 7 6 [wX 7 0x8877, wPc 0x2004] = true
    ∧ loadAdmitted .word true 0 4 [wPc 0x2004] = true := by decide

theorem witness_LoadsWriteTheExtendedValue_misaligned :
    (0x5001 : Word) = regReadValue cfgT 5 0x5000 + 1 ∧ (0x5001 : Word).toNat % Width.half.bytes ≠ 0
    ∧ (0x5002 : Word).toNat % Width.word.bytes ≠ 0
    ∧ (midway 0 [rX 5 0x5000]).admits [touchReadX cfgT 5 0x5000] = true
    ∧ (∃ t, exec (.lb 7 6 0) (midway 0 []) = .next t ∧ t.result ≠ none)
    ∧ (∃ t, exec (.lbu 7 6 0) (midway 0 []) = .next t ∧ t.result ≠ none) := by
  refine ⟨by decide, by decide, by decide, by decide, ⟨_, rfl, by decide⟩, ⟨_, rfl, by decide⟩⟩

/-- One entry for each reason R122 has to refuse a write of 0x1000 to x5: none, kind, position, value. -/
theorem witness_rejectsWrite :
    (midway 0 []).rejectsWrite cfgT.posX[(5 : RegIdx)] 0x1000 (.accessExhausted 0 (.write 0x100128 0x1000))
    ∧ (midway 0 [rX 5 0x1000]).rejectsWrite cfgT.posX[(5 : RegIdx)] 0x1000
        (.accessKindMismatch 0 (.write 0x100128 0x1000) (rX 5 0x1000))
    ∧ (midway 0 [wX 6 0x1000]).rejectsWrite cfgT.posX[(5 : RegIdx)] 0x1000
        (.accessAddressMismatch 0 (.write 0x100128 0x1000) (wX 6 0x1000))
    ∧ (midway 0 [wX 5 1]).rejectsWrite cfgT.posX[(5 : RegIdx)] 0x1000
        (.writeValueMismatch 0 (.write 0x100128 0x1000) (wX 5 1)) :=
  ⟨.inl (by decide), .inr ⟨_, rfl, .inl (by decide)⟩, .inr ⟨_, rfl, .inr (.inl (by decide))⟩,
    .inr ⟨_, rfl, .inr (.inr (by decide))⟩⟩

/-- LUI and AUIPC and JAL after no access, JALR after its register read, a load after both its reads. -/
theorem witness_RejectedRegisterWriteStays :
    (midway 0 [wX 5 1]).caller = .claims [] ∧ (5 : RegIdx) ≠ 0 ∧ (midway 0 [wX 5 1]).admits [] = true
    ∧ ((midway 0 [wX 5 1]).touched []).rejectsWrite cfgT.posX[(5 : RegIdx)] 0x1000
        (.writeValueMismatch 0 (.write 0x100128 0x1000) (wX 5 1))
    ∧ (midway 0 [rX 6 8]).admits [touchReadX cfgT 6 8] = true
    ∧ ((midway 0 [rX 6 8]).touched [touchReadX cfgT 6 8]).rejectsWrite cfgT.posX[(5 : RegIdx)] 4
        (.accessExhausted 1 (.write 0x100128 4))
    ∧ (0x300E : Word) = regReadValue cfgT 6 0x3008 + 6 ∧ (0x300E : Word).toNat % Width.half.bytes = 0
    ∧ (midway 0 [rX 6 0x3008, rMem 0x3008 7, rPc 0]).admits
        [touchReadX cfgT 6 0x3008, touchReadWord (alignDown 0x300E) 7] = true
    ∧ ((midway 0 [rX 6 0x3008, rMem 0x3008 7, rPc 0]).touched
        [touchReadX cfgT 6 0x3008, touchReadWord (alignDown 0x300E) 7]).rejectsWrite cfgT.posX[(5 : RegIdx)]
          (loadedWord .half true 0x300E 7) (.accessKindMismatch 2 (.write 0x100128 0) (rPc 0)) :=
  ⟨rfl, by decide, by decide, .inr ⟨_, rfl, .inr (.inr (by decide))⟩, by decide, .inl (by decide), by decide,
    by decide, by decide, .inr ⟨_, rfl, .inl (by decide)⟩⟩

theorem witness_RejectedPcAndCycleWritesStay :
    (midway 0 [wPc 1]).caller = .claims []
    ∧ (midway 0 [wPc 1]).rejectsWrite cfgT.posPc 4 (.writeValueMismatch 0 (.write 0x100010 4) (wPc 1))
    ∧ (midway 0 [wPc 1]).rejectsWrite cfgT.posCycle 4 (.accessAddressMismatch 0 (.write 0x100000 4) (wPc 1))
    ∧ (midway 0 [wCycle 9]).rejectsWrite cfgT.posCycle (7 + 1#64)
        (.writeValueMismatch 0 (.write 0x100000 8) (wCycle 9)) :=
  ⟨rfl, .inr ⟨_, rfl, .inr (.inr (by decide))⟩, .inr ⟨_, rfl, .inr (.inl (by decide))⟩,
    .inr ⟨_, rfl, .inr (.inr (by decide))⟩⟩

/-- V3.4: the register is written and the pc not; the log of S1 in full: all three are. -/
theorem witness_IssuedWritesAreInTheStore :
    (∃ t, step (claim (logB.take 4)) = .next t ∧ ProviderOp.writeRegister 5 0x12345000 ∈ t.trace
      ∧ t.trace.length = 5)
    ∧ (∃ t, step (claim logB) = .next t ∧ ProviderOp.writePc 0x2004 ∈ t.trace
      ∧ ProviderOp.writeCycle 8 ∈ t.trace) := by
  refine ⟨⟨_, rfl, by decide, by decide⟩, ⟨_, rfl, by decide, by decide⟩⟩

/-- An honest run of an executor from a store of zeros ends without an error. -/
def completes (i : Instr) : Prop := ∃ t, exec i (honest 0 0) = .next t ∧ t.result = none

theorem witness_RegisterWritersKeepTheRest :
    completes (.lui 1 0x1000) ∧ completes (.auipc 1 0x1000) ∧ completes (.jal 1 8) ∧ completes (.jalr 1 2 8)
    ∧ completes (.lb 1 2 8) ∧ completes (.lh 1 2 8) ∧ completes (.lw 1 2 8) ∧ completes (.lbu 1 2 8)
    ∧ completes (.lhu 1 2 8) := by
  refine ⟨⟨_, rfl, ?_⟩, ⟨_, rfl, ?_⟩, ⟨_, rfl, ?_⟩, ⟨_, rfl, ?_⟩, ⟨_, rfl, ?_⟩, ⟨_, rfl, ?_⟩, ⟨_, rfl, ?_⟩,
    ⟨_, rfl, ?_⟩, ⟨_, rfl, ?_⟩⟩ <;> rfl

theorem witness_BranchesKeepTheRest :
    completes (.beq 1 2 8) ∧ completes (.bne 1 2 8) ∧ completes (.blt 1 2 8) ∧ completes (.bge 1 2 8)
    ∧ completes (.bltu 1 2 8) ∧ completes (.bgeu 1 2 8) := by
  refine ⟨⟨_, rfl, ?_⟩, ⟨_, rfl, ?_⟩, ⟨_, rfl, ?_⟩, ⟨_, rfl, ?_⟩, ⟨_, rfl, ?_⟩, ⟨_, rfl, ?_⟩⟩ <;> rfl

theorem witness_ExecutorEndsInOnePcWrite :
    (honest 0 0).result = none ∧ ∃ t, exec (.jalr 1 2 8) (honest 0 0) = .next t ∧ t.result = none :=
  ⟨rfl, _, rfl, rfl⟩

theorem witness_ExecutorTouchesOnlyItsRegisters :
    (honest 0 0).result = none
    ∧ (∃ t, exec (.bltu 1 2 8) (honest 0 0) = .next t ∧ t.result = none)
    ∧ (∃ t, exec (.lw 0 2 1) (honest 0 0) = .next t ∧ t.result ≠ none)
    ∧ (∃ f t, front (honest 0 0) = .ok f t) ∧ (∃ e t, front (honest 0x2002 0) = .raised e t) :=
  ⟨rfl, ⟨_, rfl, rfl⟩, ⟨_, rfl, by decide⟩, ⟨_, _, rfl⟩, ⟨_, _, rfl⟩⟩

/-- The state in which the Step requested at `claim l` begins. -/
def begun (l : AccessLog) : State :=
  { State.reset with cfg := cfgT, caller := .claims [], log := l }

theorem witness_StepRunsTheDecodedInstruction :
    (claim logB).beginStep = some (begun logB) ∧ (7 : Word) ≠ 0xFFFFFFFFFFFFFFFF#64
    ∧ (0x2000 : Word).toNat % 4 = 0
    ∧ (begun logB).admits [touchReadCycle cfgT 7, touchReadHalt cfgT 0#64, touchReadPc cfgT 0x2000,
        touchReadWord (alignDown 0x2000) 0x123452B7] = true
    ∧ decode (instrWordAt 0x2000 0x123452B7) = .ok (.lui 5 0x12345000)
    ∧ ∃ t, exec (.lui 5 0x12345000)
        (((begun logB).touched [touchReadCycle cfgT 7, touchReadHalt cfgT 0#64, touchReadPc cfgT 0x2000,
          touchReadWord (alignDown 0x2000) 0x123452B7]).setStepPc 0x2000) = .next t ∧ t.result = none := by
  refine ⟨rfl, by decide, by decide, by decide, by decide, _, rfl, by decide⟩

theorem witness_StepRejectsBadPcAndBadWord :
    (claim [rCycle 0, rHalt 0, rPc 0x2002]).beginStep = some (begun [rCycle 0, rHalt 0, rPc 0x2002])
    ∧ (0x2002 : Word).toNat % 4 ≠ 0
    ∧ (begun [rCycle 0, rHalt 0, rPc 0x2002]).admits
        [touchReadCycle cfgT 0, touchReadHalt cfgT 0#64, touchReadPc cfgT 0x2002] = true
    ∧ (0xFFFFFFFFFFFFFFFC : Word).toNat % 4 = 0
    ∧ (begun [rCycle 0, rHalt 0, rPc 0xFFFFFFFFFFFFFFFC, rMem 0xFFFFFFFFFFFFFFF8 0x13000002B7]).admits
        ([touchReadCycle cfgT 0, touchReadHalt cfgT 0#64, touchReadPc cfgT 0xFFFFFFFFFFFFFFFC]
          ++ [touchReadWord (alignDown 0xFFFFFFFFFFFFFFFC) 0x13000002B7]) = true
    ∧ decode (instrWordAt 0xFFFFFFFFFFFFFFFC 0x13000002B7) = .error .unsupported := by
  refine ⟨rfl, by decide, by decide, by decide, by decide, by decide⟩

theorem witness_HaltedAndSaturatedStepsDoNothing :
    (honest 0 0).beginStep = some (honest 0 0) ∧ ({ honest 0 0 with halt := 1 } : State).admits
        [touchReadCycle cfgT 0, touchReadHalt cfgT 1] = true
    ∧ (begun [rCycle 0xFFFFFFFFFFFFFFFF, rHalt 0]).admits
        [touchReadCycle cfgT 0xFFFFFFFFFFFFFFFF, touchReadHalt cfgT 0] = true
    ∧ (begun [rCycle 0xFFFFFFFFFFFFFFFF, rHalt 0]).log.length = 2
    ∧ (begun [rCycle 5, rHalt 1, rPc 0]).admits [touchReadCycle cfgT 5, touchReadHalt cfgT 1] = true
    ∧ (begun [rCycle 5, rHalt 1, rPc 0]).caller = .claims []
    ∧ (begun [rCycle 5, rHalt 1, rPc 0]).log.length ≠ 2 := by
  refine ⟨rfl, by decide, by decide, by decide, by decide, by decide, by decide⟩

/-- The state after the cycle write with this log left. -/
def cycleWritten (l : AccessLog) : State :=
  ((midway 0 l).touched [touchWriteCycle cfgT (0xFFFFFFFFFFFFFFFE + 1#64)]).setCycle
    (0xFFFFFFFFFFFFFFFE + 1#64)

theorem witness_RetireWritesTheNextCycle :
    (0xFFFFFFFFFFFFFFFE : Word) ≠ 0xFFFFFFFFFFFFFFFF#64
    ∧ (midway 0 [wCycle 0xFFFFFFFFFFFFFFFF]).admits
        [touchWriteCycle cfgT (0xFFFFFFFFFFFFFFFE + 1#64)] = true
    ∧ (cycleWritten [wCycle 0xFFFFFFFFFFFFFFFF]).cursor
      = (cycleWritten [wCycle 0xFFFFFFFFFFFFFFFF]).log.length
    ∧ (midway 0 [wCycle 0xFFFFFFFFFFFFFFFF, rCycle 8]).admits
        [touchWriteCycle cfgT (0xFFFFFFFFFFFFFFFE + 1#64)] = true
    ∧ (cycleWritten [wCycle 0xFFFFFFFFFFFFFFFF, rCycle 8]).cursor
      ≠ (cycleWritten [wCycle 0xFFFFFFFFFFFFFFFF, rCycle 8]).log.length := by decide

/-- One Step for each kind of end: a success, E6, an error with an index. -/
theorem witness_EndOfLogIsCheckedOnSuccess :
    (∃ t, step (claim logB) = .next t ∧ t.result = some (.ok 8 false))
    ∧ (∃ t, step (claim (logB ++ [rCycle 8])) = .next t
      ∧ t.result = some (.error (.endOfLogInvariantViolation 7 8)))
    ∧ (∃ t, step (claim (logB.take 3)) = .next t
      ∧ t.result = some (.error (.accessExhausted 3 (.read 0x2000)))) := by
  refine ⟨⟨_, rfl, by decide⟩, ⟨_, rfl, by decide⟩, ⟨_, rfl, by decide⟩⟩

theorem witness_EveryRequestedStepHasAResult :
    (midway 0 []).caller = .claims [] ∧ (claim []).caller ≠ .claims [] ∧ (honest 0 0).caller ≠ .claims [] := by
  decide

theorem witness_NoStepChangesHaltMemoryOrZero :
    ∃ t, step (claim logB) = .next t ∧ t.regs[(5 : RegIdx)] = 0x12345000 := ⟨_, rfl, by decide⟩

theorem witness_EachStepTakesOneLog :
    (claim logB).caller = .claims (logB :: []) ∧ (∃ t, step (claim logB) = .next t ∧ t.cursor = 7)
    ∧ (honest 0 0).caller = .honest ∧ (∃ t, step (honest 0 0x123452B7) = .next t ∧ t.cursor = 7) := by
  refine ⟨rfl, ⟨_, rfl, by decide⟩, rfl, ⟨_, rfl, by decide⟩⟩

theorem distinct_cfgT : cfgT.distinct := by decide

theorem witness_StepKeepsTheInvariant :
    (honest 0x2000 0x123452B7).Inv ∧ ∃ t, step (honest 0x2000 0x123452B7) = .next t ∧ t.pc = 0x2004 :=
  ⟨⟨distinct_cfgT, by decide, by decide, by decide, by decide, by decide, by decide, by decide⟩,
    _, rfl, by decide⟩

theorem witness_CycleCountsRunningSteps :
    ((honest 0 0x6F).halt = 0#64 ∧ (honest 0 0x6F).cycle ≠ 0xFFFFFFFFFFFFFFFF#64
      ∧ ∃ t, step (honest 0 0x6F) = .next t ∧ t.succeeded = true)
    ∧ (({ honest 0 0x6F with halt := 1 } : State).halt ≠ 0#64
      ∧ ∃ t, step { honest 0 0x6F with halt := 1 } = .next t ∧ t.succeeded = true)
    ∧ (∃ t, step { honest 0 0x6F with cycle := 0xFFFFFFFFFFFFFFFF } = .next t ∧ t.succeeded = true)
    ∧ (∃ t, step (honest 0 0) = .next t ∧ t.succeeded = false) := by
  refine ⟨⟨rfl, by decide, _, rfl, by decide⟩, ⟨by decide, _, rfl, by decide⟩, ⟨_, rfl, by decide⟩,
    ⟨_, rfl, by decide⟩⟩

theorem witness_HonestStepsFailOnlyByTheState :
    (honest 0 0).caller = .honest
    ∧ (∃ t, step (honest 0 0) = .next t ∧ t.result = some (.error (.unsupportedInstruction 0 0)))
    ∧ (∃ t, step (honest 0x2002 0) = .next t ∧ t.result = some (.error (.misalignedAccess 32 0x2002)))
    ∧ ((honest 0x2000 0x00432383).pc.toNat % 4 = 0
      ∧ decode (instrWordAt (honest 0x2000 0x00432383).pc
          ((honest 0x2000 0x00432383).storeWord (alignDown (honest 0x2000 0x00432383).pc)))
        = .ok (.lw 7 6 4)
      ∧ (regReadValue cfgT 6 (honest 0x2000 0x00432383).regs[(6 : RegIdx)] + 4).toNat % Width.word.bytes = 0
      ∧ ∃ t, step (honest 0x2000 0x00432383) = .next t) := by
  refine ⟨rfl, ⟨_, rfl, by decide⟩, ⟨_, rfl, by decide⟩, by decide, by decide, by decide, _, rfl⟩

theorem witness_ProviderOperationsMatchTheCursor :
    (∃ t, step (claim logB) = .next t ∧ t.result = some (.ok 8 false) ∧ ProviderOp.readPc ∈ t.trace)
    ∧ (∃ t, step (claim []) = .next t ∧ t.result = some (.error (.accessExhausted 0 (.read 0x100000))))
    ∧ (∃ t, step (honest 0 0) = .next t ∧ t.result = some (.error (.unsupportedInstruction 0 0))) := by
  refine ⟨⟨_, rfl, by decide, by decide⟩, ⟨_, rfl, by decide⟩, ⟨_, rfl, by decide⟩⟩

theorem witness_AtMostNineAccesses :
    ∃ t, step (honest 0x2000 0x00432383) = .next t ∧ t.cursor = 9 ∧ t.trace.length = 9 :=
  ⟨_, rfl, by decide, by decide⟩

/-- For each form of the footprint: halted, saturated, and a load, whose fifth entry gives the address. -/
theorem witness_FootprintOfASuccessfulStep :
    (∃ t, step { honest 0 0 with halt := 1 } = .next t ∧ t.succeeded = true
      ∧ (t.log[1]?.map Access.value) = some 1)
    ∧ (∃ t, step { honest 0 0 with cycle := 0xFFFFFFFFFFFFFFFF } = .next t ∧ t.succeeded = true
      ∧ (t.log[0]?.map Access.value) = some 0xFFFFFFFFFFFFFFFF)
    ∧ (∃ t, step (honest 0x2000 0x00432383) = .next t ∧ t.succeeded = true
      ∧ (t.log[1]?.map Access.value) = some 0 ∧ (t.log[0]?.map Access.value) = some 0) := by
  refine ⟨⟨_, rfl, by decide, by decide⟩, ⟨_, rfl, by decide, by decide⟩, ⟨_, rfl, by decide, by decide, by decide⟩⟩

theorem witness_OutcomeIsAFunctionOfTheLog :
    (∀ sl, (claim logB).cfg.position sl = ({ claim logB with pc := 1, halt := 1, cfg := cfgM } : State).cfg.position sl)
    ∧ (claim logB).cfg.x0Read = cfgM.x0Read ∧ (claim logB).caller = .claims (logB :: [])
    ∧ ({ claim logB with pc := 1, halt := 1, cfg := cfgM } : State).caller = .claims (logB :: []) :=
  ⟨fun _ => rfl, rfl, rfl, rfl⟩

theorem witness_DivergenceIsPositional :
    (claim (logB.set 4 (wX 5 0))).caller = .claims (logB.set 4 (wX 5 0) :: [])
    ∧ (∃ t e, step (claim (logB.set 4 (wX 5 0))) = .next t ∧ t.result = some (.error e) ∧ e.index = some 4)
    ∧ (((logB.set 4 (wX 5 0)).take 5) ++ [rPc 3]).take (4 + 1) = (logB.set 4 (wX 5 0)).take (4 + 1) := by
  refine ⟨rfl, ⟨_, _, rfl, rfl, by decide⟩, by decide⟩

theorem witness_HonestLogIsAccepted :
    (honest 0x2000 0x123452B7).caller = .honest
    ∧ (∃ t, step (honest 0x2000 0x123452B7) = .next t ∧ t.succeeded = true)
    ∧ (∃ t, step (honest 0 0) = .next t ∧ t.succeeded = false) := by
  refine ⟨rfl, ⟨_, rfl, by decide⟩, ⟨_, rfl, by decide⟩⟩

theorem witness_PlacedWordIsExecuted :
    (honest 0x2002 0).mem.wf = true ∧ decode (BitVec.ofNat 32 0xFE629EE3) = .ok (.bne 5 6 0xFFFFFFFFFFFFFFFC)
    ∧ (honest 0x2002 0).Inv :=
  ⟨by decide, by decide, distinct_cfgT, by decide, by decide, by decide, by decide, by decide, by decide,
    by decide⟩

end Sys2Proof.Tests
end

section
/-!
The pure word functions of 00_scope.md: shifts (R11) and `packBits` (R12).
-/

namespace Sys2Proof.Machine

theorem and_31_eq_mod (c : Nat) : c &&& 31 = c % 32 := Nat.and_two_pow_sub_one_eq_mod c 5

/-- Settles O6: masking the count with 63 or 31 is reducing it modulo the width, and a shift by a reduced
count is a multiplication or a floor division by a power of two. -/
theorem shiftCountsAreMasked : Obligations.ShiftCountsAreMasked := by
  refine ⟨fun v c => ?_, fun v c => ?_, fun v c => ?_, fun v c => ?_⟩
  · rw [shl64, and_63_eq_mod, BitVec.toNat_shiftLeft, Nat.shiftLeft_eq]
  · rw [shr64, and_63_eq_mod, BitVec.toNat_ushiftRight, Nat.shiftRight_eq_div_pow]
  · rw [shl32, and_31_eq_mod, BitVec.toNat_shiftLeft, Nat.shiftLeft_eq]
  · rw [shr32, and_31_eq_mod, BitVec.toNat_ushiftRight, Nat.shiftRight_eq_div_pow]

/-- The low `bitWidth` bits of `v` moved to a field that fits the word. At offset 64 the shift's count wraps
to 0 (R11), but the field is empty. -/
theorem shl64_and_lowMask_getLsbD (v : Word) {bitWidth bitOffset k : Nat}
    (h : bitOffset + bitWidth ≤ 64) (hk : k < 64) :
    (shl64 (v &&& lowMask bitWidth) bitOffset).getLsbD k
      = (decide (bitOffset ≤ k ∧ k < bitOffset + bitWidth) && v.getLsbD (k - bitOffset)) := by
  rw [shl64_getLsbD _ _ _ hk, BitVec.getLsbD_and, lowMask_getLsbD _ _ (by omega)]
  by_cases ho : bitOffset < 64
  · rw [Nat.mod_eq_of_lt ho, Bool.and_comm (v.getLsbD _), ← Bool.and_assoc, ← Bool.decide_and]
    congr 2
    apply propext
    omega
  · have hw : bitWidth = 0 := by omega
    simp [hw]

/-- The mask that `packBits` clears the field with. -/
theorem shl64_lowMask_getLsbD {bitWidth bitOffset k : Nat} (h : bitOffset + bitWidth ≤ 64) (hk : k < 64) :
    (shl64 (lowMask bitWidth) bitOffset).getLsbD k
      = decide (bitOffset ≤ k ∧ k < bitOffset + bitWidth) := by
  have hfield := shl64_and_lowMask_getLsbD (BitVec.allOnes 64) h hk
  rwa [BitVec.allOnes_and, BitVec.getLsbD_allOnes, decide_eq_true (by omega : k - bitOffset < 64),
    Bool.and_true] at hfield

/-- Settles O7: a bit inside the field comes from the shifted value, a bit outside it survives the clearing
mask. -/
theorem packBitsReplacesExactlyTheField : Obligations.PackBitsReplacesExactlyTheField := by
  intro value intoWord bitWidth bitOffset h k hk
  rw [packBits, BitVec.getLsbD_or, BitVec.getLsbD_and, BitVec.getLsbD_not, decide_eq_true hk,
    shl64_lowMask_getLsbD h hk, shl64_and_lowMask_getLsbD value h hk]
  split
  · next hin => simp [hin]
  · next hout => simp [hout]

end Sys2Proof.Machine
end

section
/-!
How a Step ends, and what every Step keeps. `executor` is the executor of an instruction as one operation of
the layer of Laws/Ops. `StepEnd` lists the ways a requested Step can end. `KeptByOps` packages the
induction over a Step: a predicate that each basic update keeps holds at the end of a Step begun with it.
-/

namespace Sys2Proof.Machine

/-! ### The executors as operations -/

/-- What the executor of an instruction does before its error, if any, is put on the result port. -/
def executor (i : Instr) (s : State) : Result Unit :=
  match i with
  | .lui rd imm => (writeX rd imm s).andThen fun _ s => advancePc s
  | .auipc rd imm => (writeX rd (pcRel s.stepPc imm) s).andThen fun _ s => advancePc s
  | .jal rd imm => (writeX rd (nextPc s.stepPc) s).andThen fun _ s => branchTo (pcRel s.stepPc imm) s
  | .jalr rd rs1 imm => (readX rs1 s).andThen fun t s =>
      (writeX rd (nextPc s.stepPc) s).andThen fun _ s => branchTo (jalrTarget t imm) s
  | .beq rs1 rs2 imm => branchIf condEq rs1 rs2 imm s
  | .bne rs1 rs2 imm => branchIf condNe rs1 rs2 imm s
  | .blt rs1 rs2 imm => branchIf condLt rs1 rs2 imm s
  | .bge rs1 rs2 imm => branchIf condGe rs1 rs2 imm s
  | .bltu rs1 rs2 imm => branchIf condLtu rs1 rs2 imm s
  | .bgeu rs1 rs2 imm => branchIf condGeu rs1 rs2 imm s
  | .lb rd rs1 imm => load .byte extSigned rd rs1 imm s
  | .lh rd rs1 imm => load .half extSigned rd rs1 imm s
  | .lw rd rs1 imm => load .word extSigned rd rs1 imm s
  | .lbu rd rs1 imm => load .byte extUnsigned rd rs1 imm s
  | .lhu rd rs1 imm => load .half extUnsigned rd rs1 imm s

theorem exec_eq_settle (i : Instr) (s : State) : exec i s = (executor i s).settle := by
  cases i <;> rfl

/-- No executor stops the machine. -/
theorem exec_next (i : Instr) (s : State) : ∃ t, exec i s = .next t := by
  rw [exec_eq_settle]
  cases executor i s with
  | ok _ t => exact ⟨t, rfl⟩
  | raised e t => exact ⟨t.raise e, rfl⟩

/-! ### How a Step begins and ends -/

theorem State.beginStep_eq_none_iff (s : State) : s.beginStep = none ↔ s.caller = .claims [] := by
  unfold State.beginStep
  split <;> simp_all

/-- The ways a Step begun in `u` can end in `t` (45_step_controller.md R210 to R222). -/
inductive StepEnd (u t : State) : Prop where
  | frontRaised (e : StepError) (v : State) (hfront : front u = .raised e v) (ht : t = v.raise e)
  | idle (c : Word) (halted : Bool) (v : State) (hfront : front u = .ok (.idle c halted) v)
      (ht : t = v.conclude c halted)
  | unsupported (c : Word) (bits : InstrWord) (v : State) (d : DecodeReject)
      (hfront : front u = .ok (.run c bits) v) (hdec : decode bits = .error d)
      (ht : t = v.raise (.unsupportedInstruction bits v.stepPc))
  | executed (c : Word) (bits : InstrWord) (v : State) (i : Instr) (w : State)
      (hfront : front u = .ok (.run c bits) v) (hdec : decode bits = .ok i) (hexec : exec i v = .next w)
      (ht : t = if w.result.isNone then retire c w else w)

/-- A requested Step ends in a next state. -/
theorem step_of_beginStep {s u : State} (h : s.beginStep = some u) :
    ∃ t, step s = .next t ∧ StepEnd u t := by
  unfold step
  rw [h]
  dsimp only
  split
  · next e v hf => exact ⟨_, rfl, .frontRaised e v hf rfl⟩
  · next c halted v hf => exact ⟨_, rfl, .idle c halted v hf rfl⟩
  · next c bits v hf =>
    split
    · next d hd => exact ⟨_, rfl, .unsupported c bits v d hf hd rfl⟩
    · next i hd =>
      obtain ⟨w, hw⟩ := exec_next i v
      exact ⟨_, congrArg (afterExec c) hw, .executed c bits v i w hf hd hw rfl⟩

theorem step_of_beginStep_none {s : State} (h : s.beginStep = none) : step s = .fault .noRequest := by
  unfold step
  rw [h]

/-- Everything a Step that reaches a next state can have done. -/
theorem step_next_cases {s t : State} (h : step s = .next t) :
    ∃ u, s.beginStep = some u ∧ StepEnd u t := by
  cases hb : s.beginStep with
  | none => simp [step_of_beginStep_none hb] at h
  | some u =>
    obtain ⟨t', ht', hend⟩ := step_of_beginStep hb
    obtain rfl : t' = t := by simpa [ht'] using h
    exact ⟨u, rfl, hend⟩

/-! ### Every end of a Step leaves a result (R14) -/

theorem State.conclude_result (s : State) (c : Word) (halted : Bool) :
    ∃ r, (s.conclude c halted).result = some r := by
  rw [State.conclude_eq]
  exact ⟨_, rfl⟩

theorem retire_result (c : Word) (s : State) : ∃ r, (retire c s).result = some r := by
  unfold retire
  split
  · exact State.conclude_result _ _ _
  · exact ⟨_, rfl⟩

theorem StepEnd.result {u t : State} (h : StepEnd u t) : ∃ r, t.result = some r := by
  cases h with
  | frontRaised e v _ ht => exact ⟨.error e, by rw [ht, State.raise_result]⟩
  | idle c halted v _ ht => rw [ht]; exact State.conclude_result v c halted
  | unsupported c bits v _ _ _ ht => exact ⟨_, by rw [ht, State.raise_result]⟩
  | executed c _ _ _ w _ _ _ ht =>
    cases hw : w.result with
    | none => simpa [ht, hw] using retire_result c w
    | some r => exact ⟨r, by simp [ht, hw]⟩

/-- Settles O34: a Step without a request is the model's stop, and every other one runs to one of the ends
of `StepEnd`, each of which leaves a result. -/
theorem everyRequestedStepHasAResult : Obligations.EveryRequestedStepHasAResult := by
  intro s
  refine ⟨fun hc => step_of_beginStep_none ((State.beginStep_eq_none_iff s).mpr hc), fun hc => ?_⟩
  obtain ⟨u, hu⟩ := Option.ne_none_iff_exists'.mp (mt (State.beginStep_eq_none_iff s).mp hc)
  obtain ⟨t, ht, hend⟩ := step_of_beginStep hu
  obtain ⟨r, hr⟩ := hend.result
  exact ⟨t, r, ht, hr⟩

/-! ### What every Step keeps -/

/-- Each update that a Step is made of keeps `P`: verified touches, a provider operation that the log then
refuses, the writes of a register other than 0, of the pc and of the cycle, the latch of the Step's own pc,
and the result. -/
structure KeptByOps (P : State → Prop) : Prop where
  touched : ∀ s ts, P s → P (s.touched ts)
  issue : ∀ s op, P s → P (s.issue op)
  setReg : ∀ s i v, i ≠ 0 → P s → P (s.setReg i v)
  setPc : ∀ s v, P s → P (s.setPc v)
  setCycle : ∀ s v, P s → P (s.setCycle v)
  setStepPc : ∀ s v, P s → P (s.setStepPc v)
  finish : ∀ s r, P s → P (s.finish r)

/-- Whether the operation answers or raises, the state it leaves meets `P`. -/
def Result.Leaves {α : Type} (r : Result α) (P : State → Prop) : Prop :=
  r.Spec (fun _ t => P t) (fun _ t => P t)

section
variable {P : State → Prop}

theorem Result.Leaves.andThen {α β : Type} {r : Result α} {k : α → State → Result β} (h : r.Leaves P)
    (hk : ∀ a s, P s → (k a s).Leaves P) : (r.andThen k).Leaves P :=
  Result.Spec.andThen h hk

theorem Result.Leaves.of_ok {α : Type} {r : Result α} {a : α} {t : State} (h : r.Leaves P)
    (hr : r = .ok a t) : P t := by
  subst hr
  exact h

theorem Result.Leaves.of_raised {α : Type} {r : Result α} {e : StepError} {t : State} (h : r.Leaves P)
    (hr : r = .raised e t) : P t := by
  subst hr
  exact h

namespace KeptByOps
variable (h : KeptByOps P) {s : State} (hs : P s)
include h hs

theorem raise (e : StepError) : P (s.raise e) := h.finish s _ hs

theorem conclude (c : Word) (halted : Bool) : P (s.conclude c halted) := by
  rw [State.conclude_eq]
  exact h.finish s _ hs

theorem of_readFails {op : ProviderOp} {e : StepError} {t : State} (hf : readFails s op e t) : P t :=
  hf.1 ▸ h.issue s op hs

theorem readCycle : (readCycle s).Leaves P :=
  (readCycle_spec s).mono (fun _ _ hok => hok.1 ▸ h.touched s _ hs) fun _ _ => h.of_readFails hs

theorem readHalt : (readHalt s).Leaves P :=
  (readHalt_spec s).mono (fun _ _ ⟨_, _, ht, _⟩ => ht ▸ h.touched s _ hs) fun _ _ => h.of_readFails hs

theorem readPc : (readPc s).Leaves P :=
  (readPc_spec s).mono (fun _ _ hok => hok.1 ▸ h.touched s _ hs) fun _ _ => h.of_readFails hs

theorem readX (i : RegIdx) : (readX i s).Leaves P :=
  (readX_spec i s).mono (fun _ _ ⟨_, _, ht, _⟩ => ht ▸ h.touched s _ hs) fun _ _ => h.of_readFails hs

theorem memRead (addr : Word) (n : Width) : (memRead addr n s).Leaves P := by
  refine (memRead_spec addr n s).mono (fun _ _ ⟨_, _, _, ht, _⟩ => ht ▸ h.touched s _ hs) fun _ _ herr => ?_
  rcases herr with ⟨_, _, rfl⟩ | hf
  · exact hs
  · exact h.of_readFails hs hf

theorem writeReg (i : RegIdx) (v : Word) : P (s.writeReg i v) := by
  unfold State.writeReg
  split
  · exact hs
  · next hi => exact h.setReg s i v hi hs

theorem writeX (i : RegIdx) (v : Word) : (writeX i v s).Leaves P :=
  (writeX_spec i v s).mono (fun _ _ hok => hok.1 ▸ h.writeReg (h.touched s _ hs) i v)
    fun _ _ ⟨hi, ht, _⟩ => ht ▸ h.setReg _ i v hi (h.issue s _ hs)

theorem writePc (v : Word) : (writePc v s).Leaves P :=
  (writePc_spec v s).mono (fun _ _ hok => hok.1 ▸ h.setPc _ v (h.touched s _ hs))
    fun _ _ hf => hf.1 ▸ h.setPc _ v (h.issue s _ hs)

theorem writeCycle (v : Word) : (writeCycle v s).Leaves P :=
  (writeCycle_spec v s).mono (fun _ _ hok => hok.1 ▸ h.setCycle _ v (h.touched s _ hs))
    fun _ _ hf => hf.1 ▸ h.setCycle _ v (h.issue s _ hs)

theorem branchIf (cond : Word → Word → Bool) (rs1 rs2 : RegIdx) (imm : Word) :
    (branchIf cond rs1 rs2 imm s).Leaves P := by
  refine (h.readX hs rs1).andThen fun a u hu => (h.readX hu rs2).andThen fun b w hw => ?_
  split
  · exact h.writePc hw _
  · exact h.writePc hw _

theorem load (n : Width) (ext : Width → Word → Word) (rd rs1 : RegIdx) (imm : Word) :
    (load n ext rd rs1 imm s).Leaves P :=
  (h.readX hs rs1).andThen fun _ _ h1 => (h.memRead h1 _ n).andThen fun _ _ h2 =>
    (h.writeX h2 rd _).andThen fun _ _ h3 => h.writePc h3 _

theorem executor (i : Instr) : (executor i s).Leaves P := by
  cases i with
  | lui rd imm | auipc rd imm | jal rd imm =>
    exact (h.writeX hs rd _).andThen fun _ _ h1 => h.writePc h1 _
  | jalr rd rs1 imm =>
    exact (h.readX hs rs1).andThen fun _ _ h1 => (h.writeX h1 rd _).andThen fun _ _ h2 => h.writePc h2 _
  | beq rs1 rs2 imm | bne rs1 rs2 imm | blt rs1 rs2 imm | bge rs1 rs2 imm | bltu rs1 rs2 imm
  | bgeu rs1 rs2 imm => exact h.branchIf hs _ rs1 rs2 imm
  | lb rd rs1 imm | lh rd rs1 imm | lw rd rs1 imm | lbu rd rs1 imm | lhu rd rs1 imm =>
    exact h.load hs _ _ rd rs1 imm

theorem exec {i : Instr} {t : State} (he : exec i s = .next t) : P t := by
  obtain ⟨u, hu, hP⟩ := (h.executor hs i).settle
  obtain rfl : u = t := by simpa [exec_eq_settle, hu] using he
  rcases hP with hP | ⟨e, w, hw, rfl⟩
  · exact hP
  · exact h.raise hw e

theorem fetch : (fetch s).Leaves P :=
  (h.readPc hs).andThen fun pc u hu => (h.memRead (h.setStepPc u pc hu) pc .word).andThen fun _ _ hw => hw

theorem front : (front s).Leaves P := by
  refine (h.readCycle hs).andThen fun c u hu => (h.readHalt hu).andThen fun halted w hw => ?_
  split
  · exact hw
  · split
    · exact hw
    · exact (h.fetch hw).andThen fun _ _ hv => hv

theorem retire (c : Word) : P (retire c s) := by
  unfold Machine.retire
  split
  · next hw => exact h.conclude ((h.writeCycle hs _).of_ok hw) _ _
  · next hw => exact h.raise ((h.writeCycle hs _).of_raised hw) _

/-- What every update keeps, a Step keeps from its begin to its end. -/
theorem stepEnd {t : State} (hend : StepEnd s t) : P t := by
  cases hend with
  | frontRaised e v hf ht => exact ht ▸ h.raise ((h.front hs).of_raised hf) e
  | idle c halted v hf ht => exact ht ▸ h.conclude ((h.front hs).of_ok hf) c halted
  | unsupported c bits v _ hf _ ht => exact ht ▸ h.raise ((h.front hs).of_ok hf) _
  | executed c bits v i w hf _ hexec ht =>
    have hw : P w := h.exec ((h.front hs).of_ok hf) hexec
    rw [ht]
    split
    · exact h.retire hw c
    · exact hw

end KeptByOps
end

/-! ### The log side of a Step (10_state.md R34, R35) -/

/-- The caller is `c` and, unless the log is being recorded, the log is `l`. -/
def State.LogSide (c : Caller) (l : AccessLog) (s : State) : Prop :=
  s.caller = c ∧ (c ≠ .honest → s.log = l)

theorem State.logSide_keptByOps (c : Caller) (l : AccessLog) : KeptByOps (State.LogSide c l) where
  touched _ _ := fun ⟨hc, hl⟩ => ⟨hc, fun hne => (if_neg (hc ▸ hne)).trans (hl hne)⟩
  issue _ _ := id
  setReg _ _ _ _ := id
  setPc _ _ := id
  setCycle _ _ := id
  setStepPc _ _ := id
  finish _ _ := id

/-- Settles O36: the request takes the first log off the queue, and no update of a Step changes the caller or
a claimed log. -/
theorem eachStepTakesOneLog : Obligations.EachStepTakesOneLog := by
  intro s t h
  obtain ⟨u, hu, hend⟩ := step_next_cases h
  obtain ⟨hcaller, hlog⟩ : t.LogSide u.caller u.log :=
    (State.logSide_keptByOps _ _).stepEnd ⟨rfl, fun _ => rfl⟩ hend
  refine ⟨fun l q hc => ?_, fun hc => ?_⟩
  · simp only [State.beginStep, hc, Option.some.injEq] at hu
    subst hu
    exact ⟨hcaller, hlog (by simp)⟩
  · simp only [State.beginStep, hc, Option.some.injEq] at hu
    subst hu
    exact hcaller

end Sys2Proof.Machine
end

section
/-!
The accesses of a Step. `Site` is the cell a provider operation names and the way it is accessed.
`State.Performs` relates a state to one that has performed more accesses: the provider's trace alone says
what happened to the log side and to the store. `Result.Accesses` states this of an operation's
outcome, once per operation from the facade up to the whole Step, and invariants and frames
are then read off the sites.
-/

namespace Sys2Proof.Machine

/-! ### Sites and the slots a trace writes -/

/-- Which slot an operation accesses, none for a memory word, and whether it reads or writes it. -/
abbrev Site := AccessKind × Option Slot

def ProviderOp.site : ProviderOp → Site
  | .readCycle => (.read, some .cycle)
  | .readHaltFlag => (.read, some .halt)
  | .readPc => (.read, some .pc)
  | .readWord _ => (.read, none)
  | .readRegister i => (.read, some (.x i))
  | .writeCycle _ => (.write, some .cycle)
  | .writePc _ => (.write, some .pc)
  | .writeWord _ _ => (.write, none)
  | .writeRegister i _ => (.write, some (.x i))

def sites (ops : List ProviderOp) : List Site := ops.map ProviderOp.site

@[simp] theorem sites_append (ops ops' : List ProviderOp) : sites (ops ++ ops') = sites ops ++ sites ops' :=
  List.map_append

/-- The general register a site reads. -/
def Site.readsRegister : Site → Option RegIdx
  | (.read, some (.x i)) => some i
  | _ => none

/-- The general register a site writes. -/
def Site.writesRegister : Site → Option RegIdx
  | (.write, some (.x i)) => some i
  | _ => none

@[simp] theorem Site.readsRegister_read_x (i : RegIdx) : Site.readsRegister (.read, some (.x i)) = some i := rfl
@[simp] theorem Site.readsRegister_read_word : Site.readsRegister (.read, none) = none := rfl
@[simp] theorem Site.readsRegister_write (o : Option Slot) : Site.readsRegister (.write, o) = none := rfl
@[simp] theorem Site.writesRegister_read (o : Option Slot) : Site.writesRegister (.read, o) = none := rfl
@[simp] theorem Site.writesRegister_write_x (i : RegIdx) :
    Site.writesRegister (.write, some (.x i)) = some i := rfl
@[simp] theorem Site.writesRegister_write_pc : Site.writesRegister (.write, some .pc) = none := rfl

theorem filterMap_readsRegister (ops : List ProviderOp) :
    ops.filterMap ProviderOp.readsRegister = (sites ops).filterMap Site.readsRegister := by
  rw [sites, List.filterMap_map]
  congr 1
  funext op
  cases op <;> rfl

theorem filterMap_writesRegister (ops : List ProviderOp) :
    ops.filterMap ProviderOp.writesRegister = (sites ops).filterMap Site.writesRegister := by
  rw [sites, List.filterMap_map]
  congr 1
  funext op
  cases op <;> rfl

/-- The slot an operation writes, and the word. -/
def ProviderOp.slotWrite : ProviderOp → Option (Slot × Word)
  | .writeCycle v => some (.cycle, v)
  | .writePc v => some (.pc, v)
  | .writeRegister i v => some (.x i, v)
  | _ => none

/-- The slots' words `f` after an operation. -/
def slotsAfter (f : Slot → Word) (op : ProviderOp) : Slot → Word :=
  match op.slotWrite with
  | some (sl, v) => Function.update f sl v
  | none => f

theorem slotsAfter_of_site_ne (f : Slot → Word) {op : ProviderOp} {sl : Slot}
    (h : op.site ≠ (.write, some sl)) : slotsAfter f op sl = f sl := by
  cases op with
  | writeCycle v | writePc v | writeRegister i v =>
    exact Function.update_of_ne (fun he => h (by rw [he]; rfl)) _ _
  | readCycle | readHaltFlag | readPc | readWord _ | readRegister _ | writeWord _ _ => rfl

/-- A slot that no operation writes keeps its word. -/
theorem foldl_slotsAfter_of_not_mem {sl : Slot} (ops : List ProviderOp) (f : Slot → Word)
    (h : (.write, some sl) ∉ sites ops) : ops.foldl slotsAfter f sl = f sl := by
  induction ops generalizing f with
  | nil => rfl
  | cons op ops ih =>
    obtain ⟨hop, hops⟩ := not_or.mp (mt List.mem_cons.mpr h)
    exact (ih _ hops).trans (slotsAfter_of_site_ne f (Ne.symm hop))

/-- The state with an operation's slot write in the store. -/
def State.stored (s : State) (op : ProviderOp) : State :=
  match op.slotWrite with
  | some (sl, v) => s.setSlot sl v
  | none => s

section
variable (s : State) (op : ProviderOp)

@[simp] theorem State.stored_cfg : (s.stored op).cfg = s.cfg := by
  unfold State.stored; split <;> simp
@[simp] theorem State.stored_mem : (s.stored op).mem = s.mem := by
  unfold State.stored; split <;> simp
@[simp] theorem State.stored_caller : (s.stored op).caller = s.caller := by
  unfold State.stored; split <;> simp
@[simp] theorem State.stored_log : (s.stored op).log = s.log := by
  unfold State.stored; split <;> simp
@[simp] theorem State.stored_cursor : (s.stored op).cursor = s.cursor := by
  unfold State.stored; split <;> simp
@[simp] theorem State.stored_stepPc : (s.stored op).stepPc = s.stepPc := by
  unfold State.stored; split <;> simp
@[simp] theorem State.stored_trace : (s.stored op).trace = s.trace := by
  unfold State.stored; split <;> simp

end

theorem State.setSlot_slotWord (s : State) (sl : Slot) (v : Word) :
    (s.setSlot sl v).slotWord = Function.update s.slotWord sl v := by
  funext sl'
  cases sl with
  | x i =>
    cases sl' with
    | x j =>
      simp [State.setSlot, State.slotWord, Function.update_apply, Vector.getElem_set, Fin.ext_iff,
        eq_comm]
    | cycle | halt | pc => exact (Function.update_of_ne (by simp) _ _).symm
  | cycle | halt | pc => cases sl' <;> simp [State.setSlot, State.slotWord]

theorem State.stored_slotWord (s : State) (op : ProviderOp) :
    (s.stored op).slotWord = slotsAfter s.slotWord op := by
  unfold State.stored slotsAfter
  split
  · exact s.setSlot_slotWord _ _
  · rfl

/-! ### Performed accesses -/

/-- `t` is `s` after the touches `ts`, which the log side let through, and the operations `refused`, which it
did not: the log side and the slots are the ones these operations lead to (40_verifier_facade.md R130),
memory and parameters are as before, and so is the Step's own pc unless the pc was read. The result is
left open. -/
structure State.Performs (s : State) (ts : List Touch) (refused : List ProviderOp) (t : State) : Prop where
  cfg : t.cfg = s.cfg
  mem : t.mem = s.mem
  caller : t.caller = s.caller
  log : t.log = (s.touched ts).log
  cursor : t.cursor = s.cursor + ts.length
  trace : t.trace = s.trace ++ (ts.map Touch.op ++ refused)
  claimed : s.caller ≠ .honest → ts.map Touch.entry <+: s.log.drop s.cursor
  slots : t.slotWord = (ts.map Touch.op ++ refused).foldl slotsAfter s.slotWord
  stepPc : (.read, some .pc) ∉ sites (ts.map Touch.op ++ refused) → t.stepPc = s.stepPc

theorem State.Performs.refl (s : State) : s.Performs [] [] s where
  cfg := rfl
  mem := rfl
  caller := rfl
  log := by simp
  cursor := rfl
  trace := by simp
  claimed _ := List.nil_prefix
  slots := rfl
  stepPc _ := rfl

/-- One access that the log side lets through. -/
theorem State.Performs.touch {s : State} {x : Touch}
    (hl : s.caller ≠ .honest → s.log[s.cursor]? = some x.entry) :
    s.Performs [x] [] ((s.touched [x]).stored x.op) where
  cfg := by simp
  mem := by simp
  caller := by simp
  log := by simp
  cursor := by simp
  trace := by simp
  claimed hc := by
    rw [List.drop_eq_getElem?_toList_append, hl hc]
    exact List.prefix_append _ _
  slots := State.stored_slotWord _ _
  stepPc _ := by simp

/-- One access that the log refuses: the operation and its slot write have happened all the same. -/
theorem State.Performs.refused (s : State) (op : ProviderOp) :
    s.Performs [] [op] ((s.issue op).stored op) where
  cfg := by simp
  mem := by simp
  caller := by simp
  log := by simp
  cursor := by simp
  trace := by simp
  claimed _ := List.nil_prefix
  slots := State.stored_slotWord _ _
  stepPc _ := by simp

theorem State.Performs.trans {s t u : State} {ts us : List Touch} {refused : List ProviderOp}
    (h : s.Performs ts [] t) (h' : t.Performs us refused u) : s.Performs (ts ++ us) refused u where
  cfg := h'.cfg.trans h.cfg
  mem := h'.mem.trans h.mem
  caller := h'.caller.trans h.caller
  log := by
    rw [h'.log, State.touched_log, State.touched_log, h.caller, h.log, State.touched_log]
    split <;> simp
  cursor := by rw [h'.cursor, h.cursor, List.length_append, Nat.add_assoc]
  trace := by simp [h'.trace, h.trace]
  claimed hc := by
    have hus := h'.claimed (h.caller ▸ hc)
    rw [h.log, State.touched_log, if_neg hc, h.cursor] at hus
    obtain ⟨rest, hrest⟩ := h.claimed hc
    have hdrop : s.log.drop (s.cursor + ts.length) = rest := by
      rw [← List.drop_drop, ← hrest]
      simp
    rw [List.map_append, ← hrest, List.prefix_append_right_inj, ← hdrop]
    exact hus
  slots := by simp [h'.slots, h.slots]
  stepPc hpc := by
    simp only [List.map_append, sites_append, List.mem_append, not_or] at hpc
    obtain ⟨⟨hts, hus⟩, hrefused⟩ := hpc
    rw [h'.stepPc (by simp [hus, hrefused]), h.stepPc (by simpa using hts)]

/-- `t` is `s` after accesses at exactly the sites `l`, all let through. -/
def State.Accepted (s : State) (l : List Site) (t : State) : Prop :=
  ∃ ts, s.Performs ts [] t ∧ sites (ts.map Touch.op) = l

/-- `t` is `s` after accesses at the first of the sites `l`, all let through but at most the last. -/
def State.Ended (s : State) (l : List Site) (t : State) : Prop :=
  ∃ ts refused, refused.length ≤ 1 ∧ s.Performs ts refused t ∧ sites (ts.map Touch.op ++ refused) <+: l

section
variable {s t u : State} {l l' : List Site}

theorem State.Accepted.refl (s : State) : s.Accepted [] s := ⟨[], .refl s, rfl⟩

theorem State.Accepted.ended (h : s.Accepted l t) : s.Ended l t := by
  obtain ⟨ts, hp, rfl⟩ := h
  exact ⟨ts, [], by simp, hp, by simp⟩

theorem State.Ended.mono (h : s.Ended l t) (hl : l <+: l') : s.Ended l' t := by
  obtain ⟨ts, refused, hle, hp, hs⟩ := h
  exact ⟨ts, refused, hle, hp, hs.trans hl⟩

theorem State.Accepted.trans (h : s.Accepted l t) (h' : t.Accepted l' u) : s.Accepted (l ++ l') u := by
  obtain ⟨ts, hp, rfl⟩ := h
  obtain ⟨us, hp', rfl⟩ := h'
  exact ⟨ts ++ us, hp.trans hp', by simp⟩

theorem State.Accepted.trans_ended (h : s.Accepted l t) (h' : t.Ended l' u) : s.Ended (l ++ l') u := by
  obtain ⟨ts, hp, rfl⟩ := h
  obtain ⟨us, refused, hle, hp', hs⟩ := h'
  refine ⟨ts ++ us, refused, hle, hp.trans hp', ?_⟩
  rw [List.map_append, List.append_assoc, sites_append, List.prefix_append_right_inj]
  exact hs

/-- No access is at the result port. -/
theorem State.Ended.finish (h : s.Ended l t) (r : StepResult) : s.Ended l (t.finish r) := by
  obtain ⟨ts, refused, hle, hp, hs⟩ := h
  exact ⟨ts, refused, hle, { hp with }, hs⟩

theorem State.Ended.conclude (h : s.Ended l t) (c : Word) (halted : Bool) :
    s.Ended l (t.conclude c halted) := by
  rw [State.conclude_eq]
  exact h.finish _

/-- The latch of the Step's own pc comes with a read of the pc (45_step_controller.md R213). -/
theorem State.Accepted.setStepPc (h : s.Accepted l t) (hpc : (.read, some .pc) ∈ l) (v : Word) :
    s.Accepted l (t.setStepPc v) := by
  obtain ⟨ts, hp, rfl⟩ := h
  exact ⟨ts, { hp with stepPc := fun hno => absurd hpc (by simpa using hno) }, rfl⟩

end

/-! ### The accesses of an operation -/

/-- Run from `s`, the operation accesses the sites `all` in order: those of `done` if it answers, by default
all of them, and the first of them if it raises. -/
def Result.Accesses {α : Type} (r : Result α) (s : State) (all : List Site)
    (done : α → List Site := fun _ => all) : Prop :=
  r.Spec (fun a t => s.Accepted (done a) t) (fun _ t => s.Ended all t)

theorem Result.accesses_ok {α : Type} (a : α) (s : State) : (Result.ok a s).Accesses s [] :=
  State.Accepted.refl s

theorem Result.Accesses.of_ok {α : Type} {r : Result α} {s t : State} {all : List Site}
    {done : α → List Site} {a : α} (h : r.Accesses s all done) (hr : r = .ok a t) :
    s.Accepted (done a) t := by
  subst hr
  exact h

theorem Result.Accesses.of_raised {α : Type} {r : Result α} {s t : State} {all : List Site}
    {done : α → List Site} {e : StepError} (h : r.Accesses s all done) (hr : r = .raised e t) :
    s.Ended all t := by
  subst hr
  exact h

/-- Accesses after those of `l`. -/
theorem State.Accepted.accesses {α : Type} {r : Result α} {s t : State} {l all : List Site}
    {done : α → List Site} (h : s.Accepted l t) (hr : r.Accesses t all done) :
    r.Accesses s (l ++ all) fun a => l ++ done a :=
  Result.Spec.mono hr (fun _ _ => h.trans) fun _ _ => h.trans_ended

theorem Result.Accesses.andThen {α β : Type} {r : Result α} {k : α → State → Result β} {s : State}
    {l all : List Site} {done : β → List Site} (h : r.Accesses s l)
    (hk : ∀ a t, (k a t).Accesses t all done) :
    (r.andThen k).Accesses s (l ++ all) fun b => l ++ done b :=
  Result.Spec.andThen (h.mono (fun _ _ => id) fun _ _ he => he.mono (List.prefix_append l all))
    fun a t ha => ha.accesses (hk a t)

/-! ### The facade -/

theorem State.Accepted.touch {s : State} {x : Touch}
    (hl : s.caller ≠ .honest → s.log[s.cursor]? = some x.entry) :
    s.Accepted [x.op.site] ((s.touched [x]).stored x.op) :=
  ⟨[x], .touch hl, rfl⟩

theorem State.Ended.refused (s : State) (op : ProviderOp) : s.Ended [op.site] ((s.issue op).stored op) :=
  ⟨[], [op], Nat.le_refl 1, .refused s op, List.prefix_rfl⟩

section
variable (s : State)

theorem readCycle_accesses : (readCycle s).Accesses s [(.read, some .cycle)] :=
  (readCycle_spec s).mono (fun _ _ ⟨ht, _, hl⟩ => ht ▸ .touch hl) fun _ _ hf => hf.1 ▸ .refused s .readCycle

theorem readHalt_accesses : (readHalt s).Accesses s [(.read, some .halt)] :=
  (readHalt_spec s).mono (fun _ _ ⟨_, _, ht, _, hl⟩ => ht ▸ .touch hl)
    fun _ _ hf => hf.1 ▸ .refused s .readHaltFlag

theorem readPc_accesses : (readPc s).Accesses s [(.read, some .pc)] :=
  (readPc_spec s).mono (fun _ _ ⟨ht, _, hl⟩ => ht ▸ .touch hl) fun _ _ hf => hf.1 ▸ .refused s .readPc

theorem readX_accesses (i : RegIdx) : (readX i s).Accesses s [(.read, some (.x i))] :=
  (readX_spec i s).mono (fun _ _ ⟨_, _, ht, _, hl⟩ => ht ▸ .touch hl)
    fun _ _ hf => hf.1 ▸ .refused s (.readRegister i)

theorem memRead_accesses (addr : Word) (n : Width) : (memRead addr n s).Accesses s [(.read, none)] := by
  refine (memRead_spec addr n s).mono (fun _ _ ⟨_, _, _, ht, _, hl⟩ => ht ▸ .touch hl) fun _ _ herr => ?_
  rcases herr with ⟨_, _, rfl⟩ | hf
  · exact (State.Accepted.refl _).ended.mono List.nil_prefix
  · exact hf.1 ▸ .refused s (.readWord (alignDown addr))

/-- The register write of an instruction whose destination is `rd`: none for register 0 (R127). -/
def regWriteSites (rd : RegIdx) : List Site :=
  (if rd = 0 then [] else [rd]).map fun r => (.write, some (.x r))

theorem writeX_accesses (i : RegIdx) (v : Word) : (writeX i v s).Accesses s (regWriteSites i) := by
  by_cases hi : i = 0
  · subst hi
    exact Result.accesses_ok () s
  · rw [regWriteSites, if_neg hi]
    refine (writeX_spec i v s).mono (fun _ _ ⟨ht, hl⟩ => ?_)
      fun _ _ ⟨_, hf⟩ => hf.1 ▸ .refused s (.writeRegister i v)
    rw [touchWriteX, State.writeReg, if_neg hi, if_neg hi] at ht
    exact ht ▸ .touch (x := ⟨.writeRegister i v, s.cfg.posX[i], v, .write⟩) (hl hi)

theorem writePc_accesses (v : Word) : (writePc v s).Accesses s [(.write, some .pc)] :=
  (writePc_spec v s).mono (fun _ _ ⟨ht, hl⟩ => ht ▸ .touch hl) fun _ _ hf => hf.1 ▸ .refused s (.writePc v)

theorem writeCycle_accesses (v : Word) : (writeCycle v s).Accesses s [(.write, some .cycle)] :=
  (writeCycle_spec v s).mono (fun _ _ ⟨ht, hl⟩ => ht ▸ .touch hl)
    fun _ _ hf => hf.1 ▸ .refused s (.writeCycle v)

/-! ### The executors -/

/-- What an executor accesses before it writes the pc (10_state.md R23, 45_step_controller.md R223): the
sources in order, the word of a load, the destination. -/
def bodySites (i : Instr) : List Site :=
  i.sources.map (fun r => (AccessKind.read, some (Slot.x r)))
    ++ ((if i.loadForm.isSome then [(AccessKind.read, none)] else [])
      ++ i.written.map fun rd => (AccessKind.write, some (Slot.x rd)))

def executorSites (i : Instr) : List Site := bodySites i ++ [(AccessKind.write, some Slot.pc)]

theorem branchIf_accesses (cond : Word → Word → Bool) (rs1 rs2 : RegIdx) (imm : Word) :
    (branchIf cond rs1 rs2 imm s).Accesses s
      [(.read, some (.x rs1)), (.read, some (.x rs2)), (.write, some .pc)] := by
  refine (readX_accesses s rs1).andThen fun a t => (readX_accesses t rs2).andThen fun b u => ?_
  split
  · exact writePc_accesses u _
  · exact writePc_accesses u _

theorem load_accesses (n : Width) (ext : Width → Word → Word) (rd rs1 : RegIdx) (imm : Word) :
    (load n ext rd rs1 imm s).Accesses s
      ((.read, some (.x rs1)) :: (.read, none) :: (regWriteSites rd ++ [(AccessKind.write, some Slot.pc)])) :=
  (readX_accesses s rs1).andThen fun _ t => (memRead_accesses t _ n).andThen fun _ u =>
    (writeX_accesses u rd _).andThen fun _ w => writePc_accesses w _

theorem executor_accesses (i : Instr) : (executor i s).Accesses s (executorSites i) := by
  cases i with
  | lui rd imm | auipc rd imm | jal rd imm =>
    exact (writeX_accesses s rd _).andThen fun _ t => writePc_accesses t _
  | jalr rd rs1 imm =>
    exact (readX_accesses s rs1).andThen fun _ t => (writeX_accesses t rd _).andThen fun _ u =>
      writePc_accesses u _
  | beq rs1 rs2 imm | bne rs1 rs2 imm | blt rs1 rs2 imm | bge rs1 rs2 imm | bltu rs1 rs2 imm
  | bgeu rs1 rs2 imm => exact branchIf_accesses s _ rs1 rs2 imm
  | lb rd rs1 imm | lh rd rs1 imm | lw rd rs1 imm | lbu rd rs1 imm | lhu rd rs1 imm =>
    exact load_accesses s _ _ rd rs1 imm

/-- An executor raises nothing and makes all its accesses, or leaves a result and makes the first of them. -/
theorem exec_accesses {i : Instr} {t : State} (h : exec i s = .next t) :
    s.Accepted (executorSites i) t ∨ s.Ended (executorSites i) t ∧ t.result ≠ none := by
  obtain ⟨u, hu, hacc⟩ := Result.Spec.settle (executor_accesses s i)
  obtain rfl : u = t := by simpa [exec_eq_settle, hu] using h
  rcases hacc with hacc | ⟨e, w, hw, rfl⟩
  · exact .inl hacc
  · exact .inr ⟨hw.finish _, by simp⟩

theorem exec_accepted {i : Instr} {t : State} (h : exec i s = .next t) (hr : t.result = none) :
    s.Accepted (executorSites i) t :=
  (exec_accesses s h).resolve_right fun hend => hend.2 hr

theorem exec_ended {i : Instr} {t : State} (h : exec i s = .next t) : s.Ended (executorSites i) t :=
  (exec_accesses s h).elim State.Accepted.ended And.left

/-! ### The Step Controller -/

def frontSites : List Site :=
  [(.read, some .cycle), (.read, some .halt), (.read, some .pc), (.read, none)]

/-- The accesses of a front that answers: a no-op Step has read the two control cells only (R212). -/
def Front.sites : Front → List Site
  | .idle _ _ => frontSites.take 2
  | .run _ _ => frontSites

theorem Front.sites_prefix (f : Front) : f.sites <+: frontSites := by
  cases f with
  | idle => exact List.take_prefix 2 _
  | run => exact List.prefix_rfl

theorem fetch_accesses : (fetch s).Accesses s [(.read, some .pc), (.read, none)] := by
  have hpc : (readPc s).Spec (fun pc t => s.Accepted [(.read, some .pc)] (t.setStepPc pc))
      (fun _ t => s.Ended [(.read, some .pc), (.read, none)] t) :=
    (readPc_accesses s).mono (fun pc _ ht => ht.setStepPc (by simp) pc)
      fun _ _ he => he.mono (List.take_prefix 1 [_, _])
  exact hpc.andThen fun pc t ht =>
    Result.Spec.andThen (ht.accesses (memRead_accesses _ pc .word)) fun _ _ hw => hw

theorem front_accesses : (front s).Accesses s frontSites Front.sites := by
  have hacc : (front s).Accesses s frontSites fun f : Front => frontSites.take 2 ++ f.sites.drop 2 := by
    refine (readCycle_accesses s).andThen (all := frontSites.drop 1)
      (done := fun f : Front => (.read, some .halt) :: f.sites.drop 2) fun c t =>
        (readHalt_accesses t).andThen fun halted u => ?_
    split
    · exact State.Accepted.refl u
    · split
      · exact State.Accepted.refl u
      · exact Result.Spec.andThen (fetch_accesses u) fun _ _ hv => hv
  refine hacc.mono (fun f t ht => ?_) fun _ _ he => he
  cases f with
  | idle | run => exact ht

theorem retire_ended (c : Word) : s.Ended [(.write, some .cycle)] (retire c s) := by
  have hw := writeCycle_accesses s (c + 1#64)
  unfold retire
  split
  · next ht => exact (hw.of_ok ht).ended.conclude _ _
  · next ht => exact (hw.of_raised ht).finish _

end

/-- The accesses of a Step that runs `i`. -/
def stepSites (i : Instr) : List Site := frontSites ++ executorSites i ++ [(AccessKind.write, some Slot.cycle)]

/-- A Step makes the first of the accesses of a Step that runs some instruction: of the one it decoded or, if
it ended before its executor, of any. -/
theorem StepEnd.ended {u t : State} (h : StepEnd u t) : ∃ i, u.Ended (stepSites i) t := by
  have hfront : ∀ i, frontSites <+: stepSites i := fun i => by
    rw [stepSites, List.append_assoc]
    exact List.prefix_append _ _
  cases h with
  | frontRaised e v hf ht =>
    exact ⟨.lui 0 0, ht ▸ (((front_accesses u).of_raised hf).mono (hfront _)).finish _⟩
  | idle c halted v hf ht =>
    have hidle := ((front_accesses u).of_ok hf).ended.mono (Front.sites_prefix _)
    exact ⟨.lui 0 0, ht ▸ (hidle.mono (hfront _)).conclude _ _⟩
  | unsupported c bits v _ hf _ ht =>
    exact ⟨.lui 0 0, ht ▸ (((front_accesses u).of_ok hf).ended.mono (hfront _)).finish _⟩
  | executed c bits v i w hf _ hexec ht =>
    have hrun : u.Accepted frontSites v := (front_accesses u).of_ok hf
    refine ⟨i, ?_⟩
    rw [ht]
    split
    · next hw =>
      exact (hrun.trans (exec_accepted v hexec (by simpa using hw))).trans_ended (retire_ended w c)
    · exact (hrun.trans_ended (exec_ended v hexec)).mono (List.prefix_append _ _)

end Sys2Proof.Machine
end

section
/-!
Invariants and frames of 10_state.md, read off the sites that an executor and a Step access.
-/

namespace Sys2Proof

theorem Instr.mem_written_iff (i : Instr) (r : RegIdx) : r ∈ i.written ↔ i.dest = some r ∧ r ≠ 0 := by
  unfold Instr.written
  cases i.dest with
  | none => simp
  | some rd =>
    dsimp only
    split
    · next h => simp +contextual [h, eq_comm]
    · next h =>
      rw [List.mem_singleton, Option.some.injEq]
      exact ⟨fun hr => ⟨hr.symm, hr ▸ h⟩, fun hr => hr.1.symm⟩

/-- The number that `Config.slotPlacement` places for a slot. -/
def Slot.number : Slot → Word
  | .cycle => 0#64
  | .halt => 1#64
  | .pc => 2#64
  | .x i => BitVec.ofNat 64 (3 + i.val)

theorem Config.atReset_position (sl : Slot) :
    Config.atReset.position sl = Config.slotPlacement sl.number := by
  cases sl with
  | x i => simp [Config.position, Config.atReset, Slot.number]
  | cycle | halt | pc => rfl

/-- 10_state.md R33: a permutation keeps the 35 numbers apart. -/
theorem Config.atReset_distinct : Config.atReset.distinct := by
  have hpos : Slot.all.map Config.atReset.position
      = (Slot.all.map Slot.number).map Config.slotPlacement := by
    rw [List.map_map]
    exact List.map_congr_left fun sl _ => Config.atReset_position sl
  unfold Config.distinct
  rw [hpos]
  exact List.Nodup.map Config.slotPlacement.injective (by decide)

end Sys2Proof

namespace Sys2Proof.Machine

/-! ### What the sites of an executor and of a Step are -/

theorem write_mem_bodySites_iff (i : Instr) (o : Option Slot) :
    (.write, o) ∈ bodySites i ↔ ∃ r ∈ i.written, o = some (.x r) := by
  unfold bodySites
  split <;> simp [eq_comm]

theorem write_mem_executorSites_iff (i : Instr) (o : Option Slot) :
    (.write, o) ∈ executorSites i ↔ (∃ r ∈ i.written, o = some (.x r)) ∨ o = some .pc := by
  simp [executorSites, write_mem_bodySites_iff]

theorem write_mem_stepSites_iff (i : Instr) (o : Option Slot) :
    (.write, o) ∈ stepSites i ↔
      ((∃ r ∈ i.written, o = some (.x r)) ∨ o = some .pc) ∨ o = some .cycle := by
  simp [stepSites, frontSites, write_mem_executorSites_iff]

theorem readPc_not_mem_executorSites (i : Instr) : (.read, some .pc) ∉ executorSites i := by
  unfold executorSites bodySites
  split <;> simp

theorem filterMap_readsRegister_executorSites (i : Instr) :
    (executorSites i).filterMap Site.readsRegister = i.sources := by
  unfold executorSites bodySites
  split <;> simp [Function.comp_def, List.filterMap_cons]

theorem filterMap_writesRegister_executorSites (i : Instr) :
    (executorSites i).filterMap Site.writesRegister = i.written := by
  unfold executorSites bodySites
  split <;> simp [Function.comp_def, List.filterMap_cons]

theorem ProviderOp.neverIssued_iff_site (op : ProviderOp) :
    op.neverIssued = true ↔ op.site = (.write, none) ∨ op.site = (.write, some (.x 0)) := by
  cases op <;> simp [ProviderOp.neverIssued, ProviderOp.site]

/-- No Step writes a memory word (20_memory.md R57) or register 0 (40_verifier_facade.md R127). -/
theorem neverIssued_of_site_mem_stepSites {i : Instr} {op : ProviderOp} (h : op.site ∈ stepSites i) :
    op.neverIssued = false := by
  rw [Bool.eq_false_iff, ne_eq, ProviderOp.neverIssued_iff_site]
  rintro (hs | hs)
  · rw [hs, write_mem_stepSites_iff] at h
    simp at h
  · rw [hs, write_mem_stepSites_iff] at h
    simp [Instr.mem_written_iff] at h

/-! ### What accesses at given sites leave unchanged -/

section
variable {s t : State} {l : List Site}

theorem State.Ended.cfg (h : s.Ended l t) : t.cfg = s.cfg := by
  obtain ⟨_, _, _, hp, _⟩ := h
  exact hp.cfg

theorem State.Ended.mem (h : s.Ended l t) : t.mem = s.mem := by
  obtain ⟨_, _, _, hp, _⟩ := h
  exact hp.mem

theorem State.Ended.caller (h : s.Ended l t) : t.caller = s.caller := by
  obtain ⟨_, _, _, hp, _⟩ := h
  exact hp.caller

theorem State.Ended.slotWord (h : s.Ended l t) {sl : Slot} (hsl : (.write, some sl) ∉ l) :
    t.slotWord sl = s.slotWord sl := by
  obtain ⟨_, _, _, hp, hs⟩ := h
  rw [hp.slots]
  exact foldl_slotsAfter_of_not_mem _ _ fun hmem => hsl (hs.subset hmem)

theorem State.Ended.stepPc (h : s.Ended l t) (hl : (.read, some .pc) ∉ l) : t.stepPc = s.stepPc := by
  obtain ⟨_, _, _, hp, hs⟩ := h
  exact hp.stepPc fun hmem => hl (hs.subset hmem)

/-- The registers a trace reads and writes are those of its sites, as far as it got. -/
theorem State.Ended.registers (h : s.Ended l t) :
    ∃ ops, t.trace = s.trace ++ ops ∧
      ops.filterMap ProviderOp.readsRegister <+: l.filterMap Site.readsRegister ∧
      ops.filterMap ProviderOp.writesRegister <+: l.filterMap Site.writesRegister := by
  obtain ⟨ts, refused, _, hp, hs⟩ := h
  refine ⟨_, hp.trace, ?_, ?_⟩
  · rw [filterMap_readsRegister]
    exact hs.filterMap _
  · rw [filterMap_writesRegister]
    exact hs.filterMap _

theorem State.Accepted.registers (h : s.Accepted l t) :
    ∃ ops, t.trace = s.trace ++ ops ∧
      ops.filterMap ProviderOp.readsRegister = l.filterMap Site.readsRegister ∧
      ops.filterMap ProviderOp.writesRegister = l.filterMap Site.writesRegister := by
  obtain ⟨ts, hp, rfl⟩ := h
  exact ⟨_, by simpa using hp.trace, filterMap_readsRegister _, filterMap_writesRegister _⟩

/-- Accesses keep the cursor inside the log, since only entries that are there are consumed. -/
theorem State.Performs.cursor_le {ts : List Touch} {refused : List ProviderOp}
    (h : s.Performs ts refused t) (hs : s.cursor ≤ s.log.length) : t.cursor ≤ t.log.length := by
  rw [h.cursor, h.log, State.touched_log]
  split
  · simpa using hs
  · next hc =>
    have hle := (h.claimed hc).length_le
    rw [List.length_map, List.length_drop] at hle
    omega

/-- An honest log grows with the cursor. -/
theorem State.Performs.cursor_eq {ts : List Touch} {refused : List ProviderOp}
    (h : s.Performs ts refused t) (hc : s.caller = .honest) (hs : s.cursor = s.log.length) :
    t.cursor = t.log.length := by
  rw [h.cursor, h.log, State.touched_log, if_pos hc, List.length_append, List.length_map, hs]

end

/-! ### Executors -/

/-- The frame of every executor: it writes no slot but its destination and the pc. -/
theorem exec_keeps {i : Instr} {s t : State} (h : exec i s = .next t) : Keeps i s t := by
  have hend := exec_ended s h
  have hreg : ∀ r, r ∉ i.written → t.regs[r] = s.regs[r] := fun r hr =>
    hend.slotWord (sl := .x r) (by simpa [write_mem_executorSites_iff] using hr)
  refine ⟨fun r hr => hreg r fun hw => hr ((Instr.mem_written_iff i r).mp hw).1.symm,
    hreg 0 fun hw => ((Instr.mem_written_iff i 0).mp hw).2 rfl,
    hend.slotWord (sl := .cycle) (by simp [write_mem_executorSites_iff]),
    hend.slotWord (sl := .halt) (by simp [write_mem_executorSites_iff]),
    fun a => by rw [hend.mem], hend.cfg, hend.caller, hend.stepPc (readPc_not_mem_executorSites i)⟩

/-- Settles O25: the frame that every executor has, nine times. -/
theorem registerWritersKeepTheRest : Obligations.RegisterWritersKeepTheRest := by
  intro rd rs1 imm s t
  exact ⟨exec_keeps, exec_keeps, exec_keeps, exec_keeps, exec_keeps, exec_keeps, exec_keeps, exec_keeps,
    exec_keeps⟩

theorem ProviderOp.eq_writePc_of_site {op : ProviderOp} (h : op.site = (.write, some .pc)) :
    ∃ v, op = .writePc v := by
  cases op with
  | writePc v => exact ⟨v, rfl⟩
  | _ => simp [ProviderOp.site] at h

/-- Settles O27: the last site of an executor is the write of the pc, and its body has no such site. -/
theorem executorEndsInOnePcWrite : Obligations.ExecutorEndsInOnePcWrite := by
  intro i s t _ h hr
  obtain ⟨ts, hp, hs⟩ := exec_accepted s h hr
  obtain ⟨ops, last, hops, hbody, hlast⟩ := List.map_eq_append_iff.mp hs
  obtain ⟨op, rfl, hop⟩ := List.map_eq_singleton_iff.mp hlast
  obtain ⟨v, rfl⟩ := ProviderOp.eq_writePc_of_site hop
  refine ⟨ops, v, by simp [hp.trace, hops], ?_, fun w hw => ?_⟩
  · have hpc := congrFun hp.slots .pc
    rw [List.append_nil, hops, List.foldl_append] at hpc
    exact hpc.trans (by simp [slotsAfter, ProviderOp.slotWrite])
  · have hmem : (.write, some .pc) ∈ bodySites i := hbody ▸ List.mem_map_of_mem hw
    simp [write_mem_bodySites_iff] at hmem

/-- Settles O28: the registers of an executor's sites are its sources and its destination, and the sites of
the front and of the cycle write are no registers. -/
theorem executorTouchesOnlyItsRegisters : Obligations.ExecutorTouchesOnlyItsRegisters := by
  refine ⟨fun i s t _ h => ?_, fun s t h => ?_⟩
  · rw [← filterMap_readsRegister_executorSites i, ← filterMap_writesRegister_executorSites i]
    rcases exec_accesses s h with hacc | ⟨hend, hres⟩
    · obtain ⟨ops, htrace, hread, hwrite⟩ := hacc.registers
      exact ⟨ops, htrace, hread ▸ List.prefix_rfl, hwrite ▸ List.prefix_rfl, fun _ => ⟨hread, hwrite⟩⟩
    · obtain ⟨ops, htrace, hread, hwrite⟩ := hend.registers
      exact ⟨ops, htrace, hread, hwrite, fun hr => absurd hr hres⟩
  · obtain ⟨l, hend, hreads, hwrites⟩ : ∃ l, s.Ended l t ∧ l.filterMap Site.readsRegister = [] ∧
        l.filterMap Site.writesRegister = [] := by
      rcases h with ⟨f, hf⟩ | ⟨e, hf⟩ | ⟨c, rfl⟩
      · exact ⟨frontSites, ((front_accesses s).of_ok hf).ended.mono f.sites_prefix, rfl, rfl⟩
      · exact ⟨frontSites, (front_accesses s).of_raised hf, rfl, rfl⟩
      · exact ⟨_, retire_ended s c, rfl, rfl⟩
    obtain ⟨ops, htrace, hread, hwrite⟩ := hend.registers
    exact ⟨ops, htrace, List.prefix_nil.mp (hreads ▸ hread), List.prefix_nil.mp (hwrites ▸ hwrite)⟩

/-! ### Steps -/

/-- A Step starts with a fresh log side on the store as it is (70_reset_and_hazards.md R271). -/
structure State.Begins (s u : State) : Prop where
  cfg : u.cfg = s.cfg
  mem : u.mem = s.mem
  slots : u.slotWord = s.slotWord
  cursor : u.cursor = 0
  trace : u.trace = []
  log : u.caller = .honest → u.log = []

theorem State.begins_of_beginStep {s u : State} (h : s.beginStep = some u) : s.Begins u := by
  unfold State.beginStep at h
  split at h
  · next hc =>
    obtain rfl := Option.some.inj h
    exact ⟨rfl, rfl, rfl, rfl, rfl, fun _ => rfl⟩
  · cases h
  · obtain rfl := Option.some.inj h
    exact ⟨rfl, rfl, rfl, rfl, rfl, nofun⟩

/-- Every Step begins afresh and makes the first of the accesses of some instruction's Step. -/
theorem step_begins_ended {s t : State} (h : step s = .next t) :
    ∃ u i, s.Begins u ∧ u.Ended (stepSites i) t := by
  obtain ⟨u, hu, hend⟩ := step_next_cases h
  obtain ⟨i, hi⟩ := hend.ended
  exact ⟨u, i, State.begins_of_beginStep hu, hi⟩

/-- Settles O35: no site of a Step is a write of the halt flag, of a memory word or of register 0. -/
theorem noStepChangesHaltMemoryOrZero : Obligations.NoStepChangesHaltMemoryOrZero := by
  intro s t h
  obtain ⟨u, i, hu, hend⟩ := step_begins_ended h
  have hslot : ∀ sl, (.write, some sl) ∉ stepSites i → t.slotWord sl = s.slotWord sl := fun sl hsl =>
    (hend.slotWord hsl).trans (congrFun hu.slots sl)
  exact ⟨hslot .halt (by simp [write_mem_stepSites_iff]), fun a => by rw [hend.mem, hu.mem],
    hslot (.x 0) (by simp [write_mem_stepSites_iff, Instr.mem_written_iff]), hend.cfg.trans hu.cfg⟩

/-- Settles O38: the store's part of the invariant is kept as no Step writes it, and the log's part holds
after the accesses of a Step that began with nothing consumed, recorded or issued. -/
theorem stepKeepsTheInvariant : Obligations.StepKeepsTheInvariant := by
  intro s t hs h
  obtain ⟨_, _, hzero, hcfg⟩ := noStepChangesHaltMemoryOrZero s t h
  obtain ⟨u, i, hu, hend⟩ := step_begins_ended h
  have hmem : t.mem = s.mem := hend.mem.trans hu.mem
  obtain ⟨ts, refused, hle, hp, hsites⟩ := hend
  have hcursor : t.cursor = ts.length := by rw [hp.cursor, hu.cursor, Nat.zero_add]
  have htrace : t.trace = ts.map Touch.op ++ refused := by rw [hp.trace, hu.trace, List.nil_append]
  refine {
    distinct := hcfg ▸ hs.distinct
    memory := hmem ▸ hs.memory
    zero := ?_
    cursor_le := hp.cursor_le (hu.cursor ▸ Nat.zero_le _)
    honest_end := fun hc => ?_
    trace_ge := by simp [hcursor, htrace]
    trace_le := by simp [hcursor, htrace, hle]
    ops := fun op hop => ?_ }
  · have hz := hs.zero
    unfold State.zeroReg at hz ⊢
    rwa [hzero]
  · have hcu : u.caller = .honest := hp.caller ▸ hc
    exact hp.cursor_eq hcu (by rw [hu.cursor, hu.log hcu, List.length_nil])
  · exact neverIssued_of_site_mem_stepSites (hsites.subset (List.mem_map_of_mem (htrace ▸ hop)))

/-- A Step begins the same whatever an earlier one left in the Step-local cells and the result port. -/
theorem State.beginStep_stepLocal (s : State) (log : AccessLog) (cursor : Nat) (stepPc : Word)
    (trace : List ProviderOp) (result : Option StepResult) :
    State.beginStep { s with
      log := log, cursor := cursor, stepPc := stepPc, trace := trace, result := result } = s.beginStep := by
  unfold State.beginStep
  cases s.caller with
  | honest => rfl
  | claims pending => cases pending <;> rfl

/-- Settles O37: a Step depends on its start state through `beginStep` alone. -/
theorem nothingIsCarriedBetweenSteps : Obligations.NothingIsCarriedBetweenSteps := by
  intro s log cursor stepPc trace result
  unfold step
  rw [State.beginStep_stepLocal]

/-! ### Reset -/

/-- Settles O39: nothing is recorded or issued at reset, and memory and register 0 are empty and zero. -/
theorem resetMeetsTheInvariant : Obligations.ResetMeetsTheInvariant :=
  ⟨{ distinct := Config.atReset_distinct
     memory := rfl
     zero := by decide
     cursor_le := Nat.le_refl 0
     honest_end := fun _ => rfl
     trace_ge := Nat.le_refl 0
     trace_le := Nat.zero_le 1
     ops := nofun }, rfl, by decide⟩

end Sys2Proof.Machine
end

section
/-!
Memory accesses (20_memory.md): where a legal access lies (R51 to R54), the bytes `MemRead` takes (R55) and the
bytes `MemWrite` replaces (R58, R59). Words are compared byte by byte, so the lemmas speak of `byteOf`.
-/

namespace Sys2Proof.Machine

/-! ### Alignment, containing word and lane (R51 to R54) -/

theorem laneShift_eq (addr : Word) : laneShift addr = 8 * (addr.toNat % 8) := by
  have hlow : (addr &&& 7#64).toNat = addr.toNat % 8 :=
    (BitVec.toNat_and _ _).trans (Nat.and_two_pow_sub_one_eq_mod addr.toNat 3)
  rw [laneShift, hlow, Nat.mul_comm]

/-- Clearing the low three bits is shifting them out and zeros back in. -/
theorem alignDown_eq_shift (addr : Word) : alignDown addr = addr >>> 3 <<< 3 := by
  have hmask : 7#64 = lowMask 3 := rfl
  apply BitVec.eq_of_getLsbD_eq
  intro i hi
  rw [alignDown, hmask, BitVec.getLsbD_and, BitVec.getLsbD_not, lowMask_getLsbD 3 i hi,
    BitVec.getLsbD_shiftLeft, BitVec.getLsbD_ushiftRight]
  by_cases h3 : i < 3
  · simp [h3]
  · simp [h3, hi, show 3 + (i - 3) = i by omega]

theorem alignDown_toNat (addr : Word) : (alignDown addr).toNat = addr.toNat / 8 * 8 := by
  have hlt := addr.isLt
  rw [alignDown_eq_shift, BitVec.toNat_shiftLeft, BitVec.toNat_ushiftRight, Nat.shiftLeft_eq,
    Nat.shiftRight_eq_div_pow]
  omega

theorem alignDown_toNat_mod (addr : Word) : (alignDown addr).toNat % 8 = 0 := by
  rw [alignDown_toNat, Nat.mul_mod_left]

/-- `lane_fits` in bytes. -/
theorem lane_add_bytes_le {n : Width} {addr : Word} (h : n.aligned addr = true) :
    addr.toNat % 8 + n.bytes ≤ 8 := by
  have hfits := lane_fits n addr h
  rw [laneShift_eq, Width.bits] at hfits
  omega

/-- Settles O8: the alignment condition as a remainder, and the fact `MemWrite` owes to `packBits`, in bytes. -/
theorem legalAccessLiesInOneWord : Obligations.LegalAccessLiesInOneWord := fun n addr =>
  ⟨n.aligned_iff addr, alignDown_toNat addr, laneShift_eq addr, lane_add_bytes_le⟩

/-! ### Bytes of the extracted and of the spliced word (R55, R58) -/

theorem byteOf_getLsbD (v : Word) {k i : Nat} (hi : i < 8) :
    (byteOf v k).getLsbD i = v.getLsbD (8 * k + i) := by
  rw [byteOf, BitVec.getLsbD_extractLsb', decide_eq_true hi, Bool.true_and]

theorem shr64_getLsbD (v : Word) (c k : Nat) : (shr64 v c).getLsbD k = v.getLsbD (c % 64 + k) := by
  rw [shr64, and_63_eq_mod, BitVec.getLsbD_ushiftRight]

theorem Width.extract_of_ne_double {n : Width} (hn : n ≠ .double) (addr w : Word) :
    n.extract addr w = shr64 w (laneShift addr) &&& lowMask n.bits := by
  cases n with
  | double => exact absurd rfl hn
  | byte | half | word => rfl

/-- A legal access takes the bits of its width from its lane on. At 8 bytes that is the whole word. -/
theorem Width.extract_getLsbD {n : Width} {addr w : Word} (h : n.aligned addr = true) {k : Nat}
    (hk : k < 64) :
    (n.extract addr w).getLsbD k = (decide (k < n.bits) && w.getLsbD (laneShift addr + k)) := by
  by_cases hn : n = .double
  · subst hn
    have hzero : laneShift addr = 0 := Nat.le_zero.mp (Nat.le_of_add_le_add_right (lane_fits .double addr h))
    rw [hzero, Nat.zero_add, decide_eq_true (show k < Width.double.bits from hk), Bool.true_and]
    rfl
  · have hlane : laneShift addr % 64 = laneShift addr := by
      rw [laneShift_eq]
      omega
    rw [Width.extract_of_ne_double hn, BitVec.getLsbD_and, shr64_getLsbD, hlane, lowMask_getLsbD _ _ hk,
      Bool.and_comm]

theorem Width.byteOf_extract {n : Width} {addr w : Word} (h : n.aligned addr = true) {k : Nat}
    (hk : k < 8) :
    byteOf (n.extract addr w) k = if k < n.bytes then byteOf w (addr.toNat % 8 + k) else 0#8 := by
  apply BitVec.eq_of_getLsbD_eq
  intro i hi
  rw [byteOf_getLsbD _ hi, Width.extract_getLsbD h (by omega), laneShift_eq]
  by_cases hin : k < n.bytes
  · have hbit : 8 * k + i < n.bits := by
      rw [Width.bits]
      omega
    rw [if_pos hin, byteOf_getLsbD _ hi, decide_eq_true hbit, Bool.true_and, Nat.mul_add, Nat.add_assoc]
  · have hbit : ¬ 8 * k + i < n.bits := by
      rw [Width.bits]
      omega
    rw [if_neg hin, decide_eq_false hbit, Bool.false_and, BitVec.getLsbD_zero]

/-- `packBits` at whole bytes replaces whole bytes. -/
theorem byteOf_packBits (v w : Word) {j m k : Nat} (h : 8 * j + 8 * m ≤ 64) (hk : k < 8) :
    byteOf (packBits v (8 * m) w (8 * j) h) k
      = if j ≤ k ∧ k < j + m then byteOf v (k - j) else byteOf w k := by
  apply BitVec.eq_of_getLsbD_eq
  intro i hi
  rw [byteOf_getLsbD _ hi, packBitsReplacesExactlyTheField _ _ _ _ h _ (by omega)]
  by_cases hin : j ≤ k ∧ k < j + m
  · rw [if_pos (by omega), if_pos hin, byteOf_getLsbD _ hi]
    congr 1
    omega
  · rw [if_neg (by omega), if_neg hin, byteOf_getLsbD _ hi]

/-- The word that a sub-word store writes back (R58). -/
def spliced (n : Width) (addr v w : Word) (h : n.aligned addr = true) : Word :=
  packBits v n.bits w (laneShift addr) (lane_fits n addr h)

theorem byteOf_spliced {n : Width} {addr : Word} (v w : Word) (h : n.aligned addr = true) {k : Nat}
    (hk : k < 8) :
    byteOf (spliced n addr v w h) k
      = if addr.toNat % 8 ≤ k ∧ k < addr.toNat % 8 + n.bytes then byteOf v (k - addr.toNat % 8)
        else byteOf w k := by
  have hfits := lane_add_bytes_le h
  simp only [spliced, laneShift_eq, Width.bits]
  exact byteOf_packBits v w (by omega) hk

/-! ### `MemRead` (R55) -/

theorem memRead_misaligned {n : Width} {addr : Word} (h : ¬ n.aligned addr = true) (s : State) :
    memRead addr n s = .raised (.misalignedAccess n.bits addr) s := if_neg h

/-- Settles O10: the verified read of the containing word, the bytes of `Width.extract`, and the alignment
check before any access. -/
theorem memReadTakesTheAddressedBytes : Obligations.MemReadTakesTheAddressedBytes := by
  intro n addr w s
  rw [ne_eq, ← n.aligned_iff addr]
  exact ⟨fun h ha => memRead_of_admits h ha, fun h k hk => Width.byteOf_extract h hk,
    fun h => memRead_misaligned h s⟩

/-! ### `MemWrite` (R58) -/

/-- `WriteWord` answers where its entry stands at the cursor. -/
theorem writeWord_of_admits {a v : Word} {s : State} {ts : List Touch}
    (ha : s.admits (touchWriteWord a v :: ts) = true) :
    writeWord a v s = .ok () ((s.touched [touchWriteWord a v]).setStoreWord a v) := by
  have hstored : ((s.issue (.writeWord a v)).setStoreWord a v).admits [touchWriteWord a v] = true :=
    State.admits_write (by simp) (by simp) (by simp) rfl ha
  have hspec := writeWord_spec a v s
  rw [writeWord, consumeWrite_of_admits hstored] at hspec ⊢
  exact congrArg _ hspec.1

theorem memWrite_double_of_admits {addr v : Word} {s : State} {ts : List Touch}
    (h : Width.double.aligned addr = true) (ha : s.admits (touchWriteWord addr v :: ts) = true) :
    memWrite addr .double v s = .ok () ((s.touched [touchWriteWord addr v]).setStoreWord addr v) := by
  rw [memWrite, dif_pos h, if_pos rfl, writeWord_of_admits ha]

theorem memWrite_subword_of_admits {n : Width} {addr v w : Word} {s : State} {ts : List Touch}
    (hn : n ≠ .double) (h : n.aligned addr = true)
    (hts : ts = [touchReadWord (alignDown addr) w, touchWriteWord (alignDown addr) (spliced n addr v w h)])
    (ha : s.admits ts = true) :
    memWrite addr n v s
      = .ok () ((s.touched ts).setStoreWord (alignDown addr) (spliced n addr v w h)) := by
  subst hts
  rw [memWrite, dif_pos h, if_neg hn, readWord_of_admits ha, Result.ok_andThen]
  refine (writeWord_of_admits (State.admits_touched ha)).trans ?_
  rw [State.touched_touched]
  rfl

theorem memWrite_misaligned {n : Width} {addr : Word} (h : ¬ n.aligned addr = true) (v : Word)
    (s : State) : memWrite addr n v s = .raised (.misalignedAccess n.bits addr) s := dif_neg h

/-- Settles O11: the two verified accesses of a sub-word store, whose written word is known by its bytes, the
one access of an 8-byte store, and the alignment check before any access. -/
theorem memWriteSplicesIntoTheWord : Obligations.MemWriteSplicesIntoTheWord := by
  refine ⟨fun n addr v w w' ts s hn hal hbytes hts ha => ?_, fun addr v s hal ha => ?_,
    fun n addr v s hal => ?_⟩
  · have h : n.aligned addr = true := (n.aligned_iff addr).mpr hal
    obtain rfl : w' = spliced n addr v w h :=
      word_ext fun k hk => (hbytes k hk).trans (byteOf_spliced v w h hk).symm
    exact memWrite_subword_of_admits hn h hts ha
  · exact memWrite_double_of_admits ((Width.double.aligned_iff addr).mpr hal) ha
  · exact memWrite_misaligned (mt (n.aligned_iff addr).mp hal) v s

/-! ### The round trip (R59) -/

theorem State.position_of_slotAt {s : State} {a : Word} {sl : Slot} (h : s.slotAt a = some sl) :
    s.cfg.position sl = a := by
  simpa using List.find?_some h

theorem State.slotAt_setStoreWord (s : State) (a v b : Word) :
    (s.setStoreWord a v).slotAt b = s.slotAt b := by
  simp [State.slotAt]

/-- A read after a write of an aligned position of the store (40_verifier_facade.md R131), whichever of the
two positions a mapped slot answers for. -/
theorem State.storeWord_setStoreWord (s : State) {a b : Word} (v : Word) (hm : s.mem.wf = true)
    (ha : a.toNat % 8 = 0) (hb : b.toNat % 8 = 0) :
    (s.setStoreWord a v).storeWord b = if b = a then v else s.storeWord b := by
  unfold State.storeWord
  rw [State.slotAt_setStoreWord]
  unfold State.setStoreWord
  cases hsa : s.slotAt a with
  | none =>
    cases hsb : s.slotAt b with
    | none => exact Memory.readWord_writeWord hm a b v ha hb
    | some sl =>
      have hba : b ≠ a := ne_of_apply_ne s.slotAt (by simp [hsa, hsb])
      rw [if_neg hba]
      rfl
  | some sl =>
    cases hsb : s.slotAt b with
    | none =>
      have hba : b ≠ a := ne_of_apply_ne s.slotAt (by simp [hsa, hsb])
      simp [hba]
    | some sl' =>
      have hslot : sl' = sl ↔ b = a := by
        refine ⟨fun h => ?_, fun h => ?_⟩
        · rw [← State.position_of_slotAt hsb, ← State.position_of_slotAt hsa, h]
        · subst h
          simpa [hsa] using hsb.symm
      simp [State.setSlot_slotWord, Function.update_apply, hslot]

/-- An honest log lets a read of the store's own word and any write after it through. -/
theorem State.admits_readWord_writeWord {s : State} (hc : s.caller = .honest) (a v : Word) :
    s.admits [touchReadWord a (s.storeWord a), touchWriteWord a v] = true := by
  simp [State.admits, hc, State.answer, touchReadWord, touchWriteWord]

/-- Settles O12: the store's own word is read, and what is written back is what a later read returns. -/
theorem subWordStoreRoundTrip : Obligations.SubWordStoreRoundTrip := by
  intro n addr v s hn hc hm hal
  have h : n.aligned addr = true := (n.aligned_iff addr).mpr hal
  have hdown := alignDown_toNat_mod addr
  refine ⟨_, memWrite_subword_of_admits hn h rfl (State.admits_readWord_writeWord hc _ _),
    fun k hk => ?_, fun b hb hne => ?_⟩
  · rw [State.storeWord_setStoreWord (s.touched _) _ hm hdown hdown, if_pos rfl]
    exact byteOf_spliced v _ h hk
  · rw [State.storeWord_setStoreWord (s.touched _) _ hm hdown hb, if_neg hne]
    rfl

end Sys2Proof.Machine
end

section
/-!
The encoding family (30_encoding.md). An immediate is the sign extension of a `k`-bit field that stands `m` bits
up, so it is a multiple of `2^m` in the range of that field. A word is put together from its fields, so an
encoder and the decoder agree where they agree field by field.
-/

namespace Sys2Proof

/-! ### Immediates as sign-extended fields -/

/-- The immediate of a field `x` whose lowest bit has the weight `2^m` (R83 to R86, R88). -/
def immediate (m : Nat) {k : Nat} (x : BitVec k) : Word := sext (k + m) (x ++ 0#m)

theorem toInt_immediate {m k : Nat} (x : BitVec k) (h : k + m ≤ 64) :
    (immediate m x).toInt = 2 ^ m * x.toInt := by
  rw [immediate, sext, BitVec.setWidth_eq, BitVec.toInt_signExtend_of_le h, BitVec.toInt_append_zero]

/-- The bits of the field, wherever an encoder takes them from the immediate. -/
theorem extractLsb'_immediate {m k s n : Nat} (x : BitVec k) (h : k + m ≤ 64) (hs : m ≤ s)
    (hn : s + n ≤ k + m) : (immediate m x).extractLsb' s n = x.extractLsb' (s - m) n := by
  rw [← BitVec.extractLsb'_append_eq_of_le (xlo := 0#m) hs]
  ext j hj
  have h64 : s + j < 64 := by omega
  have hkm : s + j < k + m := by omega
  simp [immediate, sext, BitVec.getElem_signExtend, h64, hkm]

theorem field_immediate {m k : Nat} (x : BitVec k) (h : k + m ≤ 64) :
    (immediate m x).extractLsb' m k = x := by
  rw [extractLsb'_immediate x h le_rfl (by omega), Nat.sub_self, BitVec.extractLsb'_eq_self]

/-- The words that are immediates: the multiples of `2^m` in the range of `k` bits at that weight. -/
theorem immediate_field_eq_iff {m k : Nat} {v : Word} (hk : 0 < k) (h : k + m ≤ 64) :
    immediate m (v.extractLsb' m k) = v ↔
      2 ^ m * -2 ^ (k - 1) ≤ v.toInt ∧ v.toInt ≤ 2 ^ m * (2 ^ (k - 1) - 1) ∧ v.toInt % 2 ^ m = 0 := by
  have hpos : (0 : Int) < 2 ^ m := by positivity
  constructor
  · intro hv
    rw [← hv, toInt_immediate _ h]
    exact ⟨mul_le_mul_of_nonneg_left (BitVec.le_toInt _) hpos.le,
      mul_le_mul_of_nonneg_left (Int.le_sub_one_of_lt BitVec.toInt_lt) hpos.le, Int.mul_emod_right ..⟩
  · rintro ⟨hlo, hhi, hmod⟩
    obtain ⟨q, hq⟩ := Int.dvd_of_emod_eq_zero hmod
    rw [hq] at hlo hhi
    have hfield : (BitVec.ofInt k q).toInt = q := BitVec.toInt_ofInt_eq_self hk
      (le_of_mul_le_mul_left hlo hpos) (Int.lt_of_le_sub_one (le_of_mul_le_mul_left hhi hpos))
    obtain rfl : immediate m (BitVec.ofInt k q) = v :=
      BitVec.eq_of_toInt_eq (by rw [toInt_immediate _ h, hfield, hq])
    rw [field_immediate _ h]

/-! ### The immediates of the formats -/

/-- The instruction bits of the J-immediate, highest weight first (R85). -/
def fieldJ (bits : InstrWord) : BitVec 20 :=
  bits.extractLsb' 31 1 ++ bits.extractLsb' 12 8 ++ bits.extractLsb' 20 1 ++ bits.extractLsb' 21 10

/-- The instruction bits of the B-immediate, highest weight first (R86). -/
def fieldB (bits : InstrWord) : BitVec 12 :=
  bits.extractLsb' 31 1 ++ bits.extractLsb' 7 1 ++ bits.extractLsb' 25 6 ++ bits.extractLsb' 8 4

/-- The instruction bits of the S-immediate, highest weight first (R88). -/
def fieldS (bits : InstrWord) : BitVec 12 := bits.extractLsb' 25 7 ++ bits.extractLsb' 7 5

theorem sext_eq_immediate {k : Nat} (x : BitVec k) : sext k x = immediate 0 x :=
  congrArg (sext k) (BitVec.append_zero_width x 0#0).symm

theorem immI_eq (bits : InstrWord) : immI bits = immediate 0 (bits.extractLsb' 20 12) :=
  sext_eq_immediate _
theorem immU_eq (bits : InstrWord) : immU bits = immediate 12 (bits.extractLsb' 12 20) := rfl
theorem immJ_eq (bits : InstrWord) : immJ bits = immediate 1 (fieldJ bits) := rfl
theorem immB_eq (bits : InstrWord) : immB bits = immediate 1 (fieldB bits) := rfl
theorem immS_eq (bits : InstrWord) : immS bits = immediate 0 (fieldS bits) := sext_eq_immediate _

section
variable {v : Word}

theorem wfImmI_iff : wfImmI v = true ↔ immediate 0 (v.extractLsb' 0 12) = v := by
  rw [immediate_field_eq_iff (by decide) (by decide)]
  simp [wfImmI]

theorem wfImmU_iff : wfImmU v = true ↔ immediate 12 (v.extractLsb' 12 20) = v := by
  rw [immediate_field_eq_iff (by decide) (by decide)]
  simp [wfImmU, and_assoc]

theorem wfImmJ_iff : wfImmJ v = true ↔ immediate 1 (v.extractLsb' 1 20) = v := by
  rw [immediate_field_eq_iff (by decide) (by decide)]
  simp [wfImmJ, and_assoc]

theorem wfImmB_iff : wfImmB v = true ↔ immediate 1 (v.extractLsb' 1 12) = v := by
  rw [immediate_field_eq_iff (by decide) (by decide)]
  simp [wfImmB, and_assoc]

end

section
variable (bits : InstrWord)

theorem wfImmI_immI : wfImmI (immI bits) = true := by
  rw [wfImmI_iff, immI_eq, field_immediate _ (by decide)]

theorem wfImmU_immU : wfImmU (immU bits) = true := by
  rw [wfImmU_iff, immU_eq, field_immediate _ (by decide)]

theorem wfImmJ_immJ : wfImmJ (immJ bits) = true := by
  rw [wfImmJ_iff, immJ_eq, field_immediate _ (by decide)]

theorem wfImmB_immB : wfImmB (immB bits) = true := by
  rw [wfImmB_iff, immB_eq, field_immediate _ (by decide)]

theorem wfImmI_immS : wfImmI (immS bits) = true := by
  rw [wfImmI_iff, immS_eq, field_immediate _ (by decide)]

/-- A field that ends at bit 31, read with its sign. -/
theorem toInt_topField {s n : Nat} (h : s + n = 32) (hn : 0 < n) :
    (bits.extractLsb' s n).toInt
      = (bits.extractLsb' s n).toNat - 2 ^ n * ((bits.extractLsb' 31 1).toNat : Int) := by
  have hmsb : (bits.extractLsb' s n).msb = bits.getLsbD 31 := by
    simp [BitVec.msb_extractLsb', BitVec.getMsbD_eq_getLsbD, hn, h]
  have hbit : (bits.extractLsb' 31 1).toNat = (bits.getLsbD 31).toNat := by
    rw [BitVec.getLsbD, Nat.toNat_testBit, BitVec.extractLsb'_toNat, Nat.shiftRight_eq_div_pow]
  rw [BitVec.toInt_eq_msb_cond, hmsb, hbit]
  cases bits.getLsbD 31 <;> simp

/-- The highest part carries the sign. -/
theorem toInt_append_of_pos {v w : Nat} (x : BitVec v) (y : BitVec w) (h : 0 < v) :
    (x ++ y).toInt = 2 ^ w * x.toInt + y.toNat := by
  rw [BitVec.toInt_append, if_neg (by simpa using h.ne')]

theorem toInt_immI : (immI bits).toInt
    = (bits.extractLsb' 20 12).toNat - 4096 * ((bits.extractLsb' 31 1).toNat : Int) := by
  rw [immI_eq, toInt_immediate _ (by decide), toInt_topField bits (by decide) (by decide)]
  omega

theorem toInt_immU : (immU bits).toInt
    = 4096 * ((bits.extractLsb' 12 20).toNat : Int)
      - 4294967296 * ((bits.extractLsb' 31 1).toNat : Int) := by
  rw [immU_eq, toInt_immediate _ (by decide), toInt_topField bits (by decide) (by decide)]
  omega

theorem toInt_immJ : (immJ bits).toInt
    = 2 * ((bits.extractLsb' 21 10).toNat : Int) + 2048 * ((bits.extractLsb' 20 1).toNat : Int)
      + 4096 * ((bits.extractLsb' 12 8).toNat : Int)
      - 1048576 * ((bits.extractLsb' 31 1).toNat : Int) := by
  have hsign := toInt_topField bits (s := 31) (n := 1) (by decide) (by decide)
  rw [immJ_eq, toInt_immediate _ (by decide), fieldJ, toInt_append_of_pos _ _ (by decide),
    toInt_append_of_pos _ _ (by decide), toInt_append_of_pos _ _ (by decide), hsign]
  omega

theorem toInt_immB : (immB bits).toInt
    = 2 * ((bits.extractLsb' 8 4).toNat : Int) + 32 * ((bits.extractLsb' 25 6).toNat : Int)
      + 2048 * ((bits.extractLsb' 7 1).toNat : Int)
      - 4096 * ((bits.extractLsb' 31 1).toNat : Int) := by
  have hsign := toInt_topField bits (s := 31) (n := 1) (by decide) (by decide)
  rw [immB_eq, toInt_immediate _ (by decide), fieldB, toInt_append_of_pos _ _ (by decide),
    toInt_append_of_pos _ _ (by decide), toInt_append_of_pos _ _ (by decide), hsign]
  omega

theorem toInt_immS : (immS bits).toInt
    = (bits.extractLsb' 7 5).toNat + 32 * ((bits.extractLsb' 25 7).toNat : Int)
      - 4096 * ((bits.extractLsb' 31 1).toNat : Int) := by
  have hsign := toInt_topField bits (s := 25) (n := 7) (by decide) (by decide)
  rw [immS_eq, toInt_immediate _ (by decide), fieldS, toInt_append_of_pos _ _ (by decide), hsign]
  omega

end

/-- Settles O4: each immediate is the integer of its field at the field's weight, and a field of the format has
the format's range. -/
theorem immediatesAreTheSpelledIntegers : Obligations.ImmediatesAreTheSpelledIntegers := fun bits =>
  ⟨toInt_immI bits, wfImmI_immI bits, toInt_immU bits, wfImmU_immU bits, toInt_immJ bits, wfImmJ_immJ bits,
    toInt_immB bits, wfImmB_immB bits, toInt_immS bits, wfImmI_immS bits,
    by simp [shamt5, Nat.shiftRight_eq_div_pow], by simp [shamt6, Nat.shiftRight_eq_div_pow]⟩

/-! ### Fields of a concatenation: the library's rules in a form `simp` uses on a width that is one numeral -/

section
variable {v w s n : Nat} (x : BitVec v) (y : BitVec w)

theorem extractLsb'_append_low (h : s + n ≤ w) :
    BitVec.extractLsb' (n := no_index _) s n (HAppend.hAppend (γ := BitVec (no_index _)) x y)
      = y.extractLsb' s n :=
  BitVec.extractLsb'_append_eq_of_add_le h

theorem extractLsb'_append_high (h : w ≤ s) :
    BitVec.extractLsb' (n := no_index _) s n (HAppend.hAppend (γ := BitVec (no_index _)) x y)
      = x.extractLsb' (s - w) n :=
  BitVec.extractLsb'_append_eq_of_le h

theorem extractLsb'_append_adjacent {s' n' : Nat} (h : s' = s + n) :
    HAppend.hAppend (γ := BitVec (no_index _)) (x.extractLsb' s' n') (x.extractLsb' s n)
      = x.extractLsb' s (n' + n) :=
  BitVec.extractLsb'_append_extractLsb'_eq_extractLsb' h

end

/-! ### The formats: the words an encoder makes are those with the format's fields (R83 to R86, R99) -/

@[simp] theorem toFin_regBits (r : RegIdx) : (regBits r).toFin = r := rfl

/-- A word of the U format with these fields (R84). -/
def ReadsU (bits : InstrWord) (op : BitVec 7) (rd : RegIdx) (imm : Word) : Prop :=
  opcodeOf bits = op ∧ rdOf bits = rd ∧ immU bits = imm

/-- A word of the J format with these fields (R85). -/
def ReadsJ (bits : InstrWord) (rd : RegIdx) (imm : Word) : Prop :=
  opcodeOf bits = 0x6F#7 ∧ rdOf bits = rd ∧ immJ bits = imm

/-- A word of the I format with these fields (R83). -/
def ReadsI (bits : InstrWord) (op : BitVec 7) (f3 : BitVec 3) (rd rs1 : RegIdx) (imm : Word) : Prop :=
  opcodeOf bits = op ∧ funct3Of bits = f3 ∧ rdOf bits = rd ∧ rs1Of bits = rs1 ∧ immI bits = imm

/-- A word of the B format with these fields (R86). -/
def ReadsB (bits : InstrWord) (f3 : BitVec 3) (rs1 rs2 : RegIdx) (imm : Word) : Prop :=
  opcodeOf bits = 0x63#7 ∧ funct3Of bits = f3 ∧ rs1Of bits = rs1 ∧ rs2Of bits = rs2 ∧ immB bits = imm

section
variable (op : BitVec 7) (f3 : BitVec 3) (rd rs1 rs2 : RegIdx) (f : BitVec 20) (imm : Word) (bits : InstrWord)

theorem fields_encU : opcodeOf (encU op rd f) = op ∧ rdOf (encU op rd f) = rd
    ∧ (encU op rd f).extractLsb' 12 20 = f := by
  simp [encU, opcodeOf, rdOf, extractLsb'_append_high, extractLsb'_append_low, -BitVec.toFin_extractLsb']

theorem fields_encJ : opcodeOf (encJ rd imm) = 0x6F#7 ∧ rdOf (encJ rd imm) = rd
    ∧ fieldJ (encJ rd imm) = imm.extractLsb' 1 20 := by
  simp [encJ, opcodeOf, rdOf, fieldJ, extractLsb'_append_high, extractLsb'_append_low,
    extractLsb'_append_adjacent, -BitVec.toFin_extractLsb']

theorem fields_encI : opcodeOf (encI op f3 rd rs1 imm) = op ∧ funct3Of (encI op f3 rd rs1 imm) = f3
    ∧ rdOf (encI op f3 rd rs1 imm) = rd ∧ rs1Of (encI op f3 rd rs1 imm) = rs1
    ∧ (encI op f3 rd rs1 imm).extractLsb' 20 12 = imm.extractLsb' 0 12 := by
  simp [encI, opcodeOf, funct3Of, rdOf, rs1Of, extractLsb'_append_high, extractLsb'_append_low,
    -BitVec.toFin_extractLsb']

theorem fields_encB : opcodeOf (encB f3 rs1 rs2 imm) = 0x63#7 ∧ funct3Of (encB f3 rs1 rs2 imm) = f3
    ∧ rs1Of (encB f3 rs1 rs2 imm) = rs1 ∧ rs2Of (encB f3 rs1 rs2 imm) = rs2
    ∧ fieldB (encB f3 rs1 rs2 imm) = imm.extractLsb' 1 12 := by
  simp [encB, opcodeOf, funct3Of, rs1Of, rs2Of, fieldB, extractLsb'_append_high, extractLsb'_append_low,
    extractLsb'_append_adjacent, -BitVec.toFin_extractLsb']

theorem regBits_rdOf : regBits (rdOf bits) = bits.extractLsb' 7 5 := rfl
theorem regBits_rs1Of : regBits (rs1Of bits) = bits.extractLsb' 15 5 := rfl
theorem regBits_rs2Of : regBits (rs2Of bits) = bits.extractLsb' 20 5 := rfl

theorem encU_of_fields : encU (opcodeOf bits) (rdOf bits) ((immU bits).extractLsb' 12 20) = bits := by
  rw [immU_eq, field_immediate _ (by decide)]
  simp [encU, opcodeOf, regBits_rdOf, extractLsb'_append_adjacent]

theorem encI_of_fields :
    encI (opcodeOf bits) (funct3Of bits) (rdOf bits) (rs1Of bits) (immI bits) = bits := by
  rw [encI, immI_eq, field_immediate _ (by decide)]
  simp [opcodeOf, funct3Of, regBits_rdOf, regBits_rs1Of, extractLsb'_append_adjacent]

theorem encJ_of_fields (h : opcodeOf bits = 0x6F#7) : encJ (rdOf bits) (immJ bits) = bits := by
  rw [encJ, ← h, immJ_eq]
  simp [extractLsb'_immediate, fieldJ, opcodeOf, regBits_rdOf, extractLsb'_append_high,
    extractLsb'_append_low, extractLsb'_append_adjacent]

theorem encB_of_fields (h : opcodeOf bits = 0x63#7) :
    encB (funct3Of bits) (rs1Of bits) (rs2Of bits) (immB bits) = bits := by
  rw [encB, ← h, immB_eq]
  simp [extractLsb'_immediate, fieldB, opcodeOf, funct3Of, regBits_rs1Of, regBits_rs2Of,
    extractLsb'_append_high, extractLsb'_append_low, extractLsb'_append_adjacent]

end

section
variable {op : BitVec 7} {f3 : BitVec 3} {rd rs1 rs2 : RegIdx} {imm : Word} {bits : InstrWord}

theorem readsU_iff :
    ReadsU bits op rd imm ↔ wfImmU imm = true ∧ encU op rd (imm.extractLsb' 12 20) = bits := by
  constructor
  · rintro ⟨rfl, rfl, rfl⟩
    exact ⟨wfImmU_immU bits, encU_of_fields bits⟩
  · rintro ⟨hwf, rfl⟩
    obtain ⟨hop, hrd, hf⟩ := fields_encU op rd (imm.extractLsb' 12 20)
    exact ⟨hop, hrd, by rw [immU_eq, hf, wfImmU_iff.mp hwf]⟩

theorem readsJ_iff : ReadsJ bits rd imm ↔ wfImmJ imm = true ∧ encJ rd imm = bits := by
  constructor
  · rintro ⟨hop, rfl, rfl⟩
    exact ⟨wfImmJ_immJ bits, encJ_of_fields bits hop⟩
  · rintro ⟨hwf, rfl⟩
    obtain ⟨hop, hrd, hf⟩ := fields_encJ rd imm
    exact ⟨hop, hrd, by rw [immJ_eq, hf, wfImmJ_iff.mp hwf]⟩

theorem readsI_iff : ReadsI bits op f3 rd rs1 imm ↔ wfImmI imm = true ∧ encI op f3 rd rs1 imm = bits := by
  constructor
  · rintro ⟨rfl, rfl, rfl, rfl, rfl⟩
    exact ⟨wfImmI_immI bits, encI_of_fields bits⟩
  · rintro ⟨hwf, rfl⟩
    obtain ⟨hop, hf3, hrd, hrs1, hf⟩ := fields_encI op f3 rd rs1 imm
    exact ⟨hop, hf3, hrd, hrs1, by rw [immI_eq, hf, wfImmI_iff.mp hwf]⟩

theorem readsB_iff : ReadsB bits f3 rs1 rs2 imm ↔ wfImmB imm = true ∧ encB f3 rs1 rs2 imm = bits := by
  constructor
  · rintro ⟨hop, rfl, rfl, rfl, rfl⟩
    exact ⟨wfImmB_immB bits, encB_of_fields bits hop⟩
  · rintro ⟨hwf, rfl⟩
    obtain ⟨hop, hf3, hrs1, hrs2, hf⟩ := fields_encB f3 rs1 rs2 imm
    exact ⟨hop, hf3, hrs1, hrs2, by rw [immB_eq, hf, wfImmB_iff.mp hwf]⟩

end

/-! ### Decoding (R93, R94) -/

/-- The word has the instruction's opcode and funct3 (R91, R92), and its operands in the fields of its format. -/
def Instr.Reads (bits : InstrWord) : Instr → Prop
  | .lui rd imm => ReadsU bits 0x37#7 rd imm
  | .auipc rd imm => ReadsU bits 0x17#7 rd imm
  | .jal rd imm => ReadsJ bits rd imm
  | .jalr rd rs1 imm => ReadsI bits 0x67#7 0#3 rd rs1 imm
  | .beq rs1 rs2 imm => ReadsB bits 0#3 rs1 rs2 imm
  | .bne rs1 rs2 imm => ReadsB bits 1#3 rs1 rs2 imm
  | .blt rs1 rs2 imm => ReadsB bits 4#3 rs1 rs2 imm
  | .bge rs1 rs2 imm => ReadsB bits 5#3 rs1 rs2 imm
  | .bltu rs1 rs2 imm => ReadsB bits 6#3 rs1 rs2 imm
  | .bgeu rs1 rs2 imm => ReadsB bits 7#3 rs1 rs2 imm
  | .lb rd rs1 imm => ReadsI bits 0x03#7 0#3 rd rs1 imm
  | .lh rd rs1 imm => ReadsI bits 0x03#7 1#3 rd rs1 imm
  | .lw rd rs1 imm => ReadsI bits 0x03#7 2#3 rd rs1 imm
  | .lbu rd rs1 imm => ReadsI bits 0x03#7 4#3 rd rs1 imm
  | .lhu rd rs1 imm => ReadsI bits 0x03#7 5#3 rd rs1 imm

theorem reads_of_decode {bits : InstrWord} {i : Instr} (h : decode bits = .ok i) : i.Reads bits := by
  unfold decode at h
  split at h
  case h_1 hop | h_2 hop | h_3 hop =>
    cases h
    exact ⟨BitVec.eq_of_toNat_eq hop, rfl, rfl⟩
  case h_4 hop | h_5 hop | h_6 hop =>
    split at h <;> cases h
    all_goals exact ⟨BitVec.eq_of_toNat_eq hop, BitVec.eq_of_toNat_eq ‹_›, rfl, rfl, rfl⟩
  case h_7 => cases h

/-- The only reason `decode` gives for rejecting a word. -/
theorem eq_unsupported_of_decode {bits : InstrWord} {e : DecodeReject} (h : decode bits = .error e) :
    e = .unsupported := by
  unfold decode at h
  split at h
  case h_1 | h_2 | h_3 => cases h
  case h_4 | h_5 | h_6 =>
    split at h <;> cases h
    rfl
  case h_7 =>
    cases h
    rfl

theorem decode_of_reads {bits : InstrWord} {i : Instr} (h : i.Reads bits) : decode bits = .ok i := by
  cases i with
  | lui | auipc | jal =>
    obtain ⟨hop, rfl, rfl⟩ := h
    simp [decode, hop]
  | _ =>
    obtain ⟨hop, hf3, rfl, rfl, rfl⟩ := h
    simp [decode, hop, hf3]

theorem Instr.reads_iff {bits : InstrWord} (i : Instr) :
    i.Reads bits ↔ i.wellFormed = true ∧ encode i = bits := by
  cases i with
  | lui | auipc => exact readsU_iff
  | jal => exact readsJ_iff
  | beq | bne | blt | bge | bltu | bgeu => exact readsB_iff
  | jalr | lb | lh | lw | lbu | lhu => exact readsI_iff

theorem decode_eq_ok_iff {bits : InstrWord} {i : Instr} :
    decode bits = .ok i ↔ i.wellFormed = true ∧ encode i = bits := by
  rw [← i.reads_iff]
  exact ⟨reads_of_decode, decode_of_reads⟩

/-- Settles O1: the words that decode to `i` are those that encode it. -/
theorem decodeUndoesEncode : Obligations.DecodeUndoesEncode := fun _ hwf => decode_eq_ok_iff.mpr ⟨hwf, rfl⟩

/-- Settles O2, by the same equivalence as O1. -/
theorem encodeUndoesDecode : Obligations.EncodeUndoesDecode := fun _ _ h => decode_eq_ok_iff.mp h

/-- Settles O5, by evaluating the decoder on the ten words. -/
theorem sampleWordsDecode : Obligations.SampleWordsDecode := by
  unfold Obligations.SampleWordsDecode
  decide

/-! ### The opcode table (R92) -/

theorem and_opcodeMask (bits : InstrWord) : bits &&& 0x0000007F = (opcodeOf bits).setWidth 32 :=
  (congrArg (· &&& 0x0000007F) BitVec.extractLsb'_append_extractLsb'.symm).trans
    (Laws.TableRow.mask_opcode (bits.extractLsb' 7 25) (opcodeOf bits))

theorem and_funct3Mask (bits : InstrWord) :
    bits &&& 0x0000707F = (funct3Of bits ++ 0#5 ++ opcodeOf bits).setWidth 32 := by
  have hsplit : bits.extractLsb' 15 17 ++ funct3Of bits ++ bits.extractLsb' 7 5 ++ opcodeOf bits = bits := by
    simp [funct3Of, opcodeOf, extractLsb'_append_adjacent]
  exact (congrArg (· &&& 0x0000707F) hsplit.symm).trans (Laws.TableRow.mask_funct3_I ..)

section
variable {op : BitVec 7} {f3 : BitVec 3} {bits : InstrWord}

theorem opcodeOf_of_and_mask (h : bits &&& 0x0000007F = op.setWidth 32) : opcodeOf bits = op := by
  rw [and_opcodeMask] at h
  simpa using congrArg (BitVec.setWidth 7) h

theorem fields_of_and_mask (h : bits &&& 0x0000707F = (f3 ++ 0#5 ++ op).setWidth 32) :
    opcodeOf bits = op ∧ funct3Of bits = f3 := by
  rw [and_funct3Mask] at h
  constructor
  · simpa [opcodeOf, BitVec.extractLsb'_setWidth_of_le, extractLsb'_append_low] using congrArg opcodeOf h
  · simpa [funct3Of, BitVec.extractLsb'_setWidth_of_le, extractLsb'_append_low, extractLsb'_append_high]
      using congrArg funct3Of h

theorem readsU_of_and_mask (h : bits &&& 0x0000007F = op.setWidth 32) :
    ReadsU bits op (rdOf bits) (immU bits) :=
  ⟨opcodeOf_of_and_mask h, rfl, rfl⟩

theorem readsI_of_and_mask (h : bits &&& 0x0000707F = (f3 ++ 0#5 ++ op).setWidth 32) :
    ReadsI bits op f3 (rdOf bits) (rs1Of bits) (immI bits) :=
  have ⟨hop, hf3⟩ := fields_of_and_mask h
  ⟨hop, hf3, rfl, rfl, rfl⟩

theorem readsB_of_and_mask (h : bits &&& 0x0000707F = (f3 ++ 0#5 ++ 0x63#7).setWidth 32) :
    ReadsB bits f3 (rs1Of bits) (rs2Of bits) (immB bits) :=
  have ⟨hop, hf3⟩ := fields_of_and_mask h
  ⟨hop, hf3, rfl, rfl, rfl⟩

end

/-- Every instruction's word fits its row, from the per-instruction laws. -/
theorem exists_tableRow : ∀ i : Instr, Laws.TableRow.Statement i
  | .lui .. => Laws.TableRow.lui ..
  | .auipc .. => Laws.TableRow.auipc ..
  | .jal .. => Laws.TableRow.jal ..
  | .jalr .. => Laws.TableRow.jalr ..
  | .beq .. => Laws.TableRow.beq ..
  | .bne .. => Laws.TableRow.bne ..
  | .blt .. => Laws.TableRow.blt ..
  | .bge .. => Laws.TableRow.bge ..
  | .bltu .. => Laws.TableRow.bltu ..
  | .bgeu .. => Laws.TableRow.bgeu ..
  | .lb .. => Laws.TableRow.lb ..
  | .lh .. => Laws.TableRow.lh ..
  | .lw .. => Laws.TableRow.lw ..
  | .lbu .. => Laws.TableRow.lbu ..
  | .lhu .. => Laws.TableRow.lhu ..

theorem decode_of_no_row {bits : InstrWord} (h : ∀ r ∈ opcodeTable, r.fits bits = false) :
    decode bits = .error .unsupported := by
  cases hd : decode bits with
  | error e => rw [eq_unsupported_of_decode hd]
  | ok i =>
    obtain ⟨-, rfl⟩ := decode_eq_ok_iff.mp hd
    obtain ⟨r, hr, -, hfits⟩ := exists_tableRow i
    simp [h r hr] at hfits

/-- Two rows that one word fits have patterns that agree under both masks. -/
theorem OpcodeRow.patterns_agree {r r' : OpcodeRow} {bits : InstrWord} (h : r.fits bits = true)
    (h' : r'.fits bits = true) : r.pattern &&& r'.mask = r'.pattern &&& r.mask := by
  rw [← beq_iff_eq.mp h, ← beq_iff_eq.mp h', BitVec.and_assoc, BitVec.and_assoc, BitVec.and_comm r.mask]

/-- No two rows of the table are like that: a closed fact about the fifteen rows. -/
theorem opcodeTable_patterns_differ :
    opcodeTable.Pairwise fun r r' => r.pattern &&& r'.mask ≠ r'.pattern &&& r.mask := by
  decide

/-- Settles O3: a row's mask and match fix the opcode and funct3 that `decode` looks at, and the patterns of two
rows differ under both masks. -/
theorem decodeFollowsMaskAndMatch : Obligations.DecodeFollowsMaskAndMatch := fun _ =>
  ⟨fun h => decode_of_reads (readsU_of_and_mask h), fun h => decode_of_reads (readsU_of_and_mask h),
    fun h => decode_of_reads ⟨opcodeOf_of_and_mask h, rfl, rfl⟩,
    fun h => decode_of_reads (readsI_of_and_mask h), fun h => decode_of_reads (readsB_of_and_mask h),
    fun h => decode_of_reads (readsB_of_and_mask h), fun h => decode_of_reads (readsB_of_and_mask h),
    fun h => decode_of_reads (readsB_of_and_mask h), fun h => decode_of_reads (readsB_of_and_mask h),
    fun h => decode_of_reads (readsB_of_and_mask h), fun h => decode_of_reads (readsI_of_and_mask h),
    fun h => decode_of_reads (readsI_of_and_mask h), fun h => decode_of_reads (readsI_of_and_mask h),
    fun h => decode_of_reads (readsI_of_and_mask h), fun h => decode_of_reads (readsI_of_and_mask h),
    decode_of_no_row, opcodeTable_patterns_differ.imp fun hne ⟨hfits, hfits'⟩ =>
      hne (OpcodeRow.patterns_agree hfits hfits')⟩

end Sys2Proof
end

section
/-!
The AccessLog Verifier and the State Facade, operation by operation (40_verifier_facade.md R121 to R127, R131).
-/

namespace Sys2Proof.Machine

/-- Settles O9: the store's law of a read after a write, whichever slots are mapped. -/
theorem storeReturnsTheLastWrite : Obligations.StoreReturnsTheLastWrite :=
  fun s _ _ v => s.storeWord_setStoreWord v

/-- A claimed read looks at the kind and the position of the entry at the cursor and takes its value (R121). -/
theorem consumeRead_of_entry {pos : Word} {q : List AccessLog} {s : State} {a : Access}
    (hc : s.caller = .claims q) (ha : s.log[s.cursor]? = some a) (answer : Word) :
    consumeRead pos answer s =
      if a.kind ≠ .read then .raised (.accessKindMismatch s.cursor (.read pos) a) s
      else if a.position ≠ pos then .raised (.accessAddressMismatch s.cursor (.read pos) a) s
      else .ok a.value s.consumed := by
  simp only [consumeRead, hc, ha]

/-- Settles O13: an exhausted log has no entry at the cursor, and an entry that is there is looked at in the
order of `consumeRead_of_entry`. -/
theorem consumeReadChecksInOrder : Obligations.ConsumeReadChecksInOrder := by
  intro pos answer q s hc
  refine ⟨fun hend => ?_, fun a ha => ⟨fun hkind => ?_, fun hkind hpos => ?_, fun hkind hpos => ?_⟩⟩
  · simp [consumeRead, hc, hend]
  · rw [consumeRead_of_entry hc ha, if_pos hkind]
  · rw [consumeRead_of_entry hc ha, if_neg (not_not_intro hkind), if_pos hpos]
  · rw [consumeRead_of_entry hc ha, if_neg (not_not_intro hkind), if_neg (not_not_intro hpos)]

/-- Settles O14: the four refusals are those of `State.rejectsWrite`, and an entry that agrees with the write is
consumed. -/
theorem consumeWriteChecksInOrder : Obligations.ConsumeWriteChecksInOrder := by
  intro pos v q s hc
  refine ⟨fun hend => consumeWrite_of_rejects hc (.inl ⟨hend, rfl⟩), fun a ha => ⟨fun hkind => ?_,
    fun hkind hpos => ?_, fun hkind hpos hval => ?_, fun hkind hpos hval => ?_⟩⟩
  · exact consumeWrite_of_rejects hc (.inr ⟨a, ha, .inl ⟨hkind, rfl⟩⟩)
  · exact consumeWrite_of_rejects hc (.inr ⟨a, ha, .inr (.inl ⟨hkind, hpos, rfl⟩)⟩)
  · exact consumeWrite_of_rejects hc (.inr ⟨a, ha, .inr (.inr ⟨hkind, hpos, hval, rfl⟩)⟩)
  · simp [consumeWrite, hc, ha, hkind, hpos, hval]

/-- Only policy `zero` sets a register read's entry aside, and only for register 0 (92_eei_decisions.md D10). -/
theorem regReadValue_of_uses {c : Config} {i : RegIdx} (h : i ≠ 0 ∨ c.x0Read = .log) (v : Word) :
    regReadValue c i v = v := by
  refine if_neg ?_
  rintro ⟨hi, hzero⟩
  rcases h with hne | hlog
  · exact hne hi
  · simp [hlog] at hzero

/-- Settles O15: an admitted read consumes its entry whatever the policy, which decides the value alone. -/
theorem registerReadUsesTheEntry : Obligations.RegisterReadUsesTheEntry := by
  intro i v s ha
  refine ⟨fun huses => ?_, fun hi hzero => ?_⟩
  · rw [readX_of_admits ha, regReadValue_of_uses huses]
  · rw [readX_of_admits ha, regReadValue, if_pos ⟨hi, hzero⟩]

/-- Settles O16: `writeX` tests for register 0 before anything else, and any other write is let through where
its touch is. -/
theorem registerWriteIsSuppressedForZero : Obligations.RegisterWriteIsSuppressedForZero :=
  ⟨fun _ _ => if_pos rfl, fun _ _ _ _ ha => writeX_of_admits (ts := []) (by simpa using ha)⟩

/-- Settles O17: an admitted read of the halt flag yields the test of its entry's word. -/
theorem haltFlagIsTrueWhenNotZero : Obligations.HaltFlagIsTrueWhenNotZero := by
  intro h s ha
  rw [readHalt_of_admits ha]
  simp [bne, beq_eq_decide]

end Sys2Proof.Machine
end

section
/-!
A Step as one operation. `StepOp` says what the operations of a Step are composed of, so that what holds of
every access and of every composition holds of the whole Step by one induction: here which errors it
raises, what it keeps, and how two runs compare. From the last, a divergence is positional (R133).
-/

namespace Sys2Proof.Machine

/-! ### What a Step is composed of -/

/-- The operations a Step is composed of: the verified accesses (R123 to R128), the values computed between
them, the latch of the Step's own pc, and the errors that the state being stepped causes (R244). -/
inductive StepOp : {α : Type} → (State → Result α) → Prop where
  | readSlot {op : ProviderOp} {sl : Slot} (h : op.site = (.read, some sl)) :
      StepOp fun s => consumeRead (s.cfg.position sl) (s.slotWord sl) (s.issue op)
  | readWord (a : Word) : StepOp (readWord a)
  | writeSlot {op : ProviderOp} {sl : Slot} {v : Word} (h : op.slotWrite = some (sl, v))
      (hop : op.neverIssued = false) : StepOp fun s => consumeWrite (s.cfg.position sl) v ((s.issue op).stored op)
  | value {α : Type} (a : α) : StepOp (Result.ok a)
  | regValue (i : RegIdx) (v : Word) : StepOp fun s => .ok (regReadValue s.cfg i v) s
  | stepPc : StepOp fun s => .ok s.stepPc s
  | latchPc (v : Word) : StepOp fun s => .ok () (s.setStepPc v)
  | raise {α : Type} {e : StepError} (h : e.errorClass = .state) :
      StepOp (Result.raised e : State → Result α)
  | andThen {α β : Type} {op : State → Result α} {k : α → State → Result β} (hop : StepOp op)
      (hk : ∀ a, StepOp (k a)) : StepOp fun s => (op s).andThen k

namespace StepOp

theorem readCycle : StepOp Machine.readCycle := readSlot (op := .readCycle) rfl

theorem readHalt : StepOp Machine.readHalt := (readSlot (op := .readHaltFlag) rfl).andThen fun _ => value _

theorem readPc : StepOp Machine.readPc := readSlot (op := .readPc) rfl

theorem readX (i : RegIdx) : StepOp (Machine.readX i) :=
  (readSlot (op := .readRegister i) rfl).andThen fun v => regValue i v

theorem writeCycle (v : Word) : StepOp (Machine.writeCycle v) :=
  writeSlot (op := .writeCycle v) rfl rfl

theorem writePc (v : Word) : StepOp (Machine.writePc v) := writeSlot (op := .writePc v) rfl rfl

theorem writeX (i : RegIdx) (v : Word) : StepOp (Machine.writeX i v) := by
  by_cases hi : i = 0
  · subst hi
    exact value ()
  · have hw : Machine.writeX i v = fun s =>
        consumeWrite s.cfg.posX[i] v ((s.issue (.writeRegister i v)).setReg i v) :=
      funext fun _ => if_neg hi
    rw [hw]
    exact writeSlot (op := .writeRegister i v) rfl (by simpa [ProviderOp.neverIssued] using hi)

theorem memRead (addr : Word) (n : Width) : StepOp (Machine.memRead addr n) := by
  unfold Machine.memRead
  split
  · exact (readWord _).andThen fun _ => value _
  · exact raise rfl

/-- An operation on a word computed from the Step's own pc. -/
theorem onStepPc {α : Type} {op : Word → State → Result α} (h : ∀ v, StepOp (op v)) :
    StepOp fun s => op s.stepPc s :=
  stepPc.andThen h

theorem advancePc : StepOp Machine.advancePc := onStepPc fun pc => writePc (nextPc pc)

/-- A jump to a target relative to the Step's own pc (R151, R160, R176). -/
theorem branchPcRel (imm : Word) : StepOp fun s => branchTo (pcRel s.stepPc imm) s :=
  onStepPc fun pc => writePc (pcRel pc imm)

theorem branchIf (cond : Word → Word → Bool) (rs1 rs2 : RegIdx) (imm : Word) :
    StepOp (Machine.branchIf cond rs1 rs2 imm) := by
  refine (readX rs1).andThen fun a => (readX rs2).andThen fun b => ?_
  split
  · exact branchPcRel imm
  · exact advancePc

theorem load (n : Width) (ext : Width → Word → Word) (rd rs1 : RegIdx) (imm : Word) :
    StepOp (Machine.load n ext rd rs1 imm) :=
  (readX rs1).andThen fun _ => (memRead _ n).andThen fun _ => (writeX rd _).andThen fun _ => advancePc

theorem executor (i : Instr) : StepOp (Machine.executor i) := by
  cases i with
  | lui rd imm => exact (writeX rd imm).andThen fun _ => advancePc
  | auipc rd imm => exact (onStepPc fun pc => writeX rd (pcRel pc imm)).andThen fun _ => advancePc
  | jal rd imm =>
    exact (onStepPc fun pc => writeX rd (nextPc pc)).andThen fun _ => branchPcRel imm
  | jalr rd rs1 imm =>
    exact (readX rs1).andThen fun _ => (onStepPc fun pc => writeX rd (nextPc pc)).andThen fun _ => writePc _
  | beq rs1 rs2 imm | bne rs1 rs2 imm | blt rs1 rs2 imm | bge rs1 rs2 imm | bltu rs1 rs2 imm
  | bgeu rs1 rs2 imm => exact branchIf _ rs1 rs2 imm
  | lb rd rs1 imm | lh rd rs1 imm | lw rd rs1 imm | lbu rd rs1 imm | lhu rd rs1 imm =>
    exact load _ _ rd rs1 imm

theorem fetch : StepOp Machine.fetch :=
  readPc.andThen fun pc =>
    (latchPc pc).andThen fun _ => (memRead pc .word).andThen fun w => value (w.setWidth 32)

theorem front : StepOp Machine.front := by
  refine readCycle.andThen fun c => readHalt.andThen fun halted => ?_
  split
  · exact value _
  · split
    · exact value _
    · exact fetch.andThen fun _ => value _

end StepOp

/-- The cycle write, and what the Step would report after it (45_step_controller.md R221). -/
def writeNextCycle (c : Word) (s : State) : Result (Word × Bool) :=
  (writeCycle (c + 1#64) s).andThen fun _ => .ok (c + 1#64, false)

/-- The executor and then the cycle write, or the error of a word of no row (R215, R218). -/
def dispatch (c : Word) (bits : InstrWord) (s : State) : Result (Word × Bool) :=
  match decode bits with
  | .error _ => .raised (.unsupportedInstruction bits s.stepPc) s
  | .ok i => (executor i s).andThen fun _ => writeNextCycle c

/-- All of a Step's accesses: the cycle count and the halt flag it would report, or the error it raises. -/
def stepBody (s : State) : Result (Word × Bool) :=
  (front s).andThen fun f s =>
    match f with
    | .idle c halted => .ok (c, halted) s
    | .run c bits => dispatch c bits s

/-- The end of a Step (R222, R241). -/
def Result.endStep : Result (Word × Bool) → State
  | .ok (c, halted) s => s.conclude c halted
  | .raised e s => s.raise e

theorem StepOp.dispatch (c : Word) (bits : InstrWord) : StepOp (dispatch c bits) := by
  unfold Machine.dispatch
  split
  · exact onStepPc fun _ => raise rfl
  · exact (executor _).andThen fun _ => (writeCycle _).andThen fun _ => value _

theorem StepOp.stepBody : StepOp stepBody :=
  front.andThen fun f => match f with
    | .idle _ _ => value _
    | .run c bits => dispatch c bits

/-! ### A slot write with its provider operation -/

/-- The slot write of an operation that a Step issues is one of its updates. -/
theorem KeptByOps.stored {P : State → Prop} (h : KeptByOps P) {s : State} (hs : P s) {op : ProviderOp}
    (hop : op.neverIssued = false) : P (s.stored op) := by
  cases op with
  | writeCycle v => exact h.setCycle s v hs
  | writePc v => exact h.setPc s v hs
  | writeRegister i v => exact h.setReg s i v (by simpa [ProviderOp.neverIssued] using hop) hs
  | readCycle | readHaltFlag | readPc | readWord _ | readRegister _ | writeWord _ _ => exact hs

theorem consumeWrite_stored_spec (pos v : Word) (op : ProviderOp) (s : State) :
    (consumeWrite pos v ((s.issue op).stored op)).Spec
      (fun _ t => t = (s.touched [⟨op, pos, v, .write⟩]).stored op)
      (fun e t => t = (s.issue op).stored op ∧ e.index = some t.cursor ∧ t.caller ≠ .honest) := by
  refine (consumeWrite_spec pos v _).mono (fun _ t ⟨ht, _⟩ => ?_) fun e t ⟨ht, hi, hc⟩ => ?_
  · rw [ht]
    cases op <;> rfl
  · subst ht
    exact ⟨rfl, hi, hc⟩

/-! ### What the operations of a Step raise and keep -/

/-- An operation of a Step leaves the result port alone, and raises an error of the state or, against a
claimed log, one of the verifier that reports the cursor (60_exceptions.md R242, R244). -/
theorem StepOp.spec {α : Type} {op : State → Result α} (hop : StepOp op) (s : State) :
    (op s).Spec (fun _ t => t.result = s.result)
      (fun e t => e.errorClass = .state ∨ e.index = some t.cursor ∧ t.caller ≠ .honest) := by
  induction hop generalizing s with
  | readSlot _ =>
    exact (consumeRead_spec _ _ _ s).mono (fun _ _ ⟨ht, _⟩ => ht ▸ rfl)
      fun _ _ ⟨ht, hi, hc⟩ => .inr (ht ▸ ⟨hi, hc⟩)
  | readWord a =>
    exact (readWord_spec a s).mono (fun _ _ ⟨ht, _⟩ => ht ▸ rfl)
      fun _ _ ⟨ht, hi, hc⟩ => .inr (ht ▸ ⟨hi, hc⟩)
  | @writeSlot op =>
    refine (consumeWrite_stored_spec _ _ op s).mono (fun _ _ ht => ?_) fun _ _ ⟨_, h⟩ => .inr h
    rw [ht]
    cases op <;> rfl
  | value | regValue | stepPc | latchPc => rfl
  | raise h => exact .inl h
  | andThen _ _ ih ihk =>
    exact (ih s).andThen fun a t ht => (ihk a t).mono (fun _ _ hu => hu.trans ht) fun _ _ h => h

/-- What every update of a Step keeps, its operations keep. -/
theorem StepOp.leaves {α : Type} {op : State → Result α} (hop : StepOp op) {P : State → Prop}
    (h : KeptByOps P) {s : State} (hs : P s) : (op s).Leaves P := by
  induction hop generalizing s with
  | readSlot _ =>
    exact (consumeRead_spec _ _ _ s).mono (fun _ _ ⟨ht, _⟩ => ht ▸ h.touched s _ hs)
      fun _ _ ⟨ht, _⟩ => ht ▸ h.issue s _ hs
  | readWord a =>
    exact (readWord_spec a s).mono (fun _ _ ⟨ht, _⟩ => ht ▸ h.touched s _ hs)
      fun _ _ => h.of_readFails hs
  | writeSlot _ hop =>
    exact (consumeWrite_stored_spec _ _ _ s).mono (fun _ _ ht => ht ▸ h.stored (h.touched s _ hs) hop)
      fun _ _ ⟨ht, _⟩ => ht ▸ h.stored (h.issue s _ hs) hop
  | value | regValue | stepPc | raise => exact hs
  | latchPc v => exact h.setStepPc s v hs
  | andThen _ _ ih ihk => exact (ih hs).andThen fun a _ ht => ihk a ht

/-! ### The Step is its accesses and its end -/

theorem retire_eq_endStep (c : Word) (s : State) : retire c s = (writeNextCycle c s).endStep := by
  unfold retire writeNextCycle
  cases writeCycle (c + 1#64) s <;> rfl

/-- Dispatch from a Step in progress, with its end. -/
theorem afterExec_eq_endStep (c : Word) (i : Instr) {s : State} (hs : s.result = none) :
    afterExec c (exec i s) = .next ((executor i s).andThen fun _ => writeNextCycle c).endStep := by
  have hspec := (StepOp.executor i).spec s
  rw [exec_eq_settle]
  cases hx : executor i s with
  | ok u t =>
    rw [hx] at hspec
    have ht : t.result = none := Eq.trans hspec hs
    simp [afterExec, ht, retire_eq_endStep]
  | raised e t => simp [afterExec, Result.endStep]

/-- A requested Step is `stepBody` and its end. -/
theorem step_eq_endStep {s u : State} (h : s.beginStep = some u) (hu : u.result = none) :
    step s = .next (stepBody u).endStep := by
  have hspec := StepOp.front.spec u
  unfold step stepBody
  rw [h]
  dsimp only
  cases hf : front u with
  | raised e v => rfl
  | ok f v =>
    rw [hf] at hspec
    have hv : v.result = none := Eq.trans hspec hu
    cases f with
    | idle c halted => rfl
    | run c bits =>
      dsimp only [Result.ok_andThen, dispatch]
      cases decode bits with
      | error _ => rfl
      | ok i => exact afterExec_eq_endStep c i hv

/-- The end-of-log check reports no index. -/
theorem State.conclude_index {s : State} {c : Word} {halted : Bool} {e : StepError}
    (h : (s.conclude c halted).result = some (.error e)) : e.index = none := by
  rw [State.conclude_eq, State.finish_result] at h
  split at h
  · simp at h
  · obtain rfl : _ = e := by simpa using h
    rfl

theorem StepError.index_of_state {e : StepError} (h : e.errorClass = .state) : e.index = none := by
  cases e with
  | misalignedAccess | unsupportedInstruction => rfl
  | _ => cases h

/-- A Step that reports an index failed in the verifier, at the cursor. -/
theorem stepBody_of_index {u : State} {e : StepError} {n : Nat}
    (hr : (stepBody u).endStep.result = some (.error e)) (hi : e.index = some n) :
    ∃ v, stepBody u = .raised e v ∧ v.cursor = n := by
  have hspec := StepOp.stepBody.spec u
  cases hb : stepBody u with
  | ok r v =>
    rw [hb] at hr
    simp [State.conclude_index hr] at hi
  | raised e' v =>
    rw [hb] at hr hspec
    obtain rfl : e' = e := by simpa [Result.endStep] using hr
    refine ⟨v, rfl, ?_⟩
    rcases hspec with hstate | ⟨hcur, _⟩
    · simp [StepError.index_of_state hstate] at hi
    · simpa [hcur] using hi

/-! ### Two runs -/

/-- If `r` leaves a state that meets `G`, then `r'` has the same outcome and leaves a state related to it. -/
def Result.Matches {α : Type} (G : State → Prop) (R : State → State → Prop) (r r' : Result α) : Prop :=
  r.Spec (fun a t => G t → ∃ t', r' = .ok a t' ∧ R t t') fun e t => G t → ∃ t', r' = .raised e t' ∧ R t t'

/-- From related states, each access and latch of a Step matches. Runs are compared while `G` holds: where it
fails, no update of a Step makes it hold again. -/
structure MatchedByOps (G : State → Prop) (R : State → State → Prop) : Prop where
  leaves : KeptByOps fun s => ¬ G s
  x0Read : ∀ s s', R s s' → s'.cfg.x0Read = s.cfg.x0Read
  stepPc : ∀ s s', R s s' → s'.stepPc = s.stepPc
  setStepPc : ∀ s s' v, R s s' → R (s.setStepPc v) (s'.setStepPc v)
  readSlot : ∀ s s' op sl, R s s' → ProviderOp.site op = (.read, some sl) →
    (consumeRead (s.cfg.position sl) (s.slotWord sl) (s.issue op)).Matches G R
      (consumeRead (s'.cfg.position sl) (s'.slotWord sl) (s'.issue op))
  readWord : ∀ s s' a, R s s' → (Machine.readWord a s).Matches G R (Machine.readWord a s')
  writeSlot : ∀ s s' op sl v, R s s' → op.slotWrite = some (sl, v) →
    (consumeWrite (s.cfg.position sl) v ((s.issue op).stored op)).Matches G R
      (consumeWrite (s'.cfg.position sl) v ((s'.issue op).stored op))

/-- What matches access by access matches over every operation of a Step. -/
theorem StepOp.matched {α : Type} {op : State → Result α} (hop : StepOp op) {G : State → Prop}
    {R : State → State → Prop} (h : MatchedByOps G R) {s s' : State} (hR : R s s') :
    (op s).Matches G R (op s') := by
  induction hop generalizing s s' with
  | readSlot hs => exact h.readSlot s s' _ _ hR hs
  | readWord a => exact h.readWord s s' a hR
  | writeSlot hw _ => exact h.writeSlot s s' _ _ _ hR hw
  | value a => exact fun _ => ⟨s', rfl, hR⟩
  | regValue i v => exact fun _ => ⟨s', by simp only [regReadValue, h.x0Read s s' hR], hR⟩
  | stepPc => exact fun _ => ⟨s', by simp only [h.stepPc s s' hR], hR⟩
  | latchPc v => exact fun _ => ⟨_, rfl, h.setStepPc s s' v hR⟩
  | raise => exact fun _ => ⟨s', rfl, hR⟩
  | @andThen _ _ op _ _ hk ih ihk =>
    have hm := ih hR
    dsimp only
    cases hr : op s with
    | raised e t =>
      rw [hr] at hm
      intro hG
      obtain ⟨t', ht', hR'⟩ := hm hG
      exact ⟨t', by rw [ht']; rfl, hR'⟩
    | ok a t =>
      rw [hr] at hm
      by_cases hG : G t
      · obtain ⟨t', ht', hR'⟩ := hm hG
        rw [ht']
        exact ihk a hR'
      · exact Result.Spec.mono ((hk a).leaves h.leaves hG) (fun _ _ hn hu => absurd hu hn)
          fun _ _ hn hu => absurd hu hn

/-! ### A divergence is positional (R133) -/

/-- `s` with another claimed log. -/
def State.withLog (s : State) (l : AccessLog) : State := { s with log := l }

/-- `s'` is `s` with the log `l`, the two claimed logs agree up to entry `n`, and entry `n` has not been
consumed. -/
structure AgreeUpTo (n : Nat) (l : AccessLog) (s s' : State) : Prop where
  cursor : s.cursor ≤ n
  caller : s.caller ≠ .honest
  log : l.take (n + 1) = s.log.take (n + 1)
  eq : s' = s.withLog l

section
variable {n : Nat} {l : AccessLog} {s s' : State}

/-- Both logs are claimed, and the entry at the cursor is one of those that agree. -/
theorem AgreeUpTo.claimed (h : AgreeUpTo n l s s') : ∃ q, s.caller = .claims q ∧ s'.caller = .claims q ∧
    s'.cursor = s.cursor ∧ s'.log[s.cursor]? = s.log[s.cursor]? := by
  obtain ⟨hcur, hcaller, hlog, rfl⟩ := h
  have hentry : l[s.cursor]? = s.log[s.cursor]? := by
    rw [← List.getElem?_take_of_lt (Nat.lt_succ_of_le hcur), hlog,
      List.getElem?_take_of_lt (Nat.lt_succ_of_le hcur)]
  cases hs : s.caller with
  | honest => exact absurd hs hcaller
  | claims q => exact ⟨q, rfl, hs, rfl, hentry⟩

theorem AgreeUpTo.cfg (h : AgreeUpTo n l s s') : s'.cfg = s.cfg := by
  rw [h.eq]
  rfl

/-- Updates of the cells outside the log side keep the agreement. -/
theorem AgreeUpTo.map (h : AgreeUpTo n l s s') {f : State → State} (hcur : (f s).cursor = s.cursor)
    (hcaller : (f s).caller = s.caller) (hlog : (f s).log = s.log)
    (hwith : f (s.withLog l) = (f s).withLog l) : AgreeUpTo n l (f s) (f s') :=
  ⟨hcur ▸ h.cursor, hcaller ▸ h.caller, hlog ▸ h.log, h.eq ▸ hwith⟩

theorem AgreeUpTo.consumed (h : AgreeUpTo n l s s') (hcur : s.consumed.cursor ≤ n) :
    AgreeUpTo n l s.consumed s'.consumed :=
  ⟨hcur, h.caller, h.log, by rw [h.eq]; rfl⟩

theorem AgreeUpTo.consumeRead (h : AgreeUpTo n l s s') (pos answer answer' : Word) :
    (Machine.consumeRead pos answer s).Matches (·.cursor ≤ n) (AgreeUpTo n l)
      (Machine.consumeRead pos answer' s') := by
  obtain ⟨q, hq, hq', hcur, hentry⟩ := h.claimed
  unfold Machine.consumeRead
  simp only [hq, hq', hcur, hentry]
  cases s.log[s.cursor]? with
  | none => exact fun _ => ⟨s', rfl, h⟩
  | some e =>
    dsimp only
    split_ifs
    · exact fun _ => ⟨s', rfl, h⟩
    · exact fun _ => ⟨s', rfl, h⟩
    · exact fun hG => ⟨_, rfl, h.consumed hG⟩

theorem AgreeUpTo.consumeWrite (h : AgreeUpTo n l s s') (pos v : Word) :
    (Machine.consumeWrite pos v s).Matches (·.cursor ≤ n) (AgreeUpTo n l)
      (Machine.consumeWrite pos v s') := by
  obtain ⟨q, hq, hq', hcur, hentry⟩ := h.claimed
  unfold Machine.consumeWrite
  simp only [hq, hq', hcur, hentry]
  cases s.log[s.cursor]? with
  | none => exact fun _ => ⟨s', rfl, h⟩
  | some e =>
    dsimp only
    split_ifs
    · exact fun _ => ⟨s', rfl, h⟩
    · exact fun _ => ⟨s', rfl, h⟩
    · exact fun _ => ⟨s', rfl, h⟩
    · exact fun hG => ⟨_, rfl, h.consumed hG⟩

end

theorem agreeUpTo_matchedByOps (n : Nat) (l : AccessLog) : MatchedByOps (·.cursor ≤ n) (AgreeUpTo n l) where
  leaves := {
    touched := fun s ts hs h => hs (Nat.le_of_add_right_le h)
    issue := fun _ _ => id
    setReg := fun _ _ _ _ => id
    setPc := fun _ _ => id
    setCycle := fun _ _ => id
    setStepPc := fun _ _ => id
    finish := fun _ _ => id }
  x0Read := fun _ _ h => by rw [h.cfg]
  stepPc := fun _ _ h => by rw [h.eq]; rfl
  setStepPc := fun _ _ v h => h.map (f := (·.setStepPc v)) rfl rfl rfl rfl
  readSlot := fun s s' op sl h _ => by
    rw [h.cfg]
    exact (h.map (f := (·.issue op)) rfl rfl rfl rfl).consumeRead _ _ _
  readWord := fun s s' a h => (h.map (f := (·.issue (.readWord a))) rfl rfl rfl rfl).consumeRead _ _ _
  writeSlot := fun s s' op sl v h _ => by
    rw [h.cfg]
    exact (h.map (f := fun u => (u.issue op).stored op) (by simp) (by simp) (by simp)
      (by cases op <;> rfl)).consumeWrite _ _

/-- Settles O46: the Step fails in the verifier at the cursor, and up to there the two runs match, since every
entry either of them has looked at is one of the first `n + 1`. -/
theorem divergenceIsPositional : Obligations.DivergenceIsPositional := by
  intro s t l l' q e n hc h hr hi hagree
  obtain ⟨u, hu, hu', hcur, hcaller, hlog, hres⟩ : ∃ u, s.beginStep = some u ∧
      State.beginStep { s with caller := .claims (l' :: q) } = some (u.withLog l') ∧
      u.cursor = 0 ∧ u.caller = .claims q ∧ u.log = l ∧ u.result = none := by
    simp only [State.beginStep, hc]
    exact ⟨_, rfl, rfl, rfl, rfl, rfl, rfl⟩
  rw [step_eq_endStep hu hres] at h
  obtain rfl : (stepBody u).endStep = t := by simpa using h
  rw [step_eq_endStep hu' hres]
  obtain ⟨v, hv, hvn⟩ := stepBody_of_index hr hi
  have hR : AgreeUpTo n l' u (u.withLog l') :=
    { cursor := by simp [hcur], caller := by simp [hcaller], log := by rw [hlog, hagree], eq := rfl }
  have hm := StepOp.stepBody.matched (agreeUpTo_matchedByOps n l') hR
  rw [hv] at hm ⊢
  obtain ⟨v', hv', hR'⟩ := hm hvn.le
  rw [hv', hR'.eq]
  exact ⟨hvn, rfl⟩

end Sys2Proof.Machine
end

section
/-!
The upper-immediate instructions (41_upper_immediate.md), and before them which errors an executor can report:
the verifier's, and for a load a misaligned address (60_exceptions.md R243).
-/

namespace Sys2Proof.Machine

/-! ### The errors of an executor -/

/-- The operation, begun in `s`, leaves the result port alone and raises only errors that `E` allows. -/
def Result.RaisesOnly {α : Type} (r : Result α) (s : State) (E : StepError → Prop) : Prop :=
  r.Spec (fun _ t => t.result = s.result) (fun e _ => E e)

section
variable {s : State} {E : StepError → Prop}

theorem Result.RaisesOnly.andThen {α β : Type} {r : Result α} {k : α → State → Result β}
    (h : r.RaisesOnly s E) (hk : ∀ a t, (k a t).RaisesOnly t E) : (r.andThen k).RaisesOnly s E :=
  Result.Spec.andThen h fun a t ht => (hk a t).mono (fun _ _ hu => hu.trans ht) fun _ _ he => he

variable (hE : ∀ e : StepError, e.index ≠ none → E e)
include hE

theorem readX_raisesOnly (i : RegIdx) : (readX i s).RaisesOnly s E :=
  (readX_spec i s).mono (fun _ _ ⟨_, _, ht, _⟩ => ht ▸ rfl) fun e _ ⟨_, hi, _⟩ => hE e (by simp [hi])

theorem writeX_raisesOnly (i : RegIdx) (v : Word) : (writeX i v s).RaisesOnly s E :=
  (writeX_spec i v s).mono (fun _ _ ⟨ht, _⟩ => by simp [ht]) fun e _ ⟨_, _, hi, _⟩ => hE e (by simp [hi])

theorem writePc_raisesOnly (v : Word) : (writePc v s).RaisesOnly s E :=
  (writePc_spec v s).mono (fun _ _ ⟨ht, _⟩ => ht ▸ rfl) fun e _ ⟨_, hi, _⟩ => hE e (by simp [hi])

theorem memRead_raisesOnly {n : Width} (hn : ∀ addr, n.aligned addr = false → E (.misalignedAccess n.bits addr))
    (addr : Word) : (memRead addr n s).RaisesOnly s E := by
  refine (memRead_spec addr n s).mono (fun _ _ ⟨_, _, _, ht, _⟩ => ht ▸ rfl) fun e _ herr => ?_
  rcases herr with ⟨hal, rfl, _⟩ | ⟨_, hi, _⟩
  · exact hn addr hal
  · exact hE e (by simp [hi])

theorem branchIf_raisesOnly (cond : Word → Word → Bool) (rs1 rs2 : RegIdx) (imm : Word) :
    (branchIf cond rs1 rs2 imm s).RaisesOnly s E := by
  refine (readX_raisesOnly hE rs1).andThen fun a t => (readX_raisesOnly hE rs2).andThen fun b u => ?_
  split
  · exact writePc_raisesOnly hE _
  · exact writePc_raisesOnly hE _

theorem load_raisesOnly {n : Width} (hn : ∀ addr, n.aligned addr = false → E (.misalignedAccess n.bits addr))
    (ext : Width → Word → Word) (rd rs1 : RegIdx) (imm : Word) : (load n ext rd rs1 imm s).RaisesOnly s E :=
  (readX_raisesOnly hE rs1).andThen fun _ _ => (memRead_raisesOnly hE hn _).andThen fun _ _ =>
    (writeX_raisesOnly hE rd _).andThen fun _ _ => writePc_raisesOnly hE _

variable {i : Instr} (hload : ∀ n rs1 imm, i.loadForm = some (n, rs1, imm) →
  ∀ addr, n.aligned addr = false → E (.misalignedAccess n.bits addr))
include hload

theorem executor_raisesOnly : (executor i s).RaisesOnly s E := by
  cases i with
  | lui rd imm | auipc rd imm | jal rd imm =>
    exact (writeX_raisesOnly hE rd _).andThen fun _ _ => writePc_raisesOnly hE _
  | jalr rd rs1 imm =>
    exact (readX_raisesOnly hE rs1).andThen fun _ _ => (writeX_raisesOnly hE rd _).andThen fun _ _ =>
      writePc_raisesOnly hE _
  | beq rs1 rs2 imm | bne rs1 rs2 imm | blt rs1 rs2 imm | bge rs1 rs2 imm | bltu rs1 rs2 imm
  | bgeu rs1 rs2 imm => exact branchIf_raisesOnly hE _ rs1 rs2 imm
  | lb rd rs1 imm | lh rd rs1 imm | lw rd rs1 imm | lbu rd rs1 imm | lhu rd rs1 imm =>
    exact load_raisesOnly hE (hload _ rs1 imm rfl) _ rd rs1 imm

/-- Every error is a verifier's or, for a load alone, a misaligned address (60_exceptions.md R243). -/
theorem exec_result_cases {t : State} (h : exec i s = .next t) :
    t.result = s.result ∨ ∃ e, t.result = some (.error e) ∧ E e := by
  obtain ⟨u, hu, hcases⟩ := Result.Spec.settle (executor_raisesOnly (s := s) hE hload)
  obtain rfl : u = t := by simpa [exec_eq_settle, hu] using h
  rcases hcases with hres | ⟨e, w, he, rfl⟩
  · exact .inl hres
  · exact .inr ⟨e, State.raise_result w e, he⟩

end

theorem onlyVerifierErrors_of_loadForm {i : Instr} (h : i.loadForm = none) : OnlyVerifierErrors i :=
  fun _ _ => exec_result_cases (fun _ he => he) (by simp [h])

/-! ### LUI and AUIPC (R150, R151) -/

/-- An executor that ends in a register write and the step to the next instruction. -/
theorem settle_writeX_advancePc {s : State} {rd : RegIdx} {v : Word} {ts : List Touch}
    (hts : ts = touchWriteX s.cfg rd v ++ [touchWritePc s.cfg (s.stepPc + 4#64)])
    (ha : s.admits ts = true) :
    ((writeX rd v s).andThen fun _ u => advancePc u).settle
      = .next (((s.touched ts).writeReg rd v).setPc (s.stepPc + 4#64)) :=
  congrArg Result.settle (writeX_writePc_of_admits nextPc hts ha)

/-- Settles O18: `decode` reads the U format, LUI is no load, and its two writes are let through. -/
theorem luiWritesTheImmediate : Obligations.LuiWritesTheImmediate :=
  ⟨fun _ hop => decode_of_reads ⟨hop, rfl, rfl⟩, fun _ _ => onlyVerifierErrors_of_loadForm rfl,
    fun _ _ _ _ hts ha => settle_writeX_advancePc hts ha⟩

/-- Settles O19: as LUI, the value written being relative to the Step's own pc. -/
theorem auipcWritesPcPlusImmediate : Obligations.AuipcWritesPcPlusImmediate :=
  ⟨fun _ hop => decode_of_reads ⟨hop, rfl, rfl⟩, fun _ _ => onlyVerifierErrors_of_loadForm rfl,
    fun _ _ _ _ hts ha => settle_writeX_advancePc hts ha⟩

end Sys2Proof.Machine
end

section
/-!
The unconditional jumps (42_jumps.md), and before them the Step that finds the pc a jump left misaligned.
-/

namespace Sys2Proof.Machine

/-! ### A Step at a misaligned pc (10_state.md R26, 45_step_controller.md R214) -/

/-- A raise before the dispatch is the whole Step's result. -/
theorem step_of_front_raised {s u v : State} {e : StepError} (h : s.beginStep = some u)
    (hf : front u = .raised e v) : step s = .next (v.raise e) := by
  simp only [step, h, hf]

/-- A Running Step reads the two control cells and the pc before it looks at the pc's alignment. -/
theorem front_misaligned {s : State} {c p : Word} {ts : List Touch} (hc : c ≠ saturatedCycle)
    (hp : Width.word.aligned p = false)
    (hts : ts = [touchReadCycle s.cfg c, touchReadHalt s.cfg 0#64, touchReadPc s.cfg p])
    (ha : s.admits ts = true) :
    front s = .raised (.misalignedAccess 32 p) ((s.touched ts).setStepPc p) := by
  subst hts
  obtain ⟨hfront, hrest⟩ := front_of_admits ha
  have hfetch := fetch_misaligned hp hrest
  rw [State.touched_touched] at hfetch
  simp only [hfront, hc, ne_eq, not_true_eq_false, if_false]
  exact congrArg (Result.andThen · _) hfetch

theorem misalignedPcEndsTheStep : MisalignedPcEndsTheStep := by
  intro s u c p ts hu hc hp hts ha
  have hal : Width.word.aligned p = false :=
    Bool.eq_false_iff.mpr (mt (Width.word.aligned_iff p).mp hp)
  exact step_of_front_raised hu (front_misaligned hc hal hts ha)

/-! ### The end of a jump -/

/-- An executor that ends in the link write and a jump to a target computed from the Step's own pc. -/
theorem settle_writeX_branchTo {s : State} {rd : RegIdx} {v : Word} {ts : List Touch} (g : Word → Word)
    (hts : ts = touchWriteX s.cfg rd v ++ [touchWritePc s.cfg (g s.stepPc)])
    (ha : s.admits ts = true) :
    ((writeX rd v s).andThen fun _ u => branchTo (g u.stepPc) u).settle
      = .next (((s.touched ts).writeReg rd v).setPc (g s.stepPc)) :=
  congrArg Result.settle (writeX_writePc_of_admits g hts ha)

/-! ### JAL and JALR (R160, R161) -/

/-- Settles O20: `decode` reads the J format, JAL is no load, its two writes are let through, and the target is
looked at by the next fetch alone. -/
theorem jalLinksAndJumps : Obligations.JalLinksAndJumps :=
  ⟨fun _ hop => decode_of_reads ⟨hop, rfl, rfl⟩, fun _ _ => onlyVerifierErrors_of_loadForm rfl,
    misalignedPcEndsTheStep, fun _ imm _ _ hts ha => settle_writeX_branchTo (pcRel · imm) hts ha⟩

/-- Opcode 0x67 is JALR's for one value of funct3 only (30_encoding.md R92, R94). -/
theorem decode_of_jalrOpcode {bits : InstrWord} (hop : opcodeOf bits = 0x67#7) :
    decode bits = if funct3Of bits = 0#3
      then .ok (.jalr (rdOf bits) (rs1Of bits) (immI bits)) else .error .unsupported := by
  by_cases hf3 : funct3Of bits = 0#3
  · rw [if_pos hf3]
    exact decode_of_reads ⟨hop, hf3, rfl, rfl, rfl⟩
  · rw [if_neg hf3]
    have hne : (funct3Of bits).toNat ≠ 0 := fun h => hf3 (BitVec.eq_of_toNat_eq h)
    simp [decode, hop] -- the branch of funct3 other than 0, by `hne`

/-- Clearing bit 0, written out as a mask. -/
theorem jalrTarget_eq (base imm : Word) :
    jalrTarget base imm = (base + imm) &&& 0xFFFFFFFFFFFFFFFE#64 := rfl

/-- JALR answers where its touches are let through; the target is fixed by the read, before the link is
written. -/
theorem exec_jalr_of_admits {rd rs1 : RegIdx} {imm a : Word} {ts : List Touch} {s : State}
    (hts : ts = touchReadX s.cfg rs1 a :: (touchWriteX s.cfg rd (nextPc s.stepPc)
      ++ [touchWritePc s.cfg (jalrTarget (regReadValue s.cfg rs1 a) imm)]))
    (ha : s.admits ts = true) :
    exec (.jalr rd rs1 imm) s = .next (((s.touched ts).writeReg rd (nextPc s.stepPc)).setPc
      (jalrTarget (regReadValue s.cfg rs1 a) imm)) := by
  subst hts
  rw [exec_eq_settle, executor, readX_of_admits ha, Result.ok_andThen]
  refine (settle_writeX_branchTo (s := s.touched [touchReadX s.cfg rs1 a])
    (fun _ => jalrTarget (regReadValue s.cfg rs1 a) imm) rfl (State.admits_touched ha)).trans ?_
  rw [State.touched_touched]
  rfl

/-- Settles O21: JALR's funct3 is fixed, JALR is no load, its read and its two writes are let through, and the
target is looked at by the next fetch alone. -/
theorem jalrLinksAndJumpsToTheRegister : Obligations.JalrLinksAndJumpsToTheRegister := by
  refine ⟨fun _ hop => decode_of_jalrOpcode hop, fun _ _ _ => onlyVerifierErrors_of_loadForm rfl,
    misalignedPcEndsTheStep, fun rd rs1 imm a target ts s htarget hts ha => ?_⟩
  rw [← jalrTarget_eq] at htarget
  subst htarget
  exact exec_jalr_of_admits hts ha

end Sys2Proof.Machine
end

section
/-!
The conditional branches (43_branches.md): the six conditions as propositions, the common shape, and what a
branch leaves alone.
-/

namespace Sys2Proof.Machine

/-! ### The conditions (R177) -/

section
variable (a b : Word)

@[simp] theorem condEq_iff : condEq a b = true ↔ a = b := beq_iff_eq
@[simp] theorem condNe_iff : condNe a b = true ↔ a ≠ b := bne_iff_ne
@[simp] theorem condLt_iff : condLt a b = true ↔ a.toInt < b.toInt := decide_eq_true_iff
@[simp] theorem condGe_iff : condGe a b = true ↔ a.toInt ≥ b.toInt := decide_eq_true_iff
@[simp] theorem condLtu_iff : condLtu a b = true ↔ a.toNat < b.toNat := decide_eq_true_iff
@[simp] theorem condGeu_iff : condGeu a b = true ↔ a.toNat ≥ b.toNat := decide_eq_true_iff

end

/-! ### The common shape (R176) -/

section
variable {cond : Word → Word → Bool} {rs1 rs2 : RegIdx} {imm a b : Word} {s : State}

/-- The word a branch writes to the pc, the Step's own pc being `pc`. -/
def branchTarget (taken : Bool) (pc imm : Word) : Word := if taken then pcRel pc imm else nextPc pc

/-- The two ends of a branch are one pc write. -/
theorem branchEnd_eq_writePc (taken : Bool) :
    (if taken then branchTo (pcRel s.stepPc imm) s else advancePc s)
      = writePc (branchTarget taken s.stepPc imm) s := by
  cases taken <;> rfl

/-- A branch answers where its two reads and its pc write are let through; the condition is looked at on the
values the two reads yield. -/
theorem branchIf_of_admits {target : Word}
    (htarget : target
      = branchTarget (cond (regReadValue s.cfg rs1 a) (regReadValue s.cfg rs2 b)) s.stepPc imm)
    (ha : s.admits [touchReadX s.cfg rs1 a, touchReadX s.cfg rs2 b, touchWritePc s.cfg target] = true) :
    branchIf cond rs1 rs2 imm s = .ok ()
      ((s.touched [touchReadX s.cfg rs1 a, touchReadX s.cfg rs2 b, touchWritePc s.cfg target]).setPc
        target) := by
  have ha₁ := State.admits_touched ha
  have ha₂ := State.admits_touched ha₁
  rw [branchIf, readX_of_admits ha, Result.ok_andThen, readX_of_admits ha₁, Result.ok_andThen,
    branchEnd_eq_writePc]
  simp only [State.touched_cfg, State.touched_stepPc, ← htarget]
  refine (writePc_of_admits ha₂).trans ?_
  simp only [State.touched_touched, State.touched_cfg, List.cons_append, List.nil_append]

/-- An instruction that is executed as `branchIf cond` branches when the proposition `cond` tests holds. -/
theorem branchesWhen_of_executor {mk : RegIdx → RegIdx → Word → Instr} {taken : Word → Word → Prop}
    (hmk : ∀ rs1 rs2 imm, executor (mk rs1 rs2 imm) = branchIf cond rs1 rs2 imm)
    (hcond : ∀ a b, cond a b = true ↔ taken a b) : BranchesWhen mk taken := by
  intro rs1 rs2 imm a b target s htaken hnot ha
  rw [← hcond] at htaken hnot
  have htarget : target
      = branchTarget (cond (regReadValue s.cfg rs1 a) (regReadValue s.cfg rs2 b)) s.stepPc imm := by
    unfold branchTarget
    split
    · exact htaken ‹_›
    · exact hnot ‹_›
  rw [exec_eq_settle, hmk, branchIf_of_admits htarget ha, Result.settle_ok]

end

/-! ### The six branches (R170 to R175) -/

/-- Settles O22: `decode` reads the B format, a branch is no load, its two reads and its pc write are let
through, and the target is looked at by the next fetch alone. -/
theorem branchesFollowTheirConditions : Obligations.BranchesFollowTheirConditions := by
  refine ⟨fun bits hop => ?_, fun rs1 rs2 imm => ?_, misalignedPcEndsTheStep,
    branchesWhen_of_executor (fun _ _ _ => rfl) condEq_iff,
    branchesWhen_of_executor (fun _ _ _ => rfl) condNe_iff,
    branchesWhen_of_executor (fun _ _ _ => rfl) condLt_iff,
    branchesWhen_of_executor (fun _ _ _ => rfl) condGe_iff,
    branchesWhen_of_executor (fun _ _ _ => rfl) condLtu_iff,
    branchesWhen_of_executor (fun _ _ _ => rfl) condGeu_iff⟩
  · refine ⟨?_, ?_, ?_, ?_, ?_, ?_⟩ <;> exact fun hf3 => decode_of_reads ⟨hop, hf3, rfl, rfl, rfl⟩
  · refine ⟨?_, ?_, ?_, ?_, ?_, ?_⟩ <;> exact onlyVerifierErrors_of_loadForm rfl

/-- Settles O26: the frame that every executor has, six times; a branch has no destination. -/
theorem branchesKeepTheRest : Obligations.BranchesKeepTheRest := fun _ _ _ _ _ =>
  ⟨exec_keeps, exec_keeps, exec_keeps, exec_keeps, exec_keeps, exec_keeps⟩

end Sys2Proof.Machine
end

section
/-!
The loads (44_loads.md): the loaded number as a bit field, the common shape where its accesses are let through
and at a misaligned address, and which errors a load can report.
-/

namespace Sys2Proof.Machine

/-! ### The loaded value (R196) -/

/-- The `8n` bits a load takes from the containing word (20_memory.md R55). -/
def loadedField (n : Width) (addr w : Word) : BitVec n.bits := w.extractLsb' (laneShift addr) n.bits

section
variable {n : Width} {addr : Word} (w : Word)

theorem loadedNat_eq_toNat : loadedNat n addr w = (loadedField n addr w).toNat := by
  rw [loadedField, BitVec.extractLsb'_toNat, Nat.shiftRight_eq_div_pow, laneShift_eq]
  rfl

theorem Width.extract_eq_setWidth (h : n.aligned addr = true) :
    n.extract addr w = (loadedField n addr w).setWidth 64 := by
  apply BitVec.eq_of_getLsbD_eq
  intro k hk
  rw [Width.extract_getLsbD h hk, BitVec.getLsbD_setWidth, decide_eq_true hk, Bool.true_and, loadedField,
    BitVec.getLsbD_extractLsb']

theorem Width.bits_le (n : Width) : n.bits ≤ 64 := by
  cases n <;> decide

/-- The low bits of the extracted word are the field again. -/
theorem setWidth_extract (h : n.aligned addr = true) :
    (n.extract addr w).setWidth n.bits = loadedField n addr w := by
  rw [Width.extract_eq_setWidth w h, BitVec.setWidth_setWidth_of_le _ n.bits_le, BitVec.setWidth_eq]

theorem extUnsigned_extract (h : n.aligned addr = true) :
    extUnsigned n (n.extract addr w) = loadedWord n false addr w := by
  rw [extUnsigned, zext, setWidth_extract w h, loadedWord, if_neg (by simp), loadedNat_eq_toNat,
    BitVec.ofNat_toNat]

/-- The top bit is set from the middle of the number's range on. -/
theorem loadedWord_signed : loadedWord n true addr w = BitVec.ofInt 64 (loadedField n addr w).toInt := by
  have hhalf : 2 ^ n.bits = 2 * 2 ^ (8 * n.bytes - 1) := by
    cases n <;> rfl
  rw [loadedWord, loadedNat_eq_toNat, BitVec.toInt_eq_toNat_cond]
  by_cases htop : 2 ^ (8 * n.bytes - 1) ≤ (loadedField n addr w).toNat
  · rw [if_pos ⟨rfl, htop⟩, if_neg (by omega)]
    norm_cast
  · rw [if_neg (fun h => htop h.2), if_pos (by omega), BitVec.ofInt_natCast]

theorem extSigned_extract (h : n.aligned addr = true) :
    extSigned n (n.extract addr w) = loadedWord n true addr w := by
  rw [extSigned, sext, setWidth_extract w h, loadedWord_signed]
  rfl

end

/-! ### The common shape (R195) -/

/-- What the log side lets through after touches it has let through. -/
theorem State.admits_touched_append {s : State} (ts : List Touch) {us : List Touch}
    (ha : s.admits (ts ++ us) = true) : (s.touched ts).admits us = true := by
  induction ts generalizing s with
  | nil => simpa using ha
  | cons t ts ih =>
    rw [← List.singleton_append, ← State.touched_touched]
    exact ih (State.admits_touched ha)

section
variable {n : Width} {ext : Width → Word → Word} {rd rs1 : RegIdx} {imm a w addr : Word} {s : State}

/-- A load whose two reads are let through is its register write and the step to the next instruction. -/
theorem load_of_admits_reads {us : List Touch} (haddr : addr = effAddr (regReadValue s.cfg rs1 a) imm)
    (hal : n.aligned addr = true)
    (ha : s.admits (touchReadX s.cfg rs1 a :: touchReadWord (alignDown addr) w :: us) = true) :
    load n ext rd rs1 imm s
      = (writeX rd (ext n (n.extract addr w))
          (s.touched [touchReadX s.cfg rs1 a, touchReadWord (alignDown addr) w])).andThen
        fun _ u => advancePc u := by
  rw [load, readX_of_admits ha, Result.ok_andThen, ← haddr,
    memRead_of_admits hal (State.admits_touched ha), Result.ok_andThen, State.touched_touched]
  rfl

/-- At a misaligned address a load raises after its register read. -/
theorem load_misaligned (hal : ¬ n.aligned (effAddr (regReadValue s.cfg rs1 a) imm) = true)
    (ha : s.admits [touchReadX s.cfg rs1 a] = true) :
    load n ext rd rs1 imm s = .raised
      (.misalignedAccess n.bits (effAddr (regReadValue s.cfg rs1 a) imm))
      (s.touched [touchReadX s.cfg rs1 a]) := by
  rw [load, readX_of_admits ha, Result.ok_andThen, memRead_misaligned hal, Result.raised_andThen]

/-- The rest of a Step does nothing once the executor raised (60_exceptions.md R241). -/
theorem afterExec_raise (c : Word) (e : StepError) (t : State) :
    afterExec c (.next (t.raise e)) = .next (t.raise e) := rfl

/-! ### Instructions executed as a load -/

variable {mk : RegIdx → RegIdx → Word → Instr}

theorem loadsAs_of_executor {signed : Bool}
    (hmk : ∀ rd rs1 imm, executor (mk rd rs1 imm) = load n ext rd rs1 imm)
    (hext : ∀ {addr} w, n.aligned addr = true → ext n (n.extract addr w) = loadedWord n signed addr w) :
    LoadsAs mk n signed := by
  intro rd rs1 imm a w addr ts s haddr hmod hts ha
  have hal : n.aligned addr = true := (n.aligned_iff addr).mpr hmod
  subst hts
  rw [List.append_assoc] at ha ⊢
  rw [exec_eq_settle, hmk, load_of_admits_reads haddr hal ha, hext w hal,
    settle_writeX_advancePc rfl (State.admits_touched_append _ ha), State.touched_touched]
  rfl

theorem misalignedLoadRaises_of_executor
    (hmk : ∀ rd rs1 imm, executor (mk rd rs1 imm) = load n ext rd rs1 imm) :
    MisalignedLoadRaises mk n := by
  rintro rd rs1 imm a addr c s t rfl hmod ha rfl
  refine ⟨?_, afterExec_raise c _ _⟩
  rw [exec_eq_settle, hmk, load_misaligned (mt (n.aligned_iff _).mp hmod) ha]
  rfl

theorem loadErrors_of_loadForm (hmk : ∀ rd rs1 imm, (mk rd rs1 imm).loadForm = some (n, rs1, imm)) :
    LoadErrors mk n := by
  intro rd rs1 imm s t h
  refine exec_result_cases (fun _ he => .inl he) (fun m r d hform addr hal => .inr ⟨addr, ?_, ?_⟩) h
  all_goals obtain ⟨rfl, -, -⟩ : n = m ∧ rs1 = r ∧ imm = d := by simpa [hmk] using hform
  · rw [ne_eq, ← n.aligned_iff, hal]
    exact Bool.false_ne_true
  · rfl

end

/-! ### The five loads (R190 to R194) -/

/-- Settles O23: `decode` reads the I format, each load is `load` at its width and extension, and only the
alignment check adds an error to the verifier's. -/
theorem loadsWriteTheExtendedValue : Obligations.LoadsWriteTheExtendedValue := by
  refine ⟨fun bits hop => ?_,
    loadsAs_of_executor (fun _ _ _ => rfl) extSigned_extract,
    loadsAs_of_executor (fun _ _ _ => rfl) extSigned_extract,
    loadsAs_of_executor (fun _ _ _ => rfl) extSigned_extract,
    loadsAs_of_executor (fun _ _ _ => rfl) extUnsigned_extract,
    loadsAs_of_executor (fun _ _ _ => rfl) extUnsigned_extract,
    misalignedLoadRaises_of_executor fun _ _ _ => rfl,
    misalignedLoadRaises_of_executor fun _ _ _ => rfl,
    misalignedLoadRaises_of_executor fun _ _ _ => rfl,
    loadErrors_of_loadForm fun _ _ _ => rfl, loadErrors_of_loadForm fun _ _ _ => rfl,
    loadErrors_of_loadForm fun _ _ _ => rfl, loadErrors_of_loadForm fun _ _ _ => rfl,
    loadErrors_of_loadForm fun _ _ _ => rfl⟩
  refine ⟨?_, ?_, ?_, ?_, ?_⟩ <;> exact fun hf3 => decode_of_reads ⟨hop, hf3, rfl, rfl, rfl⟩

end Sys2Proof.Machine
end

section
/-!
The Step Controller (45_step_controller.md R210 to R222): each way a Step can go where its front accesses are let
through, the cycle write, the end-of-log check, and which of these ends an honest caller meets (R224).
-/

namespace Sys2Proof.Machine

/-! ### The successful end of a Step (R222) -/

section
variable (s : State) (c : Word) (halted : Bool)

@[simp] theorem State.conclude_cfg : (s.conclude c halted).cfg = s.cfg := by
  rw [State.conclude_eq, State.finish_cfg]

@[simp] theorem State.conclude_log : (s.conclude c halted).log = s.log := by
  rw [State.conclude_eq, State.finish_log]

@[simp] theorem State.conclude_cursor : (s.conclude c halted).cursor = s.cursor := by
  rw [State.conclude_eq, State.finish_cursor]

@[simp] theorem State.conclude_trace : (s.conclude c halted).trace = s.trace := by
  rw [State.conclude_eq, State.finish_trace]

variable {s}

theorem State.conclude_of_used (h : s.cursor = s.log.length) :
    s.conclude c halted = s.finish (.ok c halted) := by
  rw [State.conclude_eq, if_pos h]

theorem State.conclude_of_left_over (h : s.cursor ≠ s.log.length) :
    s.conclude c halted = s.finish (.error (.endOfLogInvariantViolation s.cursor s.log.length)) := by
  rw [State.conclude_eq, if_neg h]

end

/-! ### The front of a Step (R211 to R216) -/

section
variable {s : State} {c : Word} {ts : List Touch}

/-- A Halted or CycleSaturated Step reads the two control cells only (R212). -/
theorem front_idle {h : Word} (hidle : h ≠ 0#64 ∨ c = saturatedCycle)
    (hts : ts = [touchReadCycle s.cfg c, touchReadHalt s.cfg h]) (ha : s.admits ts = true) :
    front s = .ok (.idle c (decide (h ≠ 0#64))) (s.touched ts) := by
  subst hts
  rw [(front_of_admits ha).1]
  by_cases h0 : h = 0#64
  · have hc : c = saturatedCycle := hidle.resolve_left (not_not_intro h0)
    simp [h0, hc]
  · simp [h0]

/-- A Running Step at an aligned pc answers with the word it fetched (R213, R214). -/
theorem front_run {p w : Word} (hc : c ≠ saturatedCycle) (hp : p.toNat % 4 = 0)
    (hts : ts = [touchReadCycle s.cfg c, touchReadHalt s.cfg 0#64, touchReadPc s.cfg p,
      touchReadWord (alignDown p) w])
    (ha : s.admits ts = true) :
    front s = .ok (.run c (instrWordAt p w)) ((s.touched ts).setStepPc p) := by
  subst hts
  obtain ⟨hfront, hrest⟩ := front_of_admits ha
  have hfetch := fetch_of_admits ((Width.word.aligned_iff p).mpr hp) hrest
  rw [State.touched_touched] at hfetch
  simp only [hfront, hc, ne_eq, not_true_eq_false, if_false]
  exact congrArg (Result.andThen · _) hfetch

end

/-! ### Where a Step goes from its front -/

/-- Settles O29: the front answers with the word at the pc, and the rest of the Step is dispatch. -/
theorem stepRunsTheDecodedInstruction : Obligations.StepRunsTheDecodedInstruction := by
  intro s u t c p w ts i hu hc hp hts ha hdec hexec
  simp only [step, hu, front_run hc hp hts ha, hdec, hexec, afterExec, Option.isNone_iff_eq_none]

/-- Settles O30: a bad pc ends the Step in its front, and a word of no row at its dispatch. -/
theorem stepRejectsBadPcAndBadWord : Obligations.StepRejectsBadPcAndBadWord := by
  refine ⟨misalignedPcEndsTheStep, fun s u c p w ts hu hc hp hts ha hdec => ?_⟩
  simp only [step, hu, front_run hc hp hts ha, hdec, State.setStepPc_stepPc]

/-- Settles O31: the front is idle with the cursor at 2, so that the end-of-log check is about the log's
length. -/
theorem haltedAndSaturatedStepsDoNothing : Obligations.HaltedAndSaturatedStepsDoNothing := by
  intro s u c h ts hu hts ha hidle
  have hbegin := State.begins_of_beginStep hu
  have hstep : step s = .next ((u.touched ts).conclude c (decide (h ≠ 0#64))) := by
    simp only [step, hu, front_idle hidle hts ha]
  have hcur : (u.touched ts).cursor = 2 := by simp [hbegin.cursor, hts]
  have hlog : (u.touched ts).log.length = if u.caller = .honest then 2 else u.log.length := by
    rw [State.touched_log]
    split
    · next hc => simp [hbegin.log hc, hts]
    · rfl
  refine ⟨fun hok => ?_, fun q hc hlen => ?_⟩
  · rw [hstep, State.conclude_of_used]
    rw [hcur, hlog]
    split
    · rfl
    · next hc => exact (hok.resolve_left hc).symm
  · have hlog' : (u.touched ts).log.length = u.log.length := by simp [hc]
    rw [hstep, State.conclude_of_left_over, hcur, hlog']
    rw [hcur, hlog']
    exact hlen.symm

/-! ### The cycle write (R221) -/

theorem retire_of_admits {c : Word} {s : State}
    (ha : s.admits [touchWriteCycle s.cfg (c + 1#64)] = true) :
    retire c s = ((s.touched [touchWriteCycle s.cfg (c + 1#64)]).setCycle (c + 1#64)).conclude
      (c + 1#64) false := by
  rw [retire, writeCycle_of_admits ha]

/-- Settles O32: below the sentinel the successor does not wrap, and an admitted cycle write leaves the Step to
its end-of-log check. -/
theorem retireWritesTheNextCycle : Obligations.RetireWritesTheNextCycle := by
  intro c s u hc
  refine ⟨?_, fun ha hu => ⟨fun hused => ?_, fun hleft => ?_⟩⟩
  · bv_omega
  · rw [retire_of_admits ha, ← hu, State.conclude_of_used _ _ hused]
  · rw [retire_of_admits ha, ← hu, State.conclude_of_left_over _ _ hleft]

/-! ### The end-of-log check (R222) -/

theorem State.result_of_beginStep {s u : State} (h : s.beginStep = some u) : u.result = none := by
  unfold State.beginStep at h
  split at h
  · cases h
    rfl
  · cases h
  · cases h
    rfl

/-- A Step that reaches a next state is `stepBody` and its end. -/
theorem step_next_endStep {s t : State} (h : step s = .next t) :
    ∃ u, s.beginStep = some u ∧ t = (stepBody u).endStep := by
  obtain ⟨u, hu, -⟩ := step_next_cases h
  rw [step_eq_endStep hu (State.result_of_beginStep hu)] at h
  exact ⟨u, hu, (Host.Outcome.next.inj h).symm⟩

/-- The cursor stays inside the log (10_state.md R35). -/
theorem step_cursor_le {s t : State} (h : step s = .next t) : t.cursor ≤ t.log.length := by
  obtain ⟨u, i, hu, ts, refused, -, hp, -⟩ := step_begins_ended h
  exact hp.cursor_le (hu.cursor ▸ Nat.zero_le _)

/-- Settles O33: Ok and E6 are the two results of `State.conclude`, no operation of a Step raises E6, and a
verifier's error stands at the cursor. -/
theorem endOfLogIsCheckedOnSuccess : Obligations.EndOfLogIsCheckedOnSuccess := by
  intro s t h
  have hle := step_cursor_le h
  obtain ⟨u, hu, rfl⟩ := step_next_endStep h
  refine ⟨fun c halted hr => ?_, fun n l hr => ?_, fun e n hr hi => ?_⟩
  · cases hb : stepBody u with
    | raised e v => simp [hb, Result.endStep] at hr
    | ok r v =>
      by_cases hused : v.cursor = v.log.length
      · simpa [Result.endStep] using hused
      · simp [hb, Result.endStep, State.conclude_of_left_over _ _ hused] at hr
  · have hspec := StepOp.stepBody.spec u
    cases hb : stepBody u with
    | raised e v =>
      rw [hb] at hspec
      obtain rfl : e = .endOfLogInvariantViolation n l := by simpa [hb, Result.endStep] using hr
      simp [StepError.errorClass, StepError.index] at hspec
    | ok r v =>
      simp only [hb, Result.endStep, State.conclude_cursor, State.conclude_log] at hle hr ⊢
      by_cases hused : v.cursor = v.log.length
      · simp [State.conclude_of_used _ _ hused] at hr
      · obtain ⟨rfl, rfl⟩ : v.cursor = n ∧ v.log.length = l := by
          simpa [State.conclude_of_left_over _ _ hused] using hr
        exact ⟨rfl, rfl, by omega⟩
  · obtain ⟨v, hv, rfl⟩ := stepBody_of_index hr hi
    rw [hv]
    rfl

/-! ### Under an honest caller (R224) -/

/-- An honest log is being recorded, the cursor at its end. -/
def State.Recording (s : State) : Prop := s.caller = .honest ∧ s.cursor = s.log.length

theorem State.recording_keptByOps : KeptByOps State.Recording where
  touched _ _ := fun ⟨hc, hcur⟩ => ⟨hc, by simp [hc, hcur]⟩
  issue _ _ := id
  setReg _ _ _ _ := id
  setPc _ _ := id
  setCycle _ _ := id
  setStepPc _ _ := id
  finish _ _ := id

/-- The verifier accepts every access of an honest caller, so only the state being stepped can fail a Step
(60_exceptions.md R244). -/
theorem StepOp.errorClass_of_recording {α : Type} {op : State → Result α} (hop : StepOp op) {s t : State}
    {e : StepError} (hs : s.Recording) (h : op s = .raised e t) : e.errorClass = .state := by
  have ht : t.Recording := (hop.leaves State.recording_keptByOps hs).of_raised h
  have hspec := hop.spec s
  rw [h] at hspec
  exact hspec.resolve_right fun herr => herr.2 ht.1

/-- An honest log holds what the store answers (R224). -/
theorem State.admits_honest_iff {s : State} (hs : s.caller = .honest) {ts : List Touch} :
    s.admits ts = true ↔ ∀ t ∈ ts, ∀ v, s.answer t.op = some v → t.entry.value = v := by
  simp only [State.admits, hs, List.all_eq_true]
  refine forall₂_congr fun t _ => ?_
  cases s.answer t.op <;> simp

/-- A register write has no answer for the log to agree with. -/
theorem State.answer_of_mem_touchWriteX {s : State} {c : Config} {i : RegIdx} {v : Word} {t : Touch}
    (ht : t ∈ touchWriteX c i v) : s.answer t.op = none := by
  unfold touchWriteX at ht
  split at ht
  · cases ht
  · rw [List.mem_singleton.mp ht]
    rfl

theorem executor_eq_load_of_loadForm {i : Instr} {n : Width} {rs1 : RegIdx} {imm : Word}
    (h : i.loadForm = some (n, rs1, imm)) : ∃ ext rd, executor i = load n ext rd rs1 imm := by
  cases i with
  | lb | lh | lw | lbu | lhu =>
    cases h
    exact ⟨_, _, rfl⟩
  | _ => cases h

section
variable {s : State} {i : Instr}

/-- The address a load of this form accesses under an honest caller. -/
def State.loadAddr (s : State) (rs1 : RegIdx) (imm : Word) : Word :=
  effAddr (regReadValue s.cfg rs1 s.regs[rs1]) imm

theorem writeX_writePc_ok_of_honest (hs : s.caller = .honest) (rd : RegIdx) (v : Word) (g : Word → Word) :
    ∃ t, ((writeX rd v s).andThen fun _ u => writePc (g u.stepPc) u) = .ok () t := by
  refine ⟨_, writeX_writePc_of_admits g rfl ((State.admits_honest_iff hs).mpr fun x hx w hw => ?_)⟩
  rcases List.mem_append.mp hx with hx | hx
  · simp [State.answer_of_mem_touchWriteX hx] at hw
  · simp [List.mem_singleton.mp hx, touchWritePc, State.answer] at hw

theorem load_ok_of_honest {n : Width} {ext : Width → Word → Word} {rd rs1 : RegIdx} {imm : Word}
    (hs : s.caller = .honest) (hal : n.aligned (s.loadAddr rs1 imm) = true) :
    ∃ t, load n ext rd rs1 imm s = .ok () t := by
  have hreads : s.admits [touchReadX s.cfg rs1 s.regs[rs1], touchReadWord (alignDown (s.loadAddr rs1 imm))
      (s.storeWord (alignDown (s.loadAddr rs1 imm)))] = true :=
    (State.admits_honest_iff hs).mpr (by simp [touchReadX, touchReadWord, State.answer])
  rw [load_of_admits_reads rfl hal hreads]
  exact writeX_writePc_ok_of_honest (s := s.touched _) hs rd _ nextPc

/-- Under an honest caller only a load at a misaligned address raises. -/
theorem executor_of_recording (hs : s.Recording) : (∃ t, executor i s = .ok () t) ∨
    ∃ n rs1 imm t, i.loadForm = some (n, rs1, imm) ∧ n.aligned (s.loadAddr rs1 imm) ≠ true ∧
      executor i s = .raised (.misalignedAccess n.bits (s.loadAddr rs1 imm)) t := by
  cases hform : i.loadForm with
  | none =>
    have honly := executor_raisesOnly (s := s) (i := i) (fun _ he => he) (by simp [hform])
    cases hx : executor i s with
    | ok _ t => exact .inl ⟨t, rfl⟩
    | raised e t =>
      rw [hx] at honly
      exact absurd (StepError.index_of_state ((StepOp.executor i).errorClass_of_recording hs hx)) honly
  | some form =>
    obtain ⟨n, rs1, imm⟩ := form
    obtain ⟨ext, rd, hload⟩ := executor_eq_load_of_loadForm hform
    rw [hload]
    by_cases hal : n.aligned (s.loadAddr rs1 imm) = true
    · exact .inl (load_ok_of_honest hs.1 hal)
    · exact .inr ⟨n, rs1, imm, _, rfl, hal, load_misaligned hal
        ((State.admits_honest_iff hs.1).mpr (by simp [touchReadX, State.answer]))⟩

/-- The same of the whole executor, from a Step in progress. -/
theorem exec_of_recording (hs : s.Recording) (hr : s.result = none) :
    (∃ t, exec i s = .next t ∧ t.Recording ∧ t.result = none) ∨
    ∃ n rs1 imm, ∃ t : State, i.loadForm = some (n, rs1, imm) ∧ n.aligned (s.loadAddr rs1 imm) ≠ true ∧
      exec i s = .next (t.raise (.misalignedAccess n.bits (s.loadAddr rs1 imm))) := by
  rw [exec_eq_settle]
  rcases executor_of_recording (i := i) hs with ⟨t, ht⟩ | ⟨n, rs1, imm, t, hform, hal, ht⟩
  · have hspec := (StepOp.executor i).spec s
    rw [ht] at hspec
    exact .inl ⟨t, by rw [ht, Result.settle_ok],
      ((StepOp.executor i).leaves State.recording_keptByOps hs).of_ok ht, Eq.trans hspec hr⟩
  · exact .inr ⟨n, rs1, imm, t, hform, hal, by rw [ht, Result.settle_raised]⟩

theorem retire_succeeded_of_recording (hs : s.Recording) (c : Word) : (retire c s).succeeded = true := by
  have hkept : ((s.touched [touchWriteCycle s.cfg (c + 1#64)]).setCycle (c + 1#64)).Recording :=
    State.recording_keptByOps.touched s _ hs
  rw [retire_of_admits ((State.admits_honest_iff hs.1).mpr (by simp [touchWriteCycle, State.answer])),
    State.conclude_of_used _ _ hkept.2]
  rfl

end

/-- The instruction word the store holds at the pc (R214). -/
def State.wordAtPc (s : State) : InstrWord := instrWordAt s.pc (s.storeWord (alignDown s.pc))

/-- The front touches of a Running Step of an honest caller, with the halt flag's word `h` (R211 to R214). -/
def State.frontTouches (s : State) (h : Word) : List Touch :=
  [touchReadCycle s.cfg s.cycle, touchReadHalt s.cfg h, touchReadPc s.cfg s.pc,
    touchReadWord (alignDown s.pc) (s.storeWord (alignDown s.pc))]

theorem State.admits_take_frontTouches {s : State} {h : Word} (hs : s.caller = .honest) (hh : s.halt = h)
    (n : Nat) : s.admits ((s.frontTouches h).take n) = true := by
  have hall : s.admits (s.frontTouches h) = true := (State.admits_honest_iff hs).mpr (by
    simp [State.frontTouches, touchReadCycle, touchReadHalt, touchReadPc, touchReadWord, State.answer, hh])
  exact (State.admits_honest_iff hs).mpr fun t ht =>
    (State.admits_honest_iff hs).mp hall t (List.mem_of_mem_take ht)

/-- How a Step of an honest caller can end. -/
inductive HonestEnd (s t : State) : Prop where
  | succeeded (h : t.succeeded = true)
  | misalignedPc (hpc : s.pc.toNat % 4 ≠ 0) (hr : t.result = some (.error (.misalignedAccess 32 s.pc)))
  | unsupported (d : DecodeReject) (hdec : decode s.wordAtPc = .error d)
      (hr : t.result = some (.error (.unsupportedInstruction s.wordAtPc s.pc)))
  | misalignedLoad (i : Instr) (n : Width) (rs1 : RegIdx) (imm : Word) (hdec : decode s.wordAtPc = .ok i)
      (hform : i.loadForm = some (n, rs1, imm)) (hal : n.aligned (s.loadAddr rs1 imm) ≠ true)
      (hr : t.result = some (.error (.misalignedAccess n.bits (s.loadAddr rs1 imm))))

theorem honestEnd_of_beginStep {s u t : State} (hu : s.beginStep = some u) (hrec : u.Recording)
    (h : step s = .next t) : HonestEnd u t := by
  by_cases hidle : u.halt ≠ 0#64 ∨ u.cycle = saturatedCycle
  · rw [(haltedAndSaturatedStepsDoNothing s u _ _ _ hu rfl
      (State.admits_take_frontTouches hrec.1 rfl 2) hidle).1 (.inl hrec.1)] at h
    cases h
    exact .succeeded rfl
  obtain ⟨hhalt, hc⟩ : u.halt = 0#64 ∧ u.cycle ≠ saturatedCycle := by simpa using hidle
  have hadmits := State.admits_take_frontTouches hrec.1 hhalt
  by_cases hp : u.pc.toNat % 4 = 0
  · cases hdec : decode u.wordAtPc with
    | error d =>
      rw [stepRejectsBadPcAndBadWord.2 s u _ _ _ _ hu hc hp rfl (hadmits 4)
        (eq_unsupported_of_decode hdec ▸ hdec)] at h
      cases h
      exact .unsupported d hdec rfl
    | ok i =>
      obtain ⟨v, hrun, hrecv, hresv, haddr⟩ : ∃ v : State,
          (∀ w, exec i v = .next w → step s = .next (if w.result = none then retire u.cycle w else w)) ∧
          v.Recording ∧ v.result = none ∧ v.loadAddr = u.loadAddr :=
        ⟨_, fun w => stepRunsTheDecodedInstruction s u w _ _ _ _ i hu hc hp rfl (hadmits 4) hdec,
          State.recording_keptByOps.touched u _ hrec, (State.result_of_beginStep hu :), rfl⟩
      rcases exec_of_recording (i := i) hrecv hresv with
        ⟨w, hw, hrecw, hres⟩ | ⟨n, rs1, imm, w, hform, hal, hw⟩
      · rw [hrun w hw, if_pos hres] at h
        cases h
        exact .succeeded (retire_succeeded_of_recording hrecw _)
      · rw [hrun _ hw, if_neg (by simp)] at h
        cases h
        rw [haddr] at hal
        exact .misalignedLoad i n rs1 imm hdec hform hal (by rw [haddr, State.raise_result])
  · rw [misalignedPcEndsTheStep s u _ _ _ hu hc hp rfl (hadmits 3)] at h
    cases h
    exact .misalignedPc hp rfl

/-- Settles O41: of the ends of `HonestEnd`, the failures are of the state being stepped, and the conditions of
the second part exclude each of them. -/
theorem honestStepsFailOnlyByTheState : Obligations.HonestStepsFailOnlyByTheState := by
  intro s t hs h
  obtain ⟨u, hu, hrec, hpc, hword, haddr⟩ : ∃ u, s.beginStep = some u ∧ u.Recording ∧ u.pc = s.pc ∧
      u.wordAtPc = s.wordAtPc ∧ u.loadAddr = s.loadAddr := by
    simp only [State.beginStep, hs]
    exact ⟨_, rfl, ⟨rfl, rfl⟩, rfl, rfl, rfl⟩
  cases honestEnd_of_beginStep hu hrec h with
  | succeeded hok =>
    refine ⟨fun e hr => ?_, fun _ _ _ _ => hok⟩
    simp [State.succeeded, hr] at hok
  | misalignedPc hp hr =>
    refine ⟨fun e he => ?_, fun i hal _ _ => absurd hal (hpc ▸ hp)⟩
    obtain rfl : _ = e := by simpa [hr] using he
    exact ⟨rfl, .inl ⟨_, _, rfl⟩⟩
  | unsupported d hdec hr =>
    rw [hword] at hdec
    refine ⟨fun e he => ?_, fun i _ hi _ => ?_⟩
    · obtain rfl : _ = e := by simpa [hr] using he
      exact ⟨rfl, .inr ⟨_, by rw [hpc]⟩⟩
    · exact nomatch hi.symm.trans hdec
  | misalignedLoad i n rs1 imm hdec hform hal hr =>
    rw [hword] at hdec
    rw [haddr, ne_eq, n.aligned_iff] at hal
    refine ⟨fun e he => ?_, fun j _ hj hload => ?_⟩
    · obtain rfl : _ = e := by simpa [hr] using he
      exact ⟨rfl, .inl ⟨_, _, rfl⟩⟩
    · obtain rfl : i = j := Except.ok.inj (hdec.symm.trans hj)
      exact absurd (hload n rs1 imm hform) hal

end Sys2Proof.Machine
end

section
/-!
The footprint of a successful Step (45_step_controller.md R223). `Result.Consumes` says of an operation which log
entries it has consumed where it answers, once per operation from the facade up to the whole Step; a Step that
used its log up has consumed all of it.
-/

namespace Sys2Proof.Machine

/-! ### Consumed entries -/

/-- Kind and position of an entry. -/
def Access.key (e : Access) : AccessKind × Word := (e.kind, e.position)

/-- `t` is `s` after accesses whose log entries are `es`, all let through. -/
def State.Consumed (s : State) (es : AccessLog) (t : State) : Prop :=
  ∃ ts, s.Performs ts [] t ∧ ts.map Touch.entry = es

section
variable {s t u : State} {es es' : AccessLog}

theorem State.Consumed.refl (s : State) : s.Consumed [] s := ⟨[], .refl s, rfl⟩

theorem State.Consumed.trans (h : s.Consumed es t) (h' : t.Consumed es' u) : s.Consumed (es ++ es') u := by
  obtain ⟨ts, hp, rfl⟩ := h
  obtain ⟨us, hp', rfl⟩ := h'
  exact ⟨ts ++ us, hp.trans hp', List.map_append⟩

theorem State.Consumed.cfg (h : s.Consumed es t) : t.cfg = s.cfg := by
  obtain ⟨_, hp, _⟩ := h
  exact hp.cfg

theorem State.Consumed.touch (x : Touch) (ht : t = (s.touched [x]).stored x.op)
    (hl : s.caller ≠ .honest → s.log[s.cursor]? = some x.entry) : s.Consumed [x.entry] t :=
  ⟨[x], ht ▸ .touch hl, rfl⟩

/-- From the start of a Step to the end of its log, what was consumed is the log. -/
theorem State.Consumed.log_eq (h : s.Consumed es t) (hcur : s.cursor = 0)
    (hlog : s.caller = .honest → s.log = []) (hused : t.cursor = t.log.length) : t.log = es := by
  obtain ⟨ts, hp, rfl⟩ := h
  rw [hp.cursor, hcur, Nat.zero_add] at hused
  rw [hp.log, State.touched_log] at hused ⊢
  split
  · next hc => rw [hlog hc, List.nil_append]
  · next hc =>
    rw [if_neg hc] at hused
    have hpre := hp.claimed hc
    rw [hcur, List.drop_zero] at hpre
    exact (hpre.eq_of_length (by rw [List.length_map, hused])).symm

end

/-- With the parameters `c`, the operation run from `s` has, where it answers, consumed entries of which `Q`
holds. -/
def Result.Consumes {α : Type} (c : Config) (r : Result α) (s : State) (Q : α → AccessLog → Prop) : Prop :=
  s.cfg = c → r.Spec (fun a t => ∃ es, s.Consumed es t ∧ Q a es) fun _ _ => True

section
variable {α β : Type} {c : Config} {s : State}

theorem Result.Consumes.ok {Q : α → AccessLog → Prop} {a : α} (h : Q a []) :
    (Result.ok a s).Consumes c s Q := fun _ => ⟨[], .refl s, h⟩

theorem Result.Consumes.mono {r : Result α} {Q Q' : α → AccessLog → Prop} (h : r.Consumes c s Q)
    (hQ : ∀ a es, Q a es → Q' a es) : r.Consumes c s Q' :=
  fun hc => (h hc).mono (fun _ _ ⟨es, hes, hq⟩ => ⟨es, hes, hQ _ _ hq⟩) fun _ _ => id

theorem Result.Consumes.andThen {r : Result α} {k : α → State → Result β} {P : α → AccessLog → Prop}
    {Q : β → AccessLog → Prop} (h : r.Consumes c s P)
    (hk : ∀ a t es, P a es → (k a t).Consumes c t fun b es' => Q b (es ++ es')) :
    (r.andThen k).Consumes c s Q :=
  fun hc => (h hc).andThen fun a t ⟨es, hes, hp⟩ =>
    (hk a t es hp (hes.cfg.trans hc)).mono (fun _ _ ⟨es', hes', hq⟩ => ⟨es ++ es', hes.trans hes', hq⟩)
      fun _ _ => id

end

/-! ### The facade -/

section
variable (c : Config) (s : State)

theorem readCycle_consumes : (readCycle s).Consumes c s fun n es => es = [⟨c.posCycle, n, .read⟩] := by
  rintro rfl
  exact (readCycle_spec s).mono (fun _ _ ⟨ht, _, hl⟩ => ⟨_, .touch (touchReadCycle ..) ht hl, rfl⟩)
    fun _ _ _ => trivial

theorem readHalt_consumes : (readHalt s).Consumes c s fun halted es =>
    ∃ h, halted = (h != 0#64) ∧ es = [⟨c.posHalt, h, .read⟩] := by
  rintro rfl
  exact (readHalt_spec s).mono
    (fun _ _ ⟨h, hb, ht, _, hl⟩ => ⟨_, .touch (touchReadHalt ..) ht hl, h, hb, rfl⟩) fun _ _ _ => trivial

theorem readX_consumes (i : RegIdx) : (readX i s).Consumes c s fun b es =>
    ∃ v, b = regReadValue c i v ∧ es = [⟨c.posX[i], v, .read⟩] := by
  rintro rfl
  exact (readX_spec i s).mono
    (fun _ _ ⟨v, hb, ht, _, hl⟩ => ⟨_, .touch (touchReadX ..) ht hl, v, hb, rfl⟩) fun _ _ _ => trivial

theorem memRead_consumes (addr : Word) (n : Width) : (memRead addr n s).Consumes c s fun b es =>
    ∃ w, n.aligned addr = true ∧ b = n.extract addr w ∧ es = [⟨alignDown addr, w, .read⟩] := fun _ =>
  (memRead_spec addr n s).mono
    (fun _ _ ⟨w, hal, hb, ht, _, hl⟩ => ⟨_, .touch (touchReadWord ..) ht hl, w, hal, hb, rfl⟩)
    fun _ _ _ => trivial

/-- The read of the pc with the latch of the Step's own pc (R213). -/
theorem readPc_latch_consumes : ((readPc s).andThen fun pc u => .ok pc (u.setStepPc pc)).Consumes c s
    fun p es => es = [⟨c.posPc, p, .read⟩] := by
  rintro rfl
  refine ((readPc_spec s).mono (fun _ _ h => h) fun _ _ _ => trivial).andThen fun p t ⟨ht, _, hl⟩ => ?_
  have hp : s.Performs [touchReadPc s.cfg p] [] (t.setStepPc p) :=
    { ht ▸ State.Performs.touch hl with
      stepPc := fun hno => absurd (List.mem_singleton.mpr rfl) hno }
  exact ⟨_, ⟨_, hp, rfl⟩, rfl⟩

theorem writePc_consumes (v : Word) : (writePc v s).Consumes c s fun _ es =>
    es.map Access.key = [(.write, c.posPc)] := by
  rintro rfl
  exact (writePc_spec v s).mono (fun _ _ ⟨ht, hl⟩ => ⟨_, .touch (touchWritePc ..) ht hl, rfl⟩)
    fun _ _ _ => trivial

theorem writeCycle_consumes (v : Word) : (writeCycle v s).Consumes c s fun _ es =>
    es.map Access.key = [(.write, c.posCycle)] := by
  rintro rfl
  exact (writeCycle_spec v s).mono (fun _ _ ⟨ht, hl⟩ => ⟨_, .touch (touchWriteCycle ..) ht hl, rfl⟩)
    fun _ _ _ => trivial

/-- Kind and position of a register write: none for register 0 (40_verifier_facade.md R127). -/
def regWriteKeys (rd : RegIdx) : List (AccessKind × Word) :=
  (if rd = 0 then [] else [rd]).map fun r => (.write, c.posX[r])

theorem writeX_consumes (i : RegIdx) (v : Word) : (writeX i v s).Consumes c s fun _ es =>
    es.map Access.key = regWriteKeys c i := by
  by_cases hi : i = 0
  · subst hi
    exact .ok rfl
  · rintro rfl
    refine (writeX_spec i v s).mono (fun _ t ⟨ht, hl⟩ => ?_) fun _ _ _ => trivial
    rw [touchWriteX, State.writeReg, if_neg hi, if_neg hi] at ht
    refine ⟨_, .touch ⟨.writeRegister i v, s.cfg.posX[i], v, .write⟩ ht (hl hi), ?_⟩
    rw [regWriteKeys, if_neg hi]
    rfl

/-! ### The executors -/

/-- The entries of an executor that succeeded are the executor's row in R223's table. -/
def ExecutorFootprint (i : Instr) (es : AccessLog) : Prop :=
  ∃ a, es[0]?.map Access.value = some a ∧ es.map Access.key = executorShape c i a

variable {c}

/-- Only a load's row depends on the value of its first entry. -/
theorem executorFootprint_of_loadForm {i : Instr} {es : AccessLog} (hload : i.loadForm = none)
    (h : es.map Access.key = executorShape c i 0#64) : ExecutorFootprint c i es := by
  cases es with
  | nil => simp [executorShape] at h
  | cons e es => exact ⟨e.value, rfl, h.trans (by simp [executorShape, hload])⟩

variable (c)

theorem writeX_writePc_consumes (rd : RegIdx) (v : Word) (g : Word → Word) :
    ((writeX rd v s).andThen fun _ u => writePc (g u.stepPc) u).Consumes c s fun _ es =>
      es.map Access.key = regWriteKeys c rd ++ [(.write, c.posPc)] :=
  (writeX_consumes c s rd v).andThen fun _ t es hes =>
    (writePc_consumes c t _).mono fun _ es' hes' => by rw [List.map_append, hes, hes']

theorem branchIf_consumes (cond : Word → Word → Bool) (rs1 rs2 : RegIdx) (imm : Word) :
    (branchIf cond rs1 rs2 imm s).Consumes c s fun _ es => es.map Access.key =
      [(.read, c.posX[rs1]), (.read, c.posX[rs2]), (.write, c.posPc)] := by
  refine (readX_consumes c s rs1).andThen fun a t _ ⟨_, _, hes⟩ =>
    (readX_consumes c t rs2).andThen fun b u _ ⟨_, _, hes'⟩ => ?_
  subst hes hes'
  rw [branchEnd_eq_writePc]
  exact (writePc_consumes c u _).mono fun _ es hes => by simp [Access.key, hes]

theorem load_consumes (n : Width) (ext : Width → Word → Word) (rd rs1 : RegIdx) (imm : Word) :
    (load n ext rd rs1 imm s).Consumes c s fun _ es => ∃ a, es[0]?.map Access.value = some a ∧
      es.map Access.key = (.read, c.posX[rs1]) ::
        (.read, alignDown (effAddr (regReadValue c rs1 a) imm)) ::
        (regWriteKeys c rd ++ [(.write, c.posPc)]) := by
  refine (readX_consumes c s rs1).andThen fun b t _ ⟨a, hb, hes⟩ =>
    (memRead_consumes c t _ n).andThen fun w u _ ⟨_, _, _, hes'⟩ => ?_
  subst hb hes hes'
  exact (writeX_writePc_consumes c u rd _ nextPc).mono fun _ es hes =>
    ⟨a, rfl, by simp [Access.key, hes]⟩

theorem executor_consumes (i : Instr) : (executor i s).Consumes c s fun _ es => ExecutorFootprint c i es := by
  cases i with
  | lui rd imm => exact (writeX_writePc_consumes c s rd _ nextPc).mono fun _ _ h =>
      executorFootprint_of_loadForm rfl h
  | auipc rd imm => exact (writeX_writePc_consumes c s rd _ nextPc).mono fun _ _ h =>
      executorFootprint_of_loadForm rfl h
  | jal rd imm =>
    exact (writeX_writePc_consumes c s rd _ (pcRel · imm)).mono fun _ _ h =>
      executorFootprint_of_loadForm rfl h
  | jalr rd rs1 imm =>
    refine (readX_consumes c s rs1).andThen fun b t _ ⟨a, _, hes⟩ => ?_
    subst hes
    exact (writeX_writePc_consumes c t rd _ fun _ => jalrTarget b imm).mono fun _ es hes =>
      executorFootprint_of_loadForm rfl (congrArg (_ :: ·) hes)
  | beq rs1 rs2 imm | bne rs1 rs2 imm | blt rs1 rs2 imm | bge rs1 rs2 imm | bltu rs1 rs2 imm
  | bgeu rs1 rs2 imm =>
    exact (branchIf_consumes c s _ rs1 rs2 imm).mono fun _ _ h =>
      executorFootprint_of_loadForm rfl h
  | lb rd rs1 imm | lh rd rs1 imm | lw rd rs1 imm | lbu rd rs1 imm | lhu rd rs1 imm =>
    exact load_consumes c s _ _ rd rs1 imm

/-! ### The Step Controller -/

/-- The entries of a front that answers (R211 to R214). -/
inductive FrontFootprint : Front → AccessLog → Prop where
  | idle (n h : Word) (hidle : h ≠ 0#64 ∨ n = saturatedCycle) : FrontFootprint (.idle n (h != 0#64))
      [⟨c.posCycle, n, .read⟩, ⟨c.posHalt, h, .read⟩]
  | run (n p w : Word) (hn : n ≠ saturatedCycle) : FrontFootprint (.run n (instrWordAt p w))
      [⟨c.posCycle, n, .read⟩, ⟨c.posHalt, 0#64, .read⟩, ⟨c.posPc, p, .read⟩, ⟨alignDown p, w, .read⟩]

/-- The fetch with the latch as a part of the pc's read. -/
theorem fetch_eq_latch : fetch s = ((readPc s).andThen fun pc u => .ok pc (u.setStepPc pc)).andThen
    fun pc u => (memRead pc .word u).andThen fun w u => .ok (w.setWidth 32) u := by
  unfold fetch
  cases readPc s <;> rfl

theorem fetch_consumes : (fetch s).Consumes c s fun bits es =>
    ∃ p w, bits = instrWordAt p w ∧ es = [⟨c.posPc, p, .read⟩, ⟨alignDown p, w, .read⟩] := by
  rw [fetch_eq_latch]
  refine (readPc_latch_consumes c s).andThen fun p t _ hes =>
    (memRead_consumes c t p .word).andThen fun _ u _ ⟨w, hal, hw, hes'⟩ => ?_
  subst hes hw hes'
  exact .ok ⟨p, w, extract_word_eq_instrWordAt p w hal, rfl⟩

theorem front_consumes : (front s).Consumes c s (FrontFootprint c) := by
  refine (readCycle_consumes c s).andThen fun n t _ hes =>
    (readHalt_consumes c t).andThen fun halted u _ ⟨h, hh, hes'⟩ => ?_
  subst hes hh hes'
  by_cases h0 : h = 0#64
  · subst h0
    by_cases hn : n = saturatedCycle
    · rw [if_neg (by simp), if_pos hn]
      exact .ok (.idle n 0#64 (.inr hn))
    · rw [if_neg (by simp), if_neg hn]
      refine (fetch_consumes c u).andThen fun bits v _ ⟨p, w, hbits, hes⟩ => ?_
      subst hbits hes
      exact .ok (.run n p w hn)
  · rw [if_pos (by simpa using h0)]
    have hidle := FrontFootprint.idle (c := c) n h (.inl h0)
    rw [bne_iff_ne.mpr h0] at hidle
    exact .ok hidle

/-- The entries of a Step that succeeded, a row of R223's table. -/
inductive StepFootprint : AccessLog → Prop where
  | idle (n h : Word) (hidle : h ≠ 0#64 ∨ n = saturatedCycle) :
      StepFootprint [⟨c.posCycle, n, .read⟩, ⟨c.posHalt, h, .read⟩]
  | run (n p w : Word) (i : Instr) (es es' : AccessLog) (hn : n ≠ saturatedCycle)
      (hdec : decode (instrWordAt p w) = .ok i) (hes : ExecutorFootprint c i es)
      (hes' : es'.map Access.key = [(.write, c.posCycle)]) :
      StepFootprint ([⟨c.posCycle, n, .read⟩, ⟨c.posHalt, 0#64, .read⟩, ⟨c.posPc, p, .read⟩,
        ⟨alignDown p, w, .read⟩] ++ (es ++ es'))

theorem stepBody_consumes : (stepBody s).Consumes c s fun _ es => StepFootprint c es := by
  refine (front_consumes c s).andThen fun f t es hes => ?_
  cases hes with
  | idle n h hidle => exact .ok (.idle n h hidle)
  | run n p w hn =>
    dsimp only [dispatch]
    cases hdec : decode (instrWordAt p w) with
    | error _ => exact fun _ => trivial
    | ok i =>
      exact (executor_consumes c t i).andThen fun _ u es hes => (writeCycle_consumes c u _).andThen
        fun _ _ es' hes' => .ok (by simpa using StepFootprint.run n p w i es es' hn hdec hes hes')

end

theorem State.used_of_succeeded_conclude {s : State} {c : Word} {halted : Bool}
    (h : (s.conclude c halted).succeeded = true) : s.cursor = s.log.length := by
  by_contra hleft
  rw [State.conclude_of_left_over _ _ hleft] at h
  cases h

/-- What a successful Step consumed is its whole log. -/
theorem stepFootprint_of_succeeded {s t : State} (h : step s = .next t) (hok : t.succeeded = true) :
    StepFootprint t.cfg t.log := by
  obtain ⟨u, hu, rfl⟩ := step_next_endStep h
  have hbegin := State.begins_of_beginStep hu
  have hbody := stepBody_consumes u.cfg u rfl
  cases hb : stepBody u with
  | raised e v =>
    rw [hb] at hok
    cases hok
  | ok r v =>
    rw [hb] at hok hbody
    obtain ⟨es, hes, hfoot⟩ := hbody
    have hlog := hes.log_eq hbegin.cursor hbegin.log (State.used_of_succeeded_conclude hok)
    simpa [Result.endStep, hlog, hes.cfg] using hfoot

/-- Settles O44: the log is a row of the footprint table, and the values of its first two entries tell
whether the Step was a no-op. -/
theorem footprintOfASuccessfulStep : Obligations.FootprintOfASuccessfulStep := by
  intro s t h hok
  have hfoot := stepFootprint_of_succeeded h hok
  generalize t.log = l at hfoot ⊢
  cases hfoot with
  | idle n h hidle =>
    refine ⟨n, h, rfl, rfl, fun _ => rfl, fun h0 hn => ?_⟩
    exact absurd hidle (by simp [h0, hn])
  | run n p w i es es' hn hdec hes hes' =>
    obtain ⟨a, ha, hkeys⟩ := hes
    refine ⟨n, 0#64, rfl, rfl, fun hidle => absurd hidle (by simp [hn]), fun _ _ =>
      ⟨p, w, a, i, rfl, rfl, ?_, hdec, ?_⟩⟩
    · cases es with
      | nil => cases ha
      | cons e es => exact ha
    · change List.map Access.key (_ ++ (es ++ es')) = _
      rw [List.map_append, List.map_append, hkeys, hes']
      rfl

end Sys2Proof.Machine
end

section
/-!
Two runs of the whole Step (45_step_controller.md R224, R226): of two states that claim the same log, and of an
honest caller's Step against its own recorded log put as a claim.
-/

namespace Sys2Proof.Machine

/-! ### The outcome is a function of the log (R226) -/

/-- Two states that agree on all that decides a Step against a claimed log: the slot parameters, the log side,
the Step's own pc and the operations issued so far. Their stores may differ. -/
structure SameLogSide (s s' : State) : Prop where
  position : ∀ sl, s'.cfg.position sl = s.cfg.position sl
  x0Read : s'.cfg.x0Read = s.cfg.x0Read
  claimed : ∃ q q', s.caller = .claims q ∧ s'.caller = .claims q'
  log : s'.log = s.log
  cursor : s'.cursor = s.cursor
  stepPc : s'.stepPc = s.stepPc
  trace : s'.trace = s.trace

section
variable {s s' : State}

theorem SameLogSide.issue (h : SameLogSide s s') (op : ProviderOp) :
    SameLogSide (s.issue op) (s'.issue op) :=
  { h with trace := by simp [h.trace] }

theorem SameLogSide.stored (h : SameLogSide s s') (op : ProviderOp) :
    SameLogSide (s.stored op) (s'.stored op) where
  position := by simpa using h.position
  x0Read := by simpa using h.x0Read
  claimed := by simpa using h.claimed
  log := by simpa using h.log
  cursor := by simpa using h.cursor
  stepPc := by simpa using h.stepPc
  trace := by simpa using h.trace

theorem SameLogSide.consumed (h : SameLogSide s s') : SameLogSide s.consumed s'.consumed :=
  { h with cursor := by simp [h.cursor] }

theorem SameLogSide.consumeRead (h : SameLogSide s s') (pos answer answer' : Word) :
    (Machine.consumeRead pos answer s).Matches (fun _ => True) SameLogSide
      (Machine.consumeRead pos answer' s') := by
  obtain ⟨q, q', hq, hq'⟩ := h.claimed
  simp only [Machine.consumeRead, hq, hq', h.log, h.cursor]
  cases s.log[s.cursor]? with
  | none => exact fun _ => ⟨s', rfl, h⟩
  | some e =>
    dsimp only
    split_ifs
    · exact fun _ => ⟨s', rfl, h⟩
    · exact fun _ => ⟨s', rfl, h⟩
    · exact fun _ => ⟨_, rfl, h.consumed⟩

theorem SameLogSide.consumeWrite (h : SameLogSide s s') (pos v : Word) :
    (Machine.consumeWrite pos v s).Matches (fun _ => True) SameLogSide
      (Machine.consumeWrite pos v s') := by
  obtain ⟨q, q', hq, hq'⟩ := h.claimed
  simp only [Machine.consumeWrite, hq, hq', h.log, h.cursor]
  cases s.log[s.cursor]? with
  | none => exact fun _ => ⟨s', rfl, h⟩
  | some e =>
    dsimp only
    split_ifs
    · exact fun _ => ⟨s', rfl, h⟩
    · exact fun _ => ⟨s', rfl, h⟩
    · exact fun _ => ⟨s', rfl, h⟩
    · exact fun _ => ⟨_, rfl, h.consumed⟩

end

theorem sameLogSide_matchedByOps : MatchedByOps (fun _ => True) SameLogSide where
  leaves := {
    touched := fun _ _ => id
    issue := fun _ _ => id
    setReg := fun _ _ _ _ => id
    setPc := fun _ _ => id
    setCycle := fun _ _ => id
    setStepPc := fun _ _ => id
    finish := fun _ _ => id }
  x0Read := fun _ _ h => h.x0Read
  stepPc := fun _ _ h => h.stepPc
  setStepPc := fun _ _ _ h => { h with stepPc := rfl }
  readSlot := fun _ _ op sl h _ => h.position sl ▸ (h.issue op).consumeRead _ _ _
  readWord := fun _ _ a h => (h.issue (.readWord a)).consumeRead _ _ _
  writeSlot := fun _ _ op sl _ h _ => h.position sl ▸ ((h.issue op).stored op).consumeWrite _ _

/-- The end of a Step reads the log side only. -/
theorem SameLogSide.conclude_result {s s' : State} (h : SameLogSide s s') (c : Word) (halted : Bool) :
    (s.conclude c halted).result = (s'.conclude c halted).result := by
  simp only [State.conclude_eq, State.finish_result, h.log, h.cursor]

/-- Settles O45: the two Steps begin with the same log side, and every operation they are made of keeps it the
same. -/
theorem outcomeIsAFunctionOfTheLog : Obligations.OutcomeIsAFunctionOfTheLog := by
  intro s s' l q q' hpos hx0 hc hc'
  obtain ⟨u, u', hu, hu', hR⟩ : ∃ u u', s.beginStep = some u ∧ s'.beginStep = some u' ∧
      SameLogSide u u' := by
    simp only [State.beginStep, hc, hc']
    exact ⟨_, _, rfl, rfl, fun sl => (hpos sl).symm, hx0.symm, ⟨q, q', rfl, rfl⟩, rfl, rfl, rfl, rfl⟩
  refine ⟨_, _, step_eq_endStep hu (State.result_of_beginStep hu),
    step_eq_endStep hu' (State.result_of_beginStep hu'), ?_⟩
  have hm := StepOp.stepBody.matched sameLogSide_matchedByOps hR
  cases hb : stepBody u with
  | ok r v =>
    rw [hb] at hm
    obtain ⟨v', hb', hv⟩ := hm trivial
    rw [hb']
    refine ⟨hv.conclude_result _ _, ?_, ?_⟩
    · simp only [Result.endStep, State.conclude_cursor, hv.cursor]
    · simp only [Result.endStep, State.conclude_trace, hv.trace]
  | raised e v =>
    rw [hb] at hm
    obtain ⟨v', hb', hv⟩ := hm trivial
    rw [hb']
    exact ⟨rfl, hv.cursor.symm, hv.trace.symm⟩

/-! ### An honest Step against its own recorded log (R224) -/

/-- The state with `l` claimed where the caller was honest, `q` being the requests after this one. -/
def State.asClaim (s : State) (q : List AccessLog) (l : AccessLog) : State :=
  { s with caller := .claims q, log := l }

/-- `s'` has the store and the cursor of `s`, which records an honest log, and verifies the log `l`. -/
structure Replays (q : List AccessLog) (l : AccessLog) (s s' : State) : Prop where
  recording : s.Recording
  eq : s' = s.asClaim q l

section
variable {q : List AccessLog} {l : AccessLog} {s s' : State}

/-- Updates of the cells outside the log side keep the agreement. -/
theorem Replays.map (h : Replays q l s s') {f : State → State} (hcaller : (f s).caller = s.caller)
    (hcur : (f s).cursor = s.cursor) (hlog : (f s).log = s.log)
    (hclaim : f (s.asClaim q l) = (f s).asClaim q l) : Replays q l (f s) (f s') :=
  ⟨⟨hcaller.trans h.recording.1, by rw [hcur, hlog, h.recording.2]⟩, h.eq ▸ hclaim⟩

/-- What one side records the other finds at its cursor, as long as the record is a part of the claim. -/
theorem Replays.record (h : Replays q l s s') {e : Access} (hl : (s.record e).log <+: l) :
    s'.caller = .claims q ∧ s'.log[s'.cursor]? = some e ∧ Replays q l (s.record e) s'.consumed := by
  obtain ⟨⟨hcaller, hcur⟩, rfl⟩ := h
  obtain ⟨rest, rfl⟩ := hl
  refine ⟨rfl, ?_, ⟨hcaller, by simp [hcur]⟩, rfl⟩
  simp [State.asClaim, hcur]

theorem Replays.consumeRead (h : Replays q l s s') (pos answer : Word) :
    (Machine.consumeRead pos answer s).Matches (·.log <+: l) (Replays q l)
      (Machine.consumeRead pos answer s') := by
  simp only [Machine.consumeRead, h.recording.1]
  intro hl
  obtain ⟨hq, hentry, hR⟩ := h.record hl
  exact ⟨s'.consumed, by simp [hq, hentry], hR⟩

theorem Replays.consumeWrite (h : Replays q l s s') (pos v : Word) :
    (Machine.consumeWrite pos v s).Matches (·.log <+: l) (Replays q l)
      (Machine.consumeWrite pos v s') := by
  simp only [Machine.consumeWrite, h.recording.1]
  intro hl
  obtain ⟨hq, hentry, hR⟩ := h.record hl
  exact ⟨s'.consumed, by simp [hq, hentry], hR⟩

end

theorem replays_matchedByOps (q : List AccessLog) (l : AccessLog) :
    MatchedByOps (·.log <+: l) (Replays q l) where
  leaves := {
    touched := fun s ts hs h => by
      rw [State.touched_log] at h
      split at h
      · exact hs ((List.prefix_append _ _).trans h)
      · exact hs h
    issue := fun _ _ => id
    setReg := fun _ _ _ _ => id
    setPc := fun _ _ => id
    setCycle := fun _ _ => id
    setStepPc := fun _ _ => id
    finish := fun _ _ => id }
  x0Read := fun _ _ h => by rw [h.eq]; rfl
  stepPc := fun _ _ h => by rw [h.eq]; rfl
  setStepPc := fun _ _ v h => h.map (f := (·.setStepPc v)) rfl rfl rfl rfl
  readSlot := fun s s' op sl h _ => by
    have hword : s'.slotWord sl = s.slotWord sl := by rw [h.eq]; cases sl <;> rfl
    have hcfg : s'.cfg = s.cfg := by rw [h.eq]; rfl
    rw [hword, hcfg]
    exact (h.map (f := (·.issue op)) rfl rfl rfl rfl).consumeRead _ _
  readWord := fun s s' a h => by
    have hword : s'.storeWord a = s.storeWord a := by rw [h.eq]; rfl
    unfold Machine.readWord
    rw [hword]
    exact (h.map (f := (·.issue (.readWord a))) rfl rfl rfl rfl).consumeRead _ _
  writeSlot := fun s s' op sl v h _ => by
    have hcfg : s'.cfg = s.cfg := by rw [h.eq]; rfl
    rw [hcfg]
    exact (h.map (f := fun u => (u.issue op).stored op) (by simp) (by simp) (by simp)
      (by cases op <;> rfl)).consumeWrite _ _

/-- Settles O47: run beside the honest Step, the claim finds each recorded entry at its cursor, and at the end
nothing is left over unless the Step failed. -/
theorem honestLogIsAccepted : Obligations.HonestLogIsAccepted := by
  intro s t q extra hc h hextra
  obtain ⟨u, hu, hres, hR, hu'⟩ : ∃ u, s.beginStep = some u ∧ u.result = none ∧
      (∀ l, Replays q l u (u.asClaim q l)) ∧
      ∀ l, State.beginStep { s with caller := .claims (l :: q) } = some (u.asClaim q l) := by
    simp only [State.beginStep, hc]
    exact ⟨_, rfl, rfl, fun _ => ⟨⟨rfl, rfl⟩, rfl⟩, fun _ => rfl⟩
  rw [step_eq_endStep hu hres] at h
  obtain rfl : (stepBody u).endStep = t := by simpa using h
  rw [step_eq_endStep (hu' _) hres]
  have hm := StepOp.stepBody.matched (replays_matchedByOps q ((stepBody u).endStep.log ++ extra)) (hR _)
  cases hb : stepBody u with
  | raised e v =>
    rw [hb] at hm
    obtain ⟨v', hv', hRv⟩ := hm (List.prefix_append _ _)
    rw [hv', hRv.eq]
    rfl
  | ok r v =>
    obtain ⟨c, halted⟩ := r
    rw [hb] at hm hextra
    simp only [Result.endStep, State.conclude_log] at hm hextra ⊢
    obtain ⟨v', hv', hRv⟩ := hm (List.prefix_append _ _)
    rw [State.conclude_of_used _ _ hRv.recording.2] at hextra ⊢
    obtain rfl := hextra rfl
    simp only [List.append_nil] at hv' hRv ⊢
    rw [hv', hRv.eq]
    exact congrArg _ (State.conclude_of_used (s := v.asClaim q v.log) c halted hRv.recording.2)

end Sys2Proof.Machine
end

section
/-!
Errors and exceptions (60_exceptions.md R241, R250, R259): a write the log refuses has reached the store, what the
store and the provider trace hold at the end of any Step, and what the cycle counter counts.
-/

namespace Sys2Proof.Machine

/-! ### A write the log refuses (R241, R259) -/

section
variable {s : State} {v : Word} {q : List AccessLog} {e : StepError}

theorem writeX_of_rejects {i : RegIdx} (hc : s.caller = .claims q) (hi : i ≠ 0)
    (h : s.rejectsWrite s.cfg.posX[i] v e) :
    writeX i v s = .raised e ((s.issue (.writeRegister i v)).setReg i v) := by
  rw [writeX, if_neg hi]
  exact consumeWrite_of_rejects (u := (s.issue (.writeRegister i v)).setReg i v) hc h

theorem writePc_of_rejects (hc : s.caller = .claims q) (h : s.rejectsWrite s.cfg.posPc v e) :
    writePc v s = .raised e ((s.issue (.writePc v)).setPc v) :=
  consumeWrite_of_rejects (u := (s.issue (.writePc v)).setPc v) hc h

theorem writeCycle_of_rejects (hc : s.caller = .claims q) (h : s.rejectsWrite s.cfg.posCycle v e) :
    writeCycle v s = .raised e ((s.issue (.writeCycle v)).setCycle v) :=
  consumeWrite_of_rejects (u := (s.issue (.writeCycle v)).setCycle v) hc h

end

/-- Settles O49: the provider operation of either write comes before the log is consulted, and the Step ends on
the state that the refused cycle write left. -/
theorem rejectedPcAndCycleWritesStay : Obligations.RejectedPcAndCycleWritesStay := by
  intro v c q e s hc
  refine ⟨writePc_of_rejects hc, writeCycle_of_rejects hc, fun h => ?_⟩
  rw [retire, writeCycle_of_rejects hc h]

/-- An executor that, its earlier accesses let through, goes on with the write of its destination. -/
theorem rejectedAfter_of_executor {i : Instr} {ts : List Touch} {rd : RegIdx} {v : Word} {s : State}
    (k : Unit → State → Result Unit)
    (h : s.admits ts = true → executor i s = (writeX rd v (s.touched ts)).andThen k) :
    RejectedAfter i ts rd v s := by
  intro q e hc hrd ha hrej
  rw [exec_eq_settle, h ha, writeX_of_rejects (s := s.touched ts) hc hrd hrej, Result.raised_andThen,
    Result.settle_raised]

/-- The register write of LUI, AUIPC and JAL is their first access. -/
theorem rejectedAfter_of_executor_first {i : Instr} {rd : RegIdx} {v : Word} {s : State}
    (k : Unit → State → Result Unit) (h : executor i s = (writeX rd v s).andThen k) :
    RejectedAfter i [] rd v s :=
  rejectedAfter_of_executor k fun _ => by rw [State.touched_nil, h]

theorem rejectedAfter_jalr (rd rs1 : RegIdx) (imm a : Word) (s : State) :
    RejectedAfter (.jalr rd rs1 imm) [touchReadX s.cfg rs1 a] rd (s.stepPc + 4#64) s :=
  rejectedAfter_of_executor (fun _ u => branchTo (jalrTarget (regReadValue s.cfg rs1 a) imm) u) fun ha => by
    rw [executor, readX_of_admits ha]
    rfl

theorem rejectedLoad_of_executor {mk : RegIdx → RegIdx → Word → Instr} {n : Width}
    {ext : Width → Word → Word} {signed : Bool}
    (hmk : ∀ rd rs1 imm, executor (mk rd rs1 imm) = load n ext rd rs1 imm)
    (hext : ∀ {addr} w, n.aligned addr = true → ext n (n.extract addr w) = loadedWord n signed addr w) :
    RejectedLoad mk n signed := by
  intro rd rs1 imm a w addr s haddr hmod
  have hal : n.aligned addr = true := (n.aligned_iff addr).mpr hmod
  refine rejectedAfter_of_executor (fun _ u => advancePc u) fun ha => ?_
  rw [hmk, load_of_admits_reads haddr hal ha, hext w hal]

/-- Settles O24: in the facade by the order of its two calls, and in each executor as its register write follows
only accesses that were let through. -/
theorem rejectedRegisterWriteStays : Obligations.RejectedRegisterWriteStays :=
  ⟨fun _ _ _ _ _ hc hi h => writeX_of_rejects hc hi h,
    fun rd rs1 imm a s =>
      ⟨rejectedAfter_of_executor_first (fun _ u => advancePc u) rfl,
        rejectedAfter_of_executor_first (fun _ u => advancePc u) rfl,
        rejectedAfter_of_executor_first (fun _ u => branchTo (pcRel u.stepPc imm) u) rfl,
        rejectedAfter_jalr rd rs1 imm a s⟩,
    rejectedLoad_of_executor (fun _ _ _ => rfl) extSigned_extract,
    rejectedLoad_of_executor (fun _ _ _ => rfl) extSigned_extract,
    rejectedLoad_of_executor (fun _ _ _ => rfl) extSigned_extract,
    rejectedLoad_of_executor (fun _ _ _ => rfl) extUnsigned_extract,
    rejectedLoad_of_executor (fun _ _ _ => rfl) extUnsigned_extract,
    afterExec_raise⟩

/-! ### Provider operations and the cursor (R259, R130) -/

/-- One provider operation for each consumed entry, and one more for the access that an error of the verifier
is about. -/
theorem StepOp.trace_length {α : Type} {op : State → Result α} (hop : StepOp op) {s : State}
    (hs : s.trace.length = s.cursor) :
    (op s).Spec (fun _ t => t.trace.length = t.cursor)
      (fun e t => t.trace.length = if e.index = none then t.cursor else t.cursor + 1) := by
  induction hop generalizing s with
  | readSlot _ =>
    exact (consumeRead_spec _ _ _ s).mono (fun _ _ ⟨ht, _⟩ => by simp [ht, hs])
      fun _ _ ⟨ht, hi, _⟩ => by simp [ht, hi, hs]
  | readWord a =>
    exact (readWord_spec a s).mono (fun _ _ ⟨ht, _⟩ => by simp [ht, hs])
      fun _ _ ⟨ht, hi, _⟩ => by simp [ht, hi, hs]
  | writeSlot _ _ =>
    exact (consumeWrite_stored_spec _ _ _ s).mono (fun _ _ ht => by simp [ht, hs])
      fun _ _ ⟨ht, hi, _⟩ => by simp [ht, hi, hs]
  | value | regValue | stepPc | latchPc => exact hs
  | raise h => exact hs.trans (if_pos (StepError.index_of_state h)).symm
  | andThen _ _ ih ihk => exact (ih hs).andThen fun a _ ht => ihk a ht

/-- The operations a Step issued are at the first of some instruction's sites, and lead from the slots it began
with to those it leaves. -/
theorem step_trace {s t : State} (h : step s = .next t) :
    ∃ i, sites t.trace <+: stepSites i ∧ t.slotWord = t.trace.foldl slotsAfter s.slotWord := by
  obtain ⟨u, i, hu, ts, refused, -, hp, hsites⟩ := step_begins_ended h
  have htrace : t.trace = ts.map Touch.op ++ refused := by rw [hp.trace, hu.trace, List.nil_append]
  rw [← htrace] at hsites
  exact ⟨i, hsites, by rw [hp.slots, hu.slots, htrace]⟩

/-- Settles O42: a Step begins with no operation issued and no entry consumed, its end issues nothing and
reports no index, and its sites are none of the writes that are never issued. -/
theorem providerOperationsMatchTheCursor : Obligations.ProviderOperationsMatchTheCursor := by
  intro s t h
  obtain ⟨i, hsites, -⟩ := step_trace h
  have hnever : ∀ op ∈ t.trace, op.neverIssued = false := fun op hop =>
    neverIssued_of_site_mem_stepSites (hsites.subset (List.mem_map_of_mem hop))
  obtain ⟨u, hu, rfl⟩ := step_next_endStep h
  have hbegin := State.begins_of_beginStep hu
  have hlen := StepOp.stepBody.trace_length (s := u) (by rw [hbegin.trace, hbegin.cursor, List.length_nil])
  cases hb : stepBody u with
  | ok r v =>
    rw [hb] at hlen hnever
    refine ⟨fun c halted _ => ?_, fun e hr => ?_, hnever⟩
    · simpa [Result.endStep] using hlen
    · rw [if_pos (State.conclude_index hr)]
      simpa [Result.endStep] using hlen
  | raised e v =>
    rw [hb] at hlen hnever
    refine ⟨fun c halted hr => ?_, fun e' hr => ?_, hnever⟩
    · simp [Result.endStep] at hr
    · obtain rfl : e = e' := by simpa [Result.endStep] using hr
      exact hlen

/-! ### The store at the end of a Step (R241, R250, R259) -/

theorem ProviderOp.site_eq_write_iff (op : ProviderOp) (sl : Slot) :
    op.site = (.write, some sl) ↔ ∃ v, op.slotWrite = some (sl, v) := by
  cases op <;> simp [ProviderOp.site, ProviderOp.slotWrite]

/-- A slot that is written once holds the word written. -/
theorem foldl_slotsAfter_of_mem {ops : List ProviderOp} {op : ProviderOp} {sl : Slot} {v : Word}
    (f : Slot → Word) (hop : op ∈ ops) (hw : op.slotWrite = some (sl, v))
    (honce : (sites ops).count (.write, some sl) ≤ 1) : ops.foldl slotsAfter f sl = v := by
  obtain ⟨before, after, rfl⟩ := List.append_of_mem hop
  have hsite : op.site = (.write, some sl) := (op.site_eq_write_iff sl).mpr ⟨v, hw⟩
  have hafter : (.write, some sl) ∉ sites after := by
    rw [← List.count_eq_zero]
    simp only [sites, List.map_append, List.map_cons, List.count_append, hsite,
      List.count_cons_self] at honce ⊢
    omega
  rw [List.foldl_append, List.foldl_cons, foldl_slotsAfter_of_not_mem after _ hafter, slotsAfter, hw]
  exact Function.update_self ..

/-- The writes of a Step: its destination, the pc and the cycle, in this order (45_step_controller.md R223). -/
theorem filter_write_stepSites (i : Instr) : (stepSites i).filter (fun x => x.1 = .write)
    = i.written.map (fun rd => (.write, some (.x rd))) ++ [(.write, some .pc), (.write, some .cycle)] := by
  unfold stepSites frontSites executorSites bodySites
  split <;> simp [List.filter_map, Function.comp_def]

theorem written_eq_nil_or_singleton (i : Instr) : i.written = [] ∨ ∃ rd, i.written = [rd] := by
  unfold Instr.written
  split
  · split
    · exact .inl rfl
    · exact .inr ⟨_, rfl⟩
  · exact .inl rfl

/-- A Step writes each slot at most once. -/
theorem count_write_stepSites_le_one (i : Instr) (sl : Slot) :
    (stepSites i).count (.write, some sl) ≤ 1 := by
  have hnodup : ((stepSites i).filter fun x => x.1 = .write).Nodup := by
    rw [filter_write_stepSites]
    rcases written_eq_nil_or_singleton i with h | ⟨rd, h⟩ <;> simp [h]
  rw [← List.count_filter (p := fun x => x.1 = .write) (by simp)]
  exact List.nodup_iff_count_le_one.mp hnodup _

/-- At the end of a Step a slot holds the word of the write that was issued of it, and the word it had before if
none was. -/
theorem step_slotWord {s t : State} (h : step s = .next t) {sl : Slot} {mk : Word → ProviderOp}
    (hmk : ∀ op v, op.slotWrite = some (sl, v) ↔ op = mk v) :
    (∀ v, mk v ∈ t.trace → t.slotWord sl = v) ∧
    ((∀ v, mk v ∉ t.trace) → t.slotWord sl = s.slotWord sl) := by
  obtain ⟨i, hsites, hslots⟩ := step_trace h
  rw [hslots]
  refine ⟨fun v hv => ?_, fun hno => ?_⟩
  · exact foldl_slotsAfter_of_mem _ hv ((hmk _ v).mpr rfl)
      ((hsites.sublist.count_le _).trans (count_write_stepSites_le_one i sl))
  · refine foldl_slotsAfter_of_not_mem _ _ fun hmem => ?_
    obtain ⟨op, hop, hsite⟩ := List.mem_map.mp hmem
    obtain ⟨v, hw⟩ := (op.site_eq_write_iff sl).mp hsite
    exact hno v ((hmk op v).mp hw ▸ hop)

theorem slotWrite_eq_x_iff (r : RegIdx) (op : ProviderOp) (v : Word) :
    op.slotWrite = some (.x r, v) ↔ op = .writeRegister r v := by
  cases op <;> simp [ProviderOp.slotWrite]

theorem slotWrite_eq_pc_iff (op : ProviderOp) (v : Word) :
    op.slotWrite = some (.pc, v) ↔ op = .writePc v := by
  cases op <;> simp [ProviderOp.slotWrite]

theorem slotWrite_eq_cycle_iff (op : ProviderOp) (v : Word) :
    op.slotWrite = some (.cycle, v) ↔ op = .writeCycle v := by
  cases op <;> simp [ProviderOp.slotWrite]

/-- Settles O50: what a slot holds at the end of a Step, for each register, for the pc and for the cycle. -/
theorem issuedWritesAreInTheStore : Obligations.IssuedWritesAreInTheStore := by
  intro s t h
  have hx := fun r => step_slotWord h (slotWrite_eq_x_iff r)
  obtain ⟨hpcIssued, hpcKept⟩ := step_slotWord h slotWrite_eq_pc_iff
  obtain ⟨hcycleIssued, hcycleKept⟩ := step_slotWord h slotWrite_eq_cycle_iff
  exact ⟨fun r => (hx r).1, fun r => (hx r).2, hpcIssued, hpcKept, hcycleIssued, hcycleKept⟩

/-! ### What the cycle counter counts (R254) -/

/-- Equal slots are equal in the cycle counter, the pc and every register. -/
theorem State.cells_of_slotWord {s t : State} (h : t.slotWord = s.slotWord) :
    t.cycle = s.cycle ∧ t.pc = s.pc ∧ t.regs = s.regs :=
  ⟨congrFun h .cycle, congrFun h .pc, Vector.ext fun r hr => congrFun h (.x ⟨r, hr⟩)⟩

/-- The front of a Step writes no slot. -/
theorem State.Ended.slotWord_of_frontSites {s t : State} (h : s.Ended frontSites t) :
    t.slotWord = s.slotWord :=
  funext fun _ => h.slotWord (by simp [frontSites])

/-- A load that an alignment check fails has only read (R195). -/
theorem slotWord_of_exec_misaligned {i : Instr} {n : Width} {rs1 : RegIdx} {imm : Word} {s t : State}
    (hs : s.caller = .honest) (hform : i.loadForm = some (n, rs1, imm))
    (hal : n.aligned (s.loadAddr rs1 imm) ≠ true) (h : exec i s = .next t) : t.slotWord = s.slotWord := by
  obtain ⟨ext, rd, hload⟩ := executor_eq_load_of_loadForm hform
  have hread : s.admits [touchReadX s.cfg rs1 s.regs[rs1]] = true :=
    (State.admits_honest_iff hs).mpr (by simp [touchReadX, State.answer])
  rw [exec_eq_settle, hload, load_misaligned hal hread] at h
  cases h
  rfl

/-- Which Step an honest caller's front decides on (R212). -/
def Front.DecidedBy (s : State) : Front → Prop
  | .idle _ _ => s.halt ≠ 0#64 ∨ s.cycle = saturatedCycle
  | .run c _ => s.halt = 0#64 ∧ s.cycle ≠ saturatedCycle ∧ c = s.cycle

theorem front_decidedBy {s : State} (hs : s.caller = .honest) :
    (front s).Spec (fun f _ => f.DecidedBy s) fun _ _ => True := by
  have hcontrol : s.admits [touchReadCycle s.cfg s.cycle, touchReadHalt s.cfg s.halt] = true :=
    State.admits_take_frontTouches hs rfl 2
  rw [(front_of_admits hcontrol).1]
  dsimp only
  split
  · next hh => exact .inl hh
  · next hh =>
    split
    · next hc => exact .inr hc
    · next hc =>
      refine Result.Spec.andThen (P := fun _ _ => True) ?_ fun bits u _ => ⟨not_not.mp hh, hc, rfl⟩
      cases fetch _ <;> trivial

theorem retire_of_recording {s : State} (hs : s.Recording) (c : Word) :
    (retire c s).cycle = c + 1#64 ∧ (retire c s).result = some (.ok (c + 1#64) false) := by
  have hkept : ((s.touched [touchWriteCycle s.cfg (c + 1#64)]).setCycle (c + 1#64)).Recording :=
    State.recording_keptByOps.touched s _ hs
  rw [retire_of_admits ((State.admits_honest_iff hs.1).mpr (by simp [touchWriteCycle, State.answer])),
    State.conclude_of_used _ _ hkept.2]
  exact ⟨rfl, rfl⟩

/-- A Step of an honest caller either counts one, running and successful, or leaves every slot as it was. -/
inductive CountsOrKeeps (s t : State) : Prop where
  | counts (hhalt : s.halt = 0#64) (hcycle : s.cycle ≠ saturatedCycle) (ht : t.cycle = s.cycle + 1#64)
      (hr : t.result = some (.ok t.cycle false))
  | keeps (hslots : t.slotWord = s.slotWord)
      (hstop : s.halt ≠ 0#64 ∨ s.cycle = saturatedCycle ∨ t.succeeded = false)

theorem StepEnd.countsOrKeeps {s t : State} (h : StepEnd s t) (hs : s.Recording) (hr : s.result = none) :
    CountsOrKeeps s t := by
  have hdecided := front_decidedBy hs.1
  have haccesses := front_accesses s
  cases h with
  | frontRaised e v hf ht =>
    subst ht
    exact .keeps (haccesses.of_raised hf).slotWord_of_frontSites (.inr (.inr rfl))
  | idle c halted v hf ht =>
    rw [hf] at hdecided
    have hend := ((haccesses.of_ok hf).ended.mono (Front.sites_prefix _)).conclude c halted
    exact .keeps (ht ▸ hend.slotWord_of_frontSites) (or_assoc.mp (.inl hdecided))
  | unsupported c bits v _ hf _ ht =>
    subst ht
    exact .keeps (haccesses.of_ok hf).ended.slotWord_of_frontSites (.inr (.inr rfl))
  | executed c bits v i w hf _ hexec ht =>
    rw [hf] at hdecided
    obtain ⟨hhalt, hcycle, rfl⟩ := hdecided
    have hv : v.Recording := (State.recording_keptByOps.front hs).of_ok hf
    have hvr : v.result = none := by
      have hspec := StepOp.front.spec s
      rw [hf] at hspec
      exact Eq.trans hspec hr
    rcases exec_of_recording (i := i) hv hvr with ⟨w', hw', hrec, hres⟩ | ⟨n, rs1, imm, w', hform, hal, hw'⟩
    · obtain rfl : w' = w := Host.Outcome.next.inj (hw'.symm.trans hexec)
      obtain ⟨hnext, hok⟩ := retire_of_recording hrec s.cycle
      rw [hres, Option.isNone_none, if_pos rfl] at ht
      subst ht
      exact .counts hhalt hcycle hnext (hnext ▸ hok)
    · obtain rfl : w'.raise _ = w := Host.Outcome.next.inj (hw'.symm.trans hexec)
      rw [State.raise_result, Option.isNone_some, if_neg Bool.false_ne_true] at ht
      subst ht
      have hfront := (haccesses.of_ok hf).ended.slotWord_of_frontSites
      exact .keeps ((slotWord_of_exec_misaligned hv.1 hform hal hexec).trans hfront) (.inr (.inr rfl))

/-- Settles O40: of the two kinds of Steps in `CountsOrKeeps`, only the first is running and successful, and
below the sentinel its count does not wrap. -/
theorem cycleCountsRunningSteps : Obligations.CycleCountsRunningSteps := by
  intro s t hs h
  obtain ⟨u, hu, hend⟩ := step_next_cases h
  have hbegin := State.begins_of_beginStep hu
  obtain ⟨hcycle, -, -⟩ := State.cells_of_slotWord hbegin.slots
  have hhalt : u.halt = s.halt := congrFun hbegin.slots .halt
  have hrec : u.Recording := by
    simp only [State.beginStep, hs] at hu
    cases hu
    exact ⟨rfl, rfl⟩
  cases hend.countsOrKeeps hrec (State.result_of_beginStep hu) with
  | counts h0 hc ht hr =>
    rw [hhalt] at h0
    rw [hcycle] at hc ht
    refine ⟨fun _ _ _ => ⟨?_, hr⟩, fun hstop => ?_⟩
    · rw [ht]
      bv_omega
    · have hok : t.succeeded = true := by simp [State.succeeded, hr]
      simp [h0, hc, hok] at hstop
  | keeps hslots hstop =>
    rw [hhalt, hcycle] at hstop
    refine ⟨fun h0 hc hok => ?_, fun _ => State.cells_of_slotWord (hslots.trans hbegin.slots)⟩
    simp [h0, hc, hok] at hstop

end Sys2Proof.Machine
end

section
/-!
Reset and hazards (70_reset_and_hazards.md): how many accesses one Step makes (R280), and that the instruction
`State.withFetchWord` places is the one the next Step executes (R272).
-/

namespace Sys2Proof.Machine

/-! ### The number of accesses (R280) -/

/-- Four accesses of the front, at most three of an executor before its pc write, the pc and the cycle
(45_step_controller.md R223). -/
theorem length_stepSites_le (i : Instr) : (stepSites i).length ≤ 9 := by
  have hdest : i.written.length ≤ 1 := by
    rcases written_eq_nil_or_singleton i with h | ⟨rd, h⟩ <;> simp [h]
  have hbody : (bodySites i).length ≤ 3 := by
    simp only [bodySites, List.length_append, List.length_map]
    cases i with
    | beq | bne | blt | bge | bltu | bgeu => exact Nat.le_succ 2
    | _ =>
      simp only [Instr.sources, Instr.loadForm, Option.isSome, List.length_cons, List.length_nil, if_true,
        Bool.false_eq_true, if_false]
      omega
  simp only [stepSites, frontSites, executorSites, List.length_append, List.length_cons, List.length_nil]
  omega

/-- Each consumed entry belongs to an operation that was issued (40_verifier_facade.md R130). -/
theorem step_cursor_le_trace {s t : State} (h : step s = .next t) : t.cursor ≤ t.trace.length := by
  obtain ⟨u, i, hu, ts, refused, -, hp, -⟩ := step_begins_ended h
  simp [hp.cursor, hp.trace, hu.cursor, hu.trace]

/-- Settles O43: the operations of a Step are at the first of some instruction's sites, of which there are at
most nine, and the cursor counts no more than the operations. -/
theorem atMostNineAccesses : Obligations.AtMostNineAccesses := by
  intro s t h
  obtain ⟨i, hsites, -⟩ := step_trace h
  have htrace : t.trace.length ≤ 9 := by
    simpa [sites] using hsites.length_le.trans (length_stepSites_le i)
  exact ⟨(step_cursor_le_trace h).trans htrace, htrace⟩

/-! ### The placed word in memory (30_encoding.md R80) -/

/-- A byte of the word at an address, counted from the containing word's start. -/
theorem byteAddr_alignDown {p : Word} {k : Nat} (hk : p.toNat % 8 + k < 8) :
    byteAddr (alignDown p) (p.toNat % 8 + k) = byteAddr p k := by
  have hp := p.isLt
  rw [byteAddr_aligned _ (alignDown_toNat_mod p) hk, alignDown_toNat, byteAddr, BitVec.toNat_add,
    BitVec.toNat_ofNat]
  omega

theorem Memory.readByte_placeInstr {m : Memory} (hm : m.wf = true) (p : Word) (bits : InstrWord) {k : Nat}
    (hk : k < 4) : (m.placeInstr p bits).readByte (byteAddr p k) = byteOf (bits.setWidth 64) k :=
  (Memory.readByte_writeBytes hm p _ 4 (by omega) _).1 k hk rfl

theorem byteOf_setWidth_instrWord (bits : InstrWord) {k : Nat} (hk : 4 ≤ k) :
    byteOf (bits.setWidth 64) k = 0#8 := by
  apply BitVec.eq_of_getLsbD_eq
  intro i hi
  rw [byteOf_getLsbD _ hi, BitVec.getLsbD_setWidth, BitVec.getLsbD_of_ge bits _ (by omega), Bool.and_false,
    BitVec.getLsbD_zero]

/-- A fetch at an aligned pc finds the word that was placed there (45_step_controller.md R214). -/
theorem Memory.instrWordAt_placeInstr {m : Memory} (hm : m.wf = true) {p : Word} (hp : p.toNat % 4 = 0)
    (bits : InstrWord) : instrWordAt p ((m.placeInstr p bits).readWord (alignDown p)) = bits := by
  have hal : Width.word.aligned p = true := (Width.word.aligned_iff p).mpr hp
  have hbytes : Width.word.extract p ((m.placeInstr p bits).readWord (alignDown p)) = bits.setWidth 64 := by
    refine word_ext fun k hk => ?_
    rw [Width.byteOf_extract hal hk]
    split
    · next hin =>
      have hk4 : k < 4 := hin
      have hlane : p.toNat % 8 + k < 8 := by omega
      rw [Memory.byteOf_readWord _ _ hlane, byteAddr_alignDown hlane, Memory.readByte_placeInstr hm p bits hk4]
    · next hout => exact (byteOf_setWidth_instrWord bits (Nat.le_of_not_lt hout)).symm
  rw [← extract_word_eq_instrWordAt p _ hal, hbytes]
  exact BitVec.setWidth_setWidth_of_le bits (by omega)

/-! ### The table word -/

/-- A table word of 32 bits is taken as it is. -/
theorem instrWord_ofNat_mod (w : Nat) : BitVec.ofNat 32 (w % 2 ^ 32) = BitVec.ofNat 32 w :=
  BitVec.eq_of_toNat_eq (by simp only [BitVec.toNat_ofNat, Nat.mod_mod])

/-- The four bytes of a table word, put together again, are its bits. -/
theorem decodeBytes_tableWordBytes {w : Nat} {i : Instr} (h : decode (BitVec.ofNat 32 w) = .ok i) :
    decodeBytes (tableWordBytes 32 w) = .ok (i, []) := by
  simp only [decodeBytes, tableWordBytes, instrWord_ofNat_mod]
  simp [extractLsb'_append_adjacent, h]

/-! ### The placed state (R272) -/

section
variable (s : State) (nbits w : Nat)

@[simp] theorem State.withFetchWord_halt : (s.withFetchWord nbits w).halt = 0#64 := rfl

theorem State.withFetchWord_cycle :
    (s.withFetchWord nbits w).cycle = if s.cycle = saturatedCycle then 0#64 else s.cycle := rfl

theorem State.withFetchWord_cycle_ne : (s.withFetchWord nbits w).cycle ≠ saturatedCycle := by
  rw [State.withFetchWord_cycle]
  by_cases hc : s.cycle = saturatedCycle
  · rw [if_pos hc]
    decide
  · rwa [if_neg hc]

theorem State.withFetchWord_position : (s.withFetchWord nbits w).cfg.position = s.cfg.position := by
  funext sl
  cases sl <;> rfl

/-- No slot answers for a memory word in the placed state. -/
theorem State.withFetchWord_storeWord (a : Word) :
    (s.withFetchWord nbits w).storeWord a = (s.withFetchWord nbits w).mem.readWord a := rfl

theorem State.withFetchWord_aligned : Width.word.aligned (s.withFetchWord nbits w).pc = true := by
  simp [State.withFetchWord, Width.aligned, BitVec.extractLsb'_and]

theorem State.withFetchWord_wordAtPc (hm : s.mem.wf = true) :
    (s.withFetchWord 32 w).wordAtPc = BitVec.ofNat 32 w := by
  have hp := (Width.word.aligned_iff _).mp (s.withFetchWord_aligned 32 w)
  rw [State.wordAtPc, State.withFetchWord_storeWord]
  exact (Memory.instrWordAt_placeInstr hm hp _).trans (instrWord_ofNat_mod w)

theorem State.withFetchWord_booted (hs : s.Inv) : (s.withFetchWord nbits w).booted = true := by
  have hdistinct : (s.withFetchWord nbits w).cfg.distinct := by
    rw [Config.distinct, State.withFetchWord_position]
    exact hs.distinct
  have hzero : (s.withFetchWord nbits w).zeroReg = true := hs.zero
  simp [State.booted, hdistinct, hzero, State.withFetchWord_aligned, State.withFetchWord_cycle_ne]

end

/-- A Running Step of an honest caller executes the instruction at its pc, after the four front accesses
(R224). -/
theorem step_of_wordAtPc {s u : State} {i : Instr} (hu : s.beginStep = some u) (hs : u.caller = .honest)
    (hhalt : u.halt = 0#64) (hcycle : u.cycle ≠ saturatedCycle) (hp : u.pc.toNat % 4 = 0)
    (hdec : decode u.wordAtPc = .ok i) :
    step s = afterExec u.cycle (exec i ((u.touched (u.frontTouches 0#64)).setStepPc u.pc)) := by
  have hfront := front_run hcycle hp rfl (State.admits_take_frontTouches hs hhalt 4)
  rw [State.wordAtPc] at hdec
  simp only [step, hu, hfront, hdec, State.frontTouches]

/-- Settles O48: the placed bytes decode to `i`, at the pc and as a table word, the placed state meets the
boot conditions, and an honest Step from it runs what stands at its pc. -/
theorem placedWordIsExecuted : Obligations.PlacedWordIsExecuted := by
  intro s w i hm hdec
  refine ⟨by rw [decodeTableWord, decodeBytes_tableWordBytes hdec], s.withFetchWord_booted 32 w, ?_⟩
  obtain ⟨u, hu, hs, hpc, hregs, hhalt, hcycle, hword⟩ : ∃ u,
      (s.withFetchWord 32 w).beginStep = some u ∧ u.caller = .honest ∧
      u.pc = (s.withFetchWord 32 w).pc ∧ u.regs = s.regs ∧ u.halt = 0#64 ∧
      u.cycle = (s.withFetchWord 32 w).cycle ∧ u.wordAtPc = (s.withFetchWord 32 w).wordAtPc :=
    ⟨_, rfl, rfl, rfl, rfl, rfl, rfl, rfl⟩
  have hp : u.pc.toNat % 4 = 0 := hpc ▸ (Width.word.aligned_iff _).mp (s.withFetchWord_aligned 32 w)
  refine ⟨u.cycle, (u.touched (u.frontTouches 0#64)).setStepPc u.pc, hpc, rfl, hregs, hs,
    (State.result_of_beginStep hu :), step_of_wordAtPc hu hs hhalt ?_ hp ?_⟩
  · exact hcycle ▸ s.withFetchWord_cycle_ne 32 w
  · rw [hword, State.withFetchWord_wordAtPc s w hm]
    exact hdec

end Sys2Proof.Machine
end
